-- ==== Sys2Proof/Word.lean ====
section
/-! DEFINITION. The words of the machine: a byte, the 32-bit operand word, and the 72-bit request
word (00_scope.md R12, R13; 30_encoding.md R70). -/

namespace Sys2Proof

/-- A byte: 8 bits, bit 0 the least significant (R12). -/
abbrev Byte := BitVec 8

/-- An operand latch's word: 32 bits (10_state.md R25). -/
abbrev Word := BitVec 32

/-- A host request word `HREQ`: 72 bits (30_encoding.md R70). -/
abbrev Request := BitVec 72

end Sys2Proof
end

