-- ==== Sys2Proof/Config.lean ====
section
/-! DEFINITION. The configuration `cfg` of an instance (00_scope.md R6 to R11) and the free values: the
constants the spec leaves open, which have no body, so that no proof can see one. -/

namespace Sys2Proof

/-- The geometry descriptor (R6); the four dimensions are 8-bit read-only registers (10_state.md R28). -/
structure Geometry where
  width : Byte
  height : Byte
  offsetX : Byte
  offsetY : Byte
  bufferSize : Nat
deriving DecidableEq, Repr

/-- `pages = height / 8` (R6). -/
def Geometry.pages (g : Geometry) : Nat := g.height.toNat / 8

/-- The three forms of a controller command (30_encoding.md R76). -/
inductive Format where
  /-- One fixed opcode byte. -/
  | cf1
  /-- One byte: a `w`-bit argument OR-combined into the opcode's low bits. -/
  | cf1a (w : Nat)
  /-- Two bytes: the opcode, then a parameter byte. -/
  | cf2
deriving DecidableEq, Repr

/-- The twenty opcode constants of 30_encoding.md R82, in the table's order. -/
inductive OpName where
  | setLowerColumn
  | setHigherColumn
  | setBreathingLight
  | setPumpVoltage
  | setStartLine
  | setContrast
  | segRemapReversed
  | segPadsConfig
  | resumeFromRam
  | normalDisplay
  | setMultiplex
  | setDcdc
  | displayOff
  | displayOn
  | setPageAddress
  | comScanReversed
  | setDisplayOffset
  | setClockDiv
  | setPrecharge
  | setVcomDeselect
deriving DecidableEq, Repr

/-- Every opcode constant, in the order of R82. -/
def OpName.all : List OpName :=
  [.setLowerColumn, .setHigherColumn, .setBreathingLight, .setPumpVoltage, .setStartLine,
   .setContrast, .segRemapReversed, .segPadsConfig, .resumeFromRam, .normalDisplay] ++
  [.setMultiplex, .setDcdc, .displayOff, .displayOn, .setPageAddress, .comScanReversed,
   .setDisplayOffset, .setClockDiv, .setPrecharge, .setVcomDeselect]

/-- One row of the opcode catalogue: the opcode byte and the form of its command. -/
structure OpEntry where
  value : Byte
  form : Format
deriving DecidableEq, Repr

/-- The controller opcode map `cfg.op` (R9) together with the form of each command (R82, D9). -/
structure OpTable where
  setLowerColumn : OpEntry
  setHigherColumn : OpEntry
  setBreathingLight : OpEntry
  setPumpVoltage : OpEntry
  setStartLine : OpEntry
  setContrast : OpEntry
  segRemapReversed : OpEntry
  segPadsConfig : OpEntry
  resumeFromRam : OpEntry
  normalDisplay : OpEntry
  setMultiplex : OpEntry
  setDcdc : OpEntry
  displayOff : OpEntry
  displayOn : OpEntry
  setPageAddress : OpEntry
  comScanReversed : OpEntry
  setDisplayOffset : OpEntry
  setClockDiv : OpEntry
  setPrecharge : OpEntry
  setVcomDeselect : OpEntry
deriving DecidableEq, Repr

/-- The row of one constant. -/
def OpTable.entry (t : OpTable) : OpName → OpEntry
  | .setLowerColumn => t.setLowerColumn
  | .setHigherColumn => t.setHigherColumn
  | .setBreathingLight => t.setBreathingLight
  | .setPumpVoltage => t.setPumpVoltage
  | .setStartLine => t.setStartLine
  | .setContrast => t.setContrast
  | .segRemapReversed => t.segRemapReversed
  | .segPadsConfig => t.segPadsConfig
  | .resumeFromRam => t.resumeFromRam
  | .normalDisplay => t.normalDisplay
  | .setMultiplex => t.setMultiplex
  | .setDcdc => t.setDcdc
  | .displayOff => t.displayOff
  | .displayOn => t.displayOn
  | .setPageAddress => t.setPageAddress
  | .comScanReversed => t.comScanReversed
  | .setDisplayOffset => t.setDisplayOffset
  | .setClockDiv => t.setClockDiv
  | .setPrecharge => t.setPrecharge
  | .setVcomDeselect => t.setVcomDeselect

/-- The default opcode map: the values and forms of R82's table (GK1, GK2; assumption 8). -/
def OpTable.default : OpTable where
  setLowerColumn := ⟨0x00, .cf1a 4⟩
  setHigherColumn := ⟨0x10, .cf1a 4⟩
  setBreathingLight := ⟨0x23, .cf2⟩
  setPumpVoltage := ⟨0x30, .cf1a 2⟩
  setStartLine := ⟨0x40, .cf1a 6⟩
  setContrast := ⟨0x81, .cf2⟩
  segRemapReversed := ⟨0xA1, .cf1⟩
  segPadsConfig := ⟨0xA2, .cf1a 1⟩
  resumeFromRam := ⟨0xA4, .cf1⟩
  normalDisplay := ⟨0xA6, .cf1⟩
  setMultiplex := ⟨0xA8, .cf2⟩
  setDcdc := ⟨0xAD, .cf2⟩
  displayOff := ⟨0xAE, .cf1⟩
  displayOn := ⟨0xAF, .cf1⟩
  setPageAddress := ⟨0xB0, .cf1a 3⟩
  comScanReversed := ⟨0xC8, .cf1⟩
  setDisplayOffset := ⟨0xD3, .cf2⟩
  setClockDiv := ⟨0xD5, .cf2⟩
  setPrecharge := ⟨0xD9, .cf2⟩
  setVcomDeselect := ⟨0xDB, .cf2⟩

/-- The seven initialisation parameter bytes, each OPEN (R8, D8). -/
structure InitParams where
  clkDiv : Byte
  dcdc : Byte
  pumpV : Byte
  segPads : Byte
  contrast : Byte
  precharge : Byte
  vcom : Byte
deriving DecidableEq, Repr

/-- `exec_mode` (R11); it changes no rule. -/
inductive ExecMode where
  | blocking
  | cooperative
deriving DecidableEq, Repr

/-- The configuration: fixed when the instance is built, written by no operation (R6 to R11, R28). -/
structure Config where
  geom : Geometry
  /-- `T_RST_PRE_MS`, `T_RST_LOW_US`, `T_RST_POST_MS` (R7). -/
  tRstPreMs : Nat
  tRstLowUs : Nat
  tRstPostMs : Nat
  params : InitParams
  ops : OpTable
  pinPresent : Bool
  /-- `PINERR_W`, the width of a pin error value (30_encoding.md R73, D24). -/
  pinErrW : Nat
  execMode : ExecMode
deriving DecidableEq, Repr

/-- What the environment does about the event in progress, before the laws of R14 are applied:
it answers success, it answers failure with an error value, or it has not answered yet
(70_reset_and_hazards.md R183). -/
inductive EnvAnswer where
  | ok
  | fail (e : Word)
  | pending
deriving DecidableEq, Repr, Inhabited

/-! ## Free values: constants without a body, so nothing can be proved of their value. -/

/-- `P_CLKDIV` of the reset configuration (R8, D8: OPEN, no default; assumption 9). -/
opaque Config.freeClkDiv : Byte
/-- `P_DCDC` of the reset configuration. -/
opaque Config.freeDcdc : Byte
/-- `P_PUMPV` of the reset configuration. -/
opaque Config.freePumpV : Byte
/-- `P_SEGPADS` of the reset configuration. -/
opaque Config.freeSegPads : Byte
/-- `P_CONTRAST` of the reset configuration. -/
opaque Config.freeContrast : Byte
/-- `P_PRECHARGE` of the reset configuration. -/
opaque Config.freePrecharge : Byte
/-- `P_VCOM` of the reset configuration. -/
opaque Config.freeVcom : Byte
/-- `offsetY` of the offset panel (R6, D6: OPEN, read by no rule). -/
opaque Config.freeOffsetY : Byte
/-- The environment's answer number `n` where none has been laid down as an input (R14: "an oracle
that is under no law"; assumption 4). -/
opaque Config.freeAnswer (n : Nat) : EnvAnswer
/-- Byte `field` of the panel controller's registers at draw `n`: what they hold when nothing the
spec says decides it (U4, U5, U6, U8, U9; assumptions 16 to 19). -/
opaque Config.freePanelByte (n field : Nat) : Byte

/-! ## The named variants and the configuration of the reset state. -/

/-- The variant `G128x64` (R6, D6). -/
def Geometry.g128x64 : Geometry := ⟨128, 64, 0, 0, 1024⟩

/-- The variant `G88x48` (R6); its `offsetY` is an OPEN parameter. -/
def Geometry.g88x48 (offsetY : Byte) : Geometry := ⟨88, 48, 20, offsetY, 528⟩

/-- The seven parameter bytes as free values. -/
def InitParams.free : InitParams :=
  ⟨Config.freeClkDiv, Config.freeDcdc, Config.freePumpV, Config.freeSegPads,
   Config.freeContrast, Config.freePrecharge, Config.freeVcom⟩

/-- The configuration over a geometry and parameter bytes, every other field at the spec's default
(R7, R9) or, where it gives none, at assumption 7's choice. -/
def Config.over (g : Geometry) (p : InitParams) : Config where
  geom := g
  tRstPreMs := 1
  tRstLowUs := 10
  tRstPostMs := 2
  params := p
  ops := OpTable.default
  pinPresent := true
  pinErrW := 32
  execMode := .blocking

/-- The configuration of `State.reset` (assumption 7). -/
def Config.default : Config := Config.over Geometry.g128x64 InitParams.free

/-- The offset panel with every open value free. -/
def Config.offsetPanel : Config := Config.over (Geometry.g88x48 Config.freeOffsetY) InitParams.free

end Sys2Proof
end

