-- ==== Sys2Proof/Syntax.lean ====
section
/-! DEFINITION. The instructions: one constructor per row of spec/opcode_table.json. The first ten are
the host operations of 30_encoding.md R71, the other twenty the controller commands of R82. -/

namespace Sys2Proof

/-- The instructions of the two command languages of the spec.
Host operations run on the block (the sequencer); controller commands run on the panel controller.
A controller command's operand is the byte its row carries: the OR-combined argument of a `CF1A(w)`
row, the parameter byte of a `CF2` row (30_encoding.md R76). -/
inductive Instr where
  /-- HARD_RESET (R120). -/
  | hardReset
  /-- INIT (R122). -/
  | init
  /-- CLEAR (R102). -/
  | clear
  /-- FLUSH (R112). -/
  | flush
  /-- SET_COLUMN_ADDRESS (R110); `column` is `A`, unsigned. -/
  | setColumnAddress (column : Word)
  /-- SET_PAGE (R111); `page` is `A`, unsigned. -/
  | setPage (page : Word)
  /-- SET_BREATHING_EFFECT (R130). -/
  | setBreathingEffect (on : Bool) (sel : BitVec 2) (frames : Byte)
  /-- GET_DIMENSIONS (R103). -/
  | getDimensions
  /-- SET_PIXEL_OFF (R101); `x`, `y` are read as signed 32-bit numbers (R72). -/
  | setPixelOff (x y : Word)
  /-- SET_PIXEL_ON (R100). -/
  | setPixelOn (x y : Word)
  | opSetLowerColumn (arg : Byte)
  | opSetHigherColumn (arg : Byte)
  | opSetBreathingLight (param : Byte)
  | opSetPumpVoltage (arg : Byte)
  | opSetStartLine (arg : Byte)
  | opSetContrast (param : Byte)
  | opSegRemapReversed
  | opSegPadsConfig (arg : Byte)
  | opResumeFromRam
  | opNormalDisplay
  | opSetMultiplex (param : Byte)
  | opSetDcdc (param : Byte)
  | opDisplayOff
  | opDisplayOn
  | opSetPageAddress (arg : Byte)
  | opComScanReversed
  | opSetDisplayOffset (param : Byte)
  | opSetClockDiv (param : Byte)
  | opSetPrecharge (param : Byte)
  | opSetVcomDeselect (param : Byte)
deriving DecidableEq, Repr

end Sys2Proof
end

