-- ==== Sys2Proof/WellFormed.lean ====
section
/-! DEFINITION. What a well-formed configuration is (00_scope.md R10) and what a well-formed
instruction is (the operand of a controller command fits its row, 30_encoding.md R76). -/

namespace Sys2Proof

/-- R10 (1) to (5). -/
def Geometry.wf (g : Geometry) : Bool :=
  g.height.toNat % 8 == 0 && decide (8 ≤ g.height.toNat) && decide (g.height.toNat ≤ 64) &&
  decide (1 ≤ g.width.toNat) && decide (g.offsetX.toNat + g.width.toNat ≤ 128) &&
  g.bufferSize == g.width.toNat * g.height.toNat / 8

/-- R82's alignment condition: the argument bits of an OR-combined opcode are zero in the opcode. -/
def OpEntry.aligned (e : OpEntry) : Bool :=
  match e.form with
  | .cf1 => true
  | .cf1a w => decide (w ≤ 8) && e.value.toNat % 2 ^ w == 0
  | .cf2 => true

/-- The rows that carry a value (R82's source words, R81); the other six are opcode bytes alone. -/
def OpName.valued : OpName → Bool
  | .setLowerColumn | .setHigherColumn | .setBreathingLight | .setPumpVoltage | .setStartLine
  | .setContrast | .segPadsConfig | .setMultiplex | .setDcdc | .setPageAddress
  | .setDisplayOffset | .setClockDiv | .setPrecharge | .setVcomDeselect => true
  | .segRemapReversed | .resumeFromRam | .normalDisplay | .displayOff | .displayOn
  | .comScanReversed => false

/-- R10 (6), the four forms the source fixes (R76), and a form that carries a value exactly for the
rows that have one (assumption 8). -/
def OpTable.wf (t : OpTable) : Bool :=
  OpName.all.all (fun n => (t.entry n).aligned && ((t.entry n).form != .cf1) == n.valued) &&
  t.setLowerColumn.form == .cf1a 4 && t.setHigherColumn.form == .cf1a 4 &&
  t.setPageAddress.form == .cf1a 3 && t.setBreathingLight.form == .cf2

/-- How many opcode bytes a row takes up. -/
def OpEntry.span (e : OpEntry) : Nat :=
  match e.form with
  | .cf1 => 1
  | .cf1a w => 2 ^ w
  | .cf2 => 1

/-- Two rows share no command byte. -/
def OpEntry.apart (e f : OpEntry) : Bool :=
  decide (e.value.toNat + e.span ≤ f.value.toNat) || decide (f.value.toNat + f.span ≤ e.value.toNat)

/-- No two rows of the catalogue overlap. R10 does not ask for it; the panel's side needs it to tell
commands apart (assumption 27). -/
def OpTable.distinct (t : OpTable) : Bool :=
  decide (OpName.all.Pairwise fun m n => (t.entry m).apart (t.entry n) = true)

/-- `wf_cfg` of R10, with R7's stated waits and R73's bound on a pin error's width (assumption 6). -/
def Config.wf (c : Config) : Bool :=
  c.geom.wf && c.ops.wf && c.tRstPreMs == 1 && (c.tRstLowUs == 10 || c.tRstLowUs == 50) &&
  c.tRstPostMs == 2 && decide (c.pinErrW ≤ 32)

/-- The operand `v` fits a command of this form: `0 ≤ arg < 2^w` for `CF1A(w)` (R76). -/
def Format.fits (f : Format) (v : Byte) : Bool :=
  match f with
  | .cf1 => v == 0
  | .cf1a w => decide (v.toNat < 2 ^ w)
  | .cf2 => true

/-- Well-formedness of an instruction under an opcode table. A host operation's operands have
exactly their fields' widths, so every one is well formed. -/
def Instr.wfIn (t : OpTable) : Instr → Bool
  | .hardReset => true
  | .init => true
  | .clear => true
  | .flush => true
  | .setColumnAddress _ => true
  | .setPage _ => true
  | .setBreathingEffect _ _ _ => true
  | .getDimensions => true
  | .setPixelOff _ _ => true
  | .setPixelOn _ _ => true
  | .opSetLowerColumn a => t.setLowerColumn.form.fits a
  | .opSetHigherColumn a => t.setHigherColumn.form.fits a
  | .opSetBreathingLight p => t.setBreathingLight.form.fits p
  | .opSetPumpVoltage a => t.setPumpVoltage.form.fits a
  | .opSetStartLine a => t.setStartLine.form.fits a
  | .opSetContrast p => t.setContrast.form.fits p
  | .opSegRemapReversed => true
  | .opSegPadsConfig a => t.segPadsConfig.form.fits a
  | .opResumeFromRam => true
  | .opNormalDisplay => true
  | .opSetMultiplex p => t.setMultiplex.form.fits p
  | .opSetDcdc p => t.setDcdc.form.fits p
  | .opDisplayOff => true
  | .opDisplayOn => true
  | .opSetPageAddress a => t.setPageAddress.form.fits a
  | .opComScanReversed => true
  | .opSetDisplayOffset p => t.setDisplayOffset.form.fits p
  | .opSetClockDiv p => t.setClockDiv.form.fits p
  | .opSetPrecharge p => t.setPrecharge.form.fits p
  | .opSetVcomDeselect p => t.setVcomDeselect.form.fits p

/-- Well-formedness under the default table, which is the one spec/opcode_table.json prints. -/
def Instr.WellFormed (i : Instr) : Bool := i.wfIn OpTable.default

end Sys2Proof
end

