-- ==== Sys2Proof/Decode.lean ====
section
/-! DEFINITION. The decoder and the encoder of both command languages: the 72-bit host request word
(30_encoding.md R70 to R74) and the controller command bytes (R76, R82, R84). Total; what is no
instruction is `none`. -/

namespace Sys2Proof

/-! ## Host request words -/

/-! The operation codes of R71. -/
def Opcode.hardReset : Byte := 0x01
def Opcode.init : Byte := 0x02
def Opcode.clear : Byte := 0x03
def Opcode.flush : Byte := 0x04
def Opcode.setColumnAddress : Byte := 0x05
def Opcode.setPage : Byte := 0x06
def Opcode.setBreathingEffect : Byte := 0x07
def Opcode.getDimensions : Byte := 0x08
def Opcode.setPixelOff : Byte := 0x10
def Opcode.setPixelOn : Byte := 0x11

/-- The request word of its three fields: `op` in 71:64, `A` in 63:32, `B` in 31:0 (R70). -/
def requestOf (op : Byte) (a b : Word) : Request := (op ++ a ++ b : BitVec 72)

/-- Bits 71:64 of a request (R70). -/
def Request.op (w : Request) : Byte := w.extractLsb' 64 8

/-- Bits 63:32 of a request (R70). -/
def Request.a (w : Request) : Word := w.extractLsb' 32 32

/-- Bits 31:0 of a request (R70). -/
def Request.b (w : Request) : Word := w.extractLsb' 0 32

/-- The `A` word of SET_BREATHING_EFFECT: `on` in bit 0, bits 31:1 zero (R71, R72). -/
def breathingA (on : Bool) : Word := if on then 1 else 0

/-- The `B` word of SET_BREATHING_EFFECT: `sel` in 9:8, `frames` in 7:0, bits 31:10 zero. -/
def breathingB (sel : BitVec 2) (frames : Byte) : Word := (0#22 ++ sel ++ frames : BitVec 32)

/-- Accept an operation only when a check on its reserved bits holds (R72, R74). -/
def acceptIf (c : Bool) (i : Instr) : Option Instr := if c then some i else none

/-- The operation a code and two operand words select (R71), or `none` for a reserved request: an
unassigned code, or a reserved operand bit set (R72, R74). -/
def decodeFields (op : Byte) (a b : Word) : Option Instr :=
  if op = Opcode.hardReset then acceptIf (a == 0 && b == 0) .hardReset
  else if op = Opcode.init then acceptIf (a == 0 && b == 0) .init
  else if op = Opcode.clear then acceptIf (a == 0 && b == 0) .clear
  else if op = Opcode.flush then acceptIf (a == 0 && b == 0) .flush
  else if op = Opcode.setColumnAddress then acceptIf (b == 0) (.setColumnAddress a)
  else if op = Opcode.setPage then acceptIf (b == 0) (.setPage a)
  else if op = Opcode.setBreathingEffect then
    acceptIf (a.extractLsb' 1 31 == 0 && b.extractLsb' 10 22 == 0)
      (.setBreathingEffect (a.getLsbD 0) (b.extractLsb' 8 2) (b.extractLsb' 0 8))
  else if op = Opcode.getDimensions then acceptIf (a == 0 && b == 0) .getDimensions
  else if op = Opcode.setPixelOff then some (.setPixelOff a b)
  else if op = Opcode.setPixelOn then some (.setPixelOn a b)
  else none

/-- Decoding of a request word. -/
def decodeRequest (w : Request) : Option Instr := decodeFields w.op w.a w.b

/-- The request word of a host operation (R71); a controller command has none. -/
def encodeRequest : Instr → Option Request
  | .hardReset => some (requestOf Opcode.hardReset 0 0)
  | .init => some (requestOf Opcode.init 0 0)
  | .clear => some (requestOf Opcode.clear 0 0)
  | .flush => some (requestOf Opcode.flush 0 0)
  | .setColumnAddress c => some (requestOf Opcode.setColumnAddress c 0)
  | .setPage p => some (requestOf Opcode.setPage p 0)
  | .setBreathingEffect on sel frames =>
    some (requestOf Opcode.setBreathingEffect (breathingA on) (breathingB sel frames))
  | .getDimensions => some (requestOf Opcode.getDimensions 0 0)
  | .setPixelOff x y => some (requestOf Opcode.setPixelOff x y)
  | .setPixelOn x y => some (requestOf Opcode.setPixelOn x y)
  | .opSetLowerColumn _ => none
  | .opSetHigherColumn _ => none
  | .opSetBreathingLight _ => none
  | .opSetPumpVoltage _ => none
  | .opSetStartLine _ => none
  | .opSetContrast _ => none
  | .opSegRemapReversed => none
  | .opSegPadsConfig _ => none
  | .opResumeFromRam => none
  | .opNormalDisplay => none
  | .opSetMultiplex _ => none
  | .opSetDcdc _ => none
  | .opDisplayOff => none
  | .opDisplayOn => none
  | .opSetPageAddress _ => none
  | .opComScanReversed => none
  | .opSetDisplayOffset _ => none
  | .opSetClockDiv _ => none
  | .opSetPrecharge _ => none
  | .opSetVcomDeselect _ => none

/-! ## Controller commands -/

/-- The part of a value that a form carries: nothing, its low `w` bits, or all of it (R76, R81). -/
def Format.fit (f : Format) (v : Byte) : Byte :=
  match f with
  | .cf1 => 0
  | .cf1a w => BitVec.ofNat 8 (v.toNat % 2 ^ w)
  | .cf2 => v

/-- The bytes of a command: `[op]`, `[op | arg]` or `[op, param]` (R76). -/
def OpEntry.assemble (e : OpEntry) (v : Byte) : List Byte :=
  match e.form with
  | .cf1 => [e.value]
  | .cf1a w => [e.value ||| Format.fit (.cf1a w) v]
  | .cf2 => [e.value, v]

/-- The byte opens a command of this row. -/
def OpEntry.opens (e : OpEntry) (b : Byte) : Bool :=
  match e.form with
  | .cf1 => b == e.value
  | .cf1a w => b.toNat / 2 ^ w == e.value.toNat / 2 ^ w
  | .cf2 => b == e.value

/-- The command a constant names, with its operand. -/
def OpName.command (n : OpName) (v : Byte) : Instr :=
  match n with
  | .setLowerColumn => .opSetLowerColumn v
  | .setHigherColumn => .opSetHigherColumn v
  | .setBreathingLight => .opSetBreathingLight v
  | .setPumpVoltage => .opSetPumpVoltage v
  | .setStartLine => .opSetStartLine v
  | .setContrast => .opSetContrast v
  | .segRemapReversed => .opSegRemapReversed
  | .segPadsConfig => .opSegPadsConfig v
  | .resumeFromRam => .opResumeFromRam
  | .normalDisplay => .opNormalDisplay
  | .setMultiplex => .opSetMultiplex v
  | .setDcdc => .opSetDcdc v
  | .displayOff => .opDisplayOff
  | .displayOn => .opDisplayOn
  | .setPageAddress => .opSetPageAddress v
  | .comScanReversed => .opComScanReversed
  | .setDisplayOffset => .opSetDisplayOffset v
  | .setClockDiv => .opSetClockDiv v
  | .setPrecharge => .opSetPrecharge v
  | .setVcomDeselect => .opSetVcomDeselect v

/-- The constant and the operand of a command; a host operation is none. -/
def Instr.opName? : Instr → Option (OpName × Byte)
  | .hardReset => none
  | .init => none
  | .clear => none
  | .flush => none
  | .setColumnAddress _ => none
  | .setPage _ => none
  | .setBreathingEffect _ _ _ => none
  | .getDimensions => none
  | .setPixelOff _ _ => none
  | .setPixelOn _ _ => none
  | .opSetLowerColumn v => some (.setLowerColumn, v)
  | .opSetHigherColumn v => some (.setHigherColumn, v)
  | .opSetBreathingLight v => some (.setBreathingLight, v)
  | .opSetPumpVoltage v => some (.setPumpVoltage, v)
  | .opSetStartLine v => some (.setStartLine, v)
  | .opSetContrast v => some (.setContrast, v)
  | .opSegRemapReversed => some (.segRemapReversed, 0)
  | .opSegPadsConfig v => some (.segPadsConfig, v)
  | .opResumeFromRam => some (.resumeFromRam, 0)
  | .opNormalDisplay => some (.normalDisplay, 0)
  | .opSetMultiplex v => some (.setMultiplex, v)
  | .opSetDcdc v => some (.setDcdc, v)
  | .opDisplayOff => some (.displayOff, 0)
  | .opDisplayOn => some (.displayOn, 0)
  | .opSetPageAddress v => some (.setPageAddress, v)
  | .opComScanReversed => some (.comScanReversed, 0)
  | .opSetDisplayOffset v => some (.setDisplayOffset, v)
  | .opSetClockDiv v => some (.setClockDiv, v)
  | .opSetPrecharge v => some (.setPrecharge, v)
  | .opSetVcomDeselect v => some (.setVcomDeselect, v)

/-- The bytes of a controller command under an opcode table; a host operation has none. -/
def encodeCommand (t : OpTable) (i : Instr) : List Byte :=
  match i.opName? with
  | some (n, v) => (t.entry n).assemble v
  | none => []

/-- The operand of a row's command and the bytes after it, given the bytes after its opening byte
`b`; `none` when the parameter byte is missing. -/
def OpEntry.operand (e : OpEntry) (b : Byte) (rest : List Byte) : Option (Byte × List Byte) :=
  match e.form with
  | .cf1 => some (0, rest)
  | .cf1a w => some (Format.fit (.cf1a w) b, rest)
  | .cf2 =>
    match rest with
    | [] => none
    | p :: rest' => some (p, rest')

/-- Decoding of the first command of a byte list under an opcode table: the command and the bytes
left over. `none` where no row of R82 opens with the first byte, or its parameter is missing.
DESIGN CHOICE (assumption 27): R10 admits tables whose rows share a byte, and the spec does not say
which command such a byte then is; here it is that of the first row, in R82's order, that the byte
opens. Under a table with `OpTable.distinct`, the default one among them, there is no choice. -/
def decodeCommand (t : OpTable) : List Byte → Option (Instr × List Byte)
  | [] => none
  | b :: rest =>
    match OpName.all.find? fun n => (t.entry n).opens b with
    | none => none
    | some n =>
      match (t.entry n).operand b rest with
      | none => none
      | some (v, rest') => some (n.command v, rest')

/-! ## The opcode table's numbering -/

/-- The two low bytes of a word, first byte in bits 7:0. -/
def commandBytes (w : Nat) : List Byte := [BitVec.ofNat 8 w, BitVec.ofNat 8 (w / 256)]

/-- The bytes of `commandBytes w` that its first command takes up under a table; both where they
open with no command. -/
def firstCommandBytes (t : OpTable) (w : Nat) : List Byte :=
  match decodeCommand t (commandBytes w) with
  | some (_, rest) => (commandBytes w).take (2 - rest.length)
  | none => commandBytes w

/-- What the decoder reads from an instruction of spec/opcode_table.json's numbering: a row of more
than 16 bits is a host request, any other a controller command under the default table. -/
def decodeTableWord (nbits w : Nat) : Option Instr :=
  if 16 < nbits then decodeRequest (BitVec.ofNat 72 w)
  else (decodeCommand OpTable.default (commandBytes w)).map Prod.fst

/-- The encoder in the same numbering: how many bits, and the bits. -/
def encode (i : Instr) : Nat × Nat :=
  match encodeRequest i with
  | some w => (72, w.toNat)
  | none =>
    match encodeCommand OpTable.default i with
    | [b] => (8, b.toNat)
    | [b, p] => (16, b.toNat + 256 * p.toNat)
    | _ => (0, 0)

end Sys2Proof
end

