-- ==== Sys2Proof/Machine/State.lean ====
section
/-! DEFINITION. The state of the machine: the block's registers and framebuffer (10_state.md R20 to
R31), its configuration registers (R28), its two input queues and its trace, and beside the block the
panel controller of 20_memory.md R58, which is no part of it. -/

namespace Sys2Proof.Machine

/-- Bytes by address, in one canonical form (`Memory.rising`, and for the framebuffer
`Memory.wf`). -/
abbrev Memory := List Host.Cell

/-- `dstate` (10_state.md R22): five values and no sixth (U15). -/
inductive DriverState where
  | unpowered
  | reset
  | initializing
  | displaying
  | off
deriving DecidableEq, Repr

/-- `rst` (R23): the level last driven with an `ok` answer. -/
inductive ResetLine where
  | undriven
  | high
  | low
deriving DecidableEq, Repr

/-- `seq` (R24), the sequencer position: the index of the next event of the operation in progress. -/
inductive SeqPos where
  | idle
  | busy (k : Nat)
deriving DecidableEq, Repr

/-- `resp` (R26), as 30_encoding.md R73 lays it out. -/
structure Response where
  status : Byte
  payload : Word
deriving DecidableEq, Repr

/-- The output events (00_scope.md R14). -/
inductive Event where
  | busCmd (bs : List Byte)
  | busData (bs : List Byte)
  | pinHigh
  | pinLow
  | delayMs (n : Nat)
  | delayUs (n : Nat)
deriving DecidableEq, Repr

/-- The answer to an event (R14): a bus event's failure carries nothing, a pin event's its error. -/
inductive Answer where
  | ok
  | fail
  | failPin (e : Word)
deriving DecidableEq, Repr

/-- The panel controller's pointers and settings (10_state.md R30; 20_memory.md R58). -/
structure PanelRegs where
  /-- `pp`, the page pointer, 0..7. -/
  pp : BitVec 3
  /-- `cp`, the column pointer, 0..127. -/
  cp : BitVec 7
  /-- The column pointer has passed 127 (U6). -/
  cpPast : Bool
  displayOn : Bool
  clockDiv : Byte
  multiplex : Byte
  displayOffset : Byte
  startLine : Byte
  dcdc : Byte
  pumpVoltage : Byte
  segRemapReversed : Bool
  comScanReversed : Bool
  segPads : Byte
  contrast : Byte
  precharge : Byte
  vcom : Byte
  /-- The panel shows its RAM (not a forced display). -/
  fromRam : Bool
  /-- The display is not inverted. -/
  normal : Bool
  /-- The parameter byte last written by the breathing-light command. -/
  breathing : Byte
deriving DecidableEq, Repr

/-- The registers at draw `n`: every one a free value. -/
def PanelRegs.free (n : Nat) : PanelRegs where
  pp := (Config.freePanelByte n 0).setWidth 3
  cp := (Config.freePanelByte n 1).setWidth 7
  cpPast := (Config.freePanelByte n 2).getLsbD 0
  displayOn := (Config.freePanelByte n 3).getLsbD 0
  clockDiv := Config.freePanelByte n 4
  multiplex := Config.freePanelByte n 5
  displayOffset := Config.freePanelByte n 6
  startLine := Config.freePanelByte n 7
  dcdc := Config.freePanelByte n 8
  pumpVoltage := Config.freePanelByte n 9
  segRemapReversed := (Config.freePanelByte n 10).getLsbD 0
  comScanReversed := (Config.freePanelByte n 11).getLsbD 0
  segPads := Config.freePanelByte n 12
  contrast := Config.freePanelByte n 13
  precharge := Config.freePanelByte n 14
  vcom := Config.freePanelByte n 15
  fromRam := (Config.freePanelByte n 16).getLsbD 0
  normal := (Config.freePanelByte n 17).getLsbD 0
  breathing := Config.freePanelByte n 18

/-- The panel controller: an assumption about the environment, never part of the block (R58, D22).
`ram` lists the cells whose contents the commands sent so far decide, cell `(page, column)` at
address `128 * page + column`; a cell it does not list holds any value (U9). -/
structure Panel where
  ram : Memory
  regs : PanelRegs
  /-- The controller is in an unknown state: an event failed, or reset is asserted, and no reset
  pulse has completed since (60_exceptions.md R146, R148; U8). -/
  lost : Bool
  /-- A reset pulse is under way: the line was driven low with an `ok` answer and not released. -/
  pulsing : Bool
  /-- The number of the next free draw (the model's own field). -/
  draws : Nat
deriving DecidableEq, Repr

/-- The state of the machine. -/
structure State where
  /-- The read-only configuration registers (10_state.md R28). -/
  cfg : Config
  /-- `FB` (R21); a byte not listed reads 0x00. -/
  fb : Memory
  dstate : DriverState
  rst : ResetLine
  seq : SeqPos
  /-- The operand latches (R25). -/
  opc : Byte
  A : Word
  B : Word
  resp : Response
  /-- `T` (00_scope.md R16): bookkeeping, read by no operation. -/
  trace : List (Event × Answer)
  /-- The host's requests, presented and not yet accepted, oldest first (60_exceptions.md R154, R155). -/
  requests : List Request
  /-- The environment's coming answers, where they are laid down as an input (R14). -/
  env : List EnvAnswer
  /-- The number of the next answer taken from `Config.freeAnswer` (the model's own field). -/
  draws : Nat
  /-- Command bytes presented to the panel controller from outside the block (the model's own input). -/
  panelIn : List Byte
  panel : Panel
deriving DecidableEq, Repr

/-- The ways the machine stops with a fault. -/
inductive Fault where
  /-- Raised by `resume`: the sequencer is busy, but its latches hold no operation in progress at
  that position (U10: "a model that reads one first records a `fault`"). Safe: no run from a
  constructed instance reaches it. -/
  | latchesUnwritten
deriving DecidableEq, Repr

/-- The ways the machine refuses to step. -/
inductive Refusal where
  /-- An instruction without a meaning, by its mnemonic. Raised by no arm of `exec`. Safe. -/
  | notModelled (mnemonic : String)
  /-- The configuration is not well formed (R10; U1: "refuse"). Raised by `fetch`, `resume` and every
  host operation. Safe. -/
  | illFormedConfig
  /-- A host operation was to start while another is in progress (R155; U7: "stuck"). Raised by every
  host operation; `step` never asks for one then. Safe. -/
  | busy
  /-- A request word with an unassigned code or a reserved bit set (30_encoding.md R74; U11:
  "refuse"). Raised by `fetch`. Safe. -/
  | reservedRequest (w : Request)
  /-- Bytes at the panel controller's input that open with no row of R82 (R83), or lack their
  parameter byte. Raised by `fetch`. Safe. -/
  | unknownCommand (bs : List Byte)
deriving DecidableEq, Repr

/-- The panel controller before any event reached it: nothing of it is known (R31, R171). -/
def Panel.reset : Panel where
  ram := []
  regs := PanelRegs.free 0
  lost := false
  pulsing := false
  draws := 1

/-- Construction of an instance with configuration `c` (70_reset_and_hazards.md R170, R171; R31).
`opc`, `A`, `B` and `resp` are unspecified there and zero here (assumption 1). -/
def State.construct (c : Config) : State where
  cfg := c
  fb := []
  dstate := .unpowered
  rst := .undriven
  seq := .idle
  opc := 0
  A := 0
  B := 0
  resp := ⟨0, 0⟩
  trace := []
  requests := []
  env := []
  draws := 0
  panelIn := []
  panel := Panel.reset

/-- The machine right after reset: construction with the configuration of assumption 7. -/
def State.reset : State := State.construct Config.default

end Sys2Proof.Machine
end

