-- ==== Sys2Proof/Machine/Flags.lean ====
section
/-! DEFINITION. The block has no flags (10_state.md R27). What stands in their place is the response:
the two error kinds and their status codes (60_exceptions.md R140; 30_encoding.md R73). -/

namespace Sys2Proof.Machine

/-- The two error kinds (R140). -/
inductive OpError where
  /-- A `BusCmd` or `BusData` failed; no reason is kept. -/
  | displayTransport
  /-- A pin drive failed with the error value `e`. -/
  | pin (e : Word)
deriving DecidableEq, Repr

/-- The status `OK`. -/
def statusOk : Byte := 0x00

/-- The status code of an error (R73, R140). -/
def OpError.status : OpError → Byte
  | .displayTransport => 0x01
  | .pin _ => 0x02

/-- The payload of an error's response: 0, or the pin error verbatim (R73, R140). -/
def OpError.payload : OpError → Word
  | .displayTransport => 0
  | .pin e => e

/-- The response of an error. -/
def OpError.response (e : OpError) : Response := ⟨e.status, e.payload⟩

/-- The response word `HRESP`: status in 39:32, payload in 31:0 (R73). -/
def Response.word (r : Response) : BitVec 40 := r.status ++ r.payload

/-- The error an answer raises (00_scope.md R15). -/
def Answer.error? : Answer → Option OpError
  | .ok => none
  | .fail => some .displayTransport
  | .failPin e => some (.pin e)

end Sys2Proof.Machine
end

