-- ==== Sys2Proof/Machine/Operands.lean ====
section
/-! DEFINITION. Every operand form and every value computed from an operand: coordinates and the
pixel-to-byte mapping (20_memory.md R42, R43), the assembly of arguments and parameters
(30_encoding.md R78 to R81), the answer GET_DIMENSIONS gives (R73). -/

namespace Sys2Proof.Machine

/-- `(x, y)` is on the canvas; the coordinates are compared as signed integers (R13, R40, R72). -/
def inCanvas (g : Geometry) (x y : Word) : Bool :=
  decide (0 ≤ x.toInt) && decide (x.toInt < g.width.toNat) &&
  decide (0 ≤ y.toInt) && decide (y.toInt < g.height.toNat)

/-- `byteIndex(x, y) = x + page(y) * width`, `page(y) = y / 8` (R42); used on the canvas only. -/
def byteIndex (g : Geometry) (x y : Word) : Nat := x.toNat + y.toNat / 8 * g.width.toNat

/-- `mask(y) = 1 << bit(y)`, `bit(y) = y mod 8` (R42). -/
def pixelMask (y : Word) : Byte := 1#8 <<< (y.toNat % 8)

/-- `column` and `page` operands: the latch as an unsigned number (R72). -/
def unsignedOperand (a : Word) : Nat := a.toNat

/-- `c[3:0]`, the lower part of a column address (R78). -/
def columnLow (c : Nat) : Byte := BitVec.ofNat 8 (c % 16)

/-- `c[6:4]`, the higher part of a column address (R78). -/
def columnHigh (c : Nat) : Byte := BitVec.ofNat 8 (c / 16 % 8)

/-- `p[2:0]`, the argument of a page command (R79). -/
def pageArg (p : Nat) : Byte := BitVec.ofNat 8 (p % 8)

/-- The breathing-light parameter `(on << 7) | (sel << 3) | (frames − 1)` (R80, R130). -/
def breathingParam (on : Bool) (sel : BitVec 2) (frames : Byte) : Byte :=
  ((if on then 1#8 else 0#8) <<< 7) ||| (sel.setWidth 8 <<< 3) ||| (frames - 1)

/-- The multiplex-ratio parameter, `height − 1` (R81). -/
def multiplexParam (g : Geometry) : Byte := g.height - 1

/-- The payload of GET_DIMENSIONS: `{0^16, width, height}` (R73, R103). -/
def dimensionsPayload (g : Geometry) : Word := (0#16 ++ g.width ++ g.height : BitVec 32)

/-- The pin error value `e`: `PINERR_W` bits, zero-extended (R73). -/
def pinError (c : Config) (e : Word) : Word := BitVec.ofNat 32 (e.toNat % 2 ^ c.pinErrW)

end Sys2Proof.Machine
end

