-- ==== Sys2Proof/Machine/Memory.lean ====
section
/-! DEFINITION. Memory: sorted lists of (address, byte), and the framebuffer's reads and writes over
them (10_state.md R21; 00_scope.md R17). -/

namespace Sys2Proof.Machine

/-- The byte listed at an address. -/
def Memory.cellAt : Memory → Nat → Option Byte
  | [], _ => none
  | (k, v) :: m, a => if k = a then some v else Memory.cellAt m a

/-- List byte `b` at address `a`, keeping the addresses rising. -/
def Memory.setCell : Memory → Nat → Byte → Memory
  | [], a, b => [(a, b)]
  | (k, v) :: m, a, b =>
    if a < k then (a, b) :: (k, v) :: m
    else if a = k then (a, b) :: m
    else (k, v) :: Memory.setCell m a b

/-- Take address `a` off the list. -/
def Memory.dropCell (m : Memory) (a : Nat) : Memory := m.filter fun c => c.1 != a

/-- The addresses are strictly rising. -/
def Memory.rising (m : Memory) : Bool := decide (m.Pairwise fun c d => c.1 < d.1)

/-- The canonical form of the framebuffer: rising addresses, and no entry equal to what an unlisted
address reads as. -/
def Memory.wf (m : Memory) : Bool := m.rising && m.all fun c => c.2 != 0

/-- `FB[a]`: an unlisted byte reads 0x00, the framebuffer's reset contents (R21). -/
def Memory.read (m : Memory) (a : Nat) : Byte := (m.cellAt a).getD 0

/-- `FB[a] <- b`. -/
def Memory.write (m : Memory) (a : Nat) (b : Byte) : Memory :=
  if b = 0 then m.dropCell a else m.setCell a b

/-- `MemRead(a, n) = [FB[a], ..., FB[a+n-1]]` (R17). -/
def Memory.slice (m : Memory) (a n : Nat) : List Byte := (List.range n).map fun j => m.read (a + j)

/-- `pixel(FB, x, y)` (20_memory.md R43): the value of the pixel in column `x`, row `y`, on a canvas
of `width` columns. A function of the specification: no operation returns it. -/
def pixelAt (m : Memory) (width x y : Nat) : Bool := (m.read (x + y / 8 * width)).getLsbD (y % 8)

end Sys2Proof.Machine
end

