-- ==== Sys2Proof/Machine/Panel.lean ====
section
/-! DEFINITION. The reference model of the panel controller (20_memory.md R58; 10_state.md R30): what
each command, each data byte, each drive of the reset line and each failed event does to it. It is an
assumption about the environment, not part of the block (D22, GK3; assumptions 14 to 19). -/

namespace Sys2Proof.Machine

/-- Pointers and settings become free values. -/
def Panel.forgetRegs (p : Panel) : Panel :=
  { p with regs := PanelRegs.free p.draws, draws := p.draws + 1 }

/-- Nothing of the panel is known any more. -/
def Panel.forget (p : Panel) : Panel := { p.forgetRegs with ram := [] }

/-- A command that changes the registers by `f`. In an unknown state its effect is not promised
(60_exceptions.md R148), so everything becomes free. -/
def Panel.onCommand (f : PanelRegs → PanelRegs) (p : Panel) : Panel :=
  if p.lost then p.forget else { p with regs := f p.regs }

/-! ## The commands: the two pointers (R58), then the settings (R30). -/

/-- `cp[3:0] <- n`. -/
def Panel.opSetLowerColumn (v : Byte) : Panel → Panel :=
  Panel.onCommand fun r =>
    { r with cp := (r.cp.extractLsb' 4 3 ++ v.setWidth 4 : BitVec 7), cpPast := false }

/-- `cp[6:4] <- n[2:0]`. -/
def Panel.opSetHigherColumn (v : Byte) : Panel → Panel :=
  Panel.onCommand fun r =>
    { r with cp := (v.setWidth 3 ++ r.cp.extractLsb' 0 4 : BitVec 7), cpPast := false }

/-- `pp <- p`. -/
def Panel.opSetPageAddress (v : Byte) : Panel → Panel :=
  Panel.onCommand fun r => { r with pp := v.setWidth 3 }

def Panel.opSetBreathingLight (v : Byte) : Panel → Panel :=
  Panel.onCommand fun r => { r with breathing := v }

def Panel.opSetPumpVoltage (v : Byte) : Panel → Panel :=
  Panel.onCommand fun r => { r with pumpVoltage := v }

def Panel.opSetStartLine (v : Byte) : Panel → Panel :=
  Panel.onCommand fun r => { r with startLine := v }

def Panel.opSetContrast (v : Byte) : Panel → Panel :=
  Panel.onCommand fun r => { r with contrast := v }

def Panel.opSegRemapReversed : Panel → Panel :=
  Panel.onCommand fun r => { r with segRemapReversed := true }

def Panel.opSegPadsConfig (v : Byte) : Panel → Panel :=
  Panel.onCommand fun r => { r with segPads := v }

def Panel.opResumeFromRam : Panel → Panel :=
  Panel.onCommand fun r => { r with fromRam := true }

def Panel.opNormalDisplay : Panel → Panel :=
  Panel.onCommand fun r => { r with normal := true }

def Panel.opSetMultiplex (v : Byte) : Panel → Panel :=
  Panel.onCommand fun r => { r with multiplex := v }

def Panel.opSetDcdc (v : Byte) : Panel → Panel :=
  Panel.onCommand fun r => { r with dcdc := v }

def Panel.opDisplayOff : Panel → Panel :=
  Panel.onCommand fun r => { r with displayOn := false }

def Panel.opDisplayOn : Panel → Panel :=
  Panel.onCommand fun r => { r with displayOn := true }

def Panel.opComScanReversed : Panel → Panel :=
  Panel.onCommand fun r => { r with comScanReversed := true }

def Panel.opSetDisplayOffset (v : Byte) : Panel → Panel :=
  Panel.onCommand fun r => { r with displayOffset := v }

def Panel.opSetClockDiv (v : Byte) : Panel → Panel :=
  Panel.onCommand fun r => { r with clockDiv := v }

def Panel.opSetPrecharge (v : Byte) : Panel → Panel :=
  Panel.onCommand fun r => { r with precharge := v }

def Panel.opSetVcomDeselect (v : Byte) : Panel → Panel :=
  Panel.onCommand fun r => { r with vcom := v }

/-- The effect of a controller command on the panel; a host operation is no command of its. -/
def Panel.command (i : Instr) (p : Panel) : Panel :=
  match i with
  | .hardReset => p
  | .init => p
  | .clear => p
  | .flush => p
  | .setColumnAddress _ => p
  | .setPage _ => p
  | .setBreathingEffect _ _ _ => p
  | .getDimensions => p
  | .setPixelOff _ _ => p
  | .setPixelOn _ _ => p
  | .opSetLowerColumn v => p.opSetLowerColumn v
  | .opSetHigherColumn v => p.opSetHigherColumn v
  | .opSetBreathingLight v => p.opSetBreathingLight v
  | .opSetPumpVoltage v => p.opSetPumpVoltage v
  | .opSetStartLine v => p.opSetStartLine v
  | .opSetContrast v => p.opSetContrast v
  | .opSegRemapReversed => p.opSegRemapReversed
  | .opSegPadsConfig v => p.opSegPadsConfig v
  | .opResumeFromRam => p.opResumeFromRam
  | .opNormalDisplay => p.opNormalDisplay
  | .opSetMultiplex v => p.opSetMultiplex v
  | .opSetDcdc v => p.opSetDcdc v
  | .opDisplayOff => p.opDisplayOff
  | .opDisplayOn => p.opDisplayOn
  | .opSetPageAddress v => p.opSetPageAddress v
  | .opComScanReversed => p.opComScanReversed
  | .opSetDisplayOffset v => p.opSetDisplayOffset v
  | .opSetClockDiv v => p.opSetClockDiv v
  | .opSetPrecharge v => p.opSetPrecharge v
  | .opSetVcomDeselect v => p.opSetVcomDeselect v

/-! ## Data -/

/-- The address of RAM cell `(pp, cp)`. -/
def PanelRegs.cell (r : PanelRegs) : Nat := r.pp.toNat * 128 + r.cp.toNat

/-- What the cell in page `page`, column `col` is known to hold; `none` is any value. -/
def Panel.known (p : Panel) (page col : Nat) : Option Byte := p.ram.cellAt (page * 128 + col)

/-- The column pointer is past 127: its value is free (U6). -/
def Panel.pastColumn (p : Panel) : Panel :=
  { p with
    regs := { p.regs with cp := (Config.freePanelByte p.draws 1).setWidth 7, cpPast := true }
    draws := p.draws + 1 }

/-- `cp <- cp + 1` (R58); past 127 the pointer is a free value. -/
def Panel.stepColumn (p : Panel) : Panel :=
  if p.regs.cp = 127#7 then p.pastColumn
  else { p with regs := { p.regs with cp := p.regs.cp + 1 } }

/-- One data byte: `RAM[pp][cp] <- d; cp <- cp + 1` (R58). Past column 127 its fate is any value
(U6): no cell is known any more, and the pointer is free anew. -/
def Panel.dataByte (p : Panel) (d : Byte) : Panel :=
  if p.regs.cpPast then { p.pastColumn with ram := [] }
  else Panel.stepColumn { p with ram := p.ram.setCell p.regs.cell d }

/-- A data burst, first byte first (20_memory.md R45). -/
def Panel.data (bs : List Byte) (p : Panel) : Panel :=
  if p.lost then p.forget else bs.foldl Panel.dataByte p

/-! ## The reset line -/

/-- The line goes low: the controller is in reset and its RAM and settings are unknown (R58, R121). -/
def Panel.assertReset (p : Panel) : Panel := { p.forget with lost := true, pulsing := true }

/-- The line goes high: a pulse under way is complete and the controller takes commands again. -/
def Panel.releaseReset (p : Panel) : Panel :=
  if p.pulsing then { p with lost := false, pulsing := false } else p

/-! ## Failed events: what the panel received is unknown (60_exceptions.md R146, U4, U5). -/

/-- A `BusCmd` failed: none, part or all of the command arrived. -/
def Panel.failedCommand (p : Panel) : Panel :=
  { (if p.lost then p.forget else p.forgetRegs) with lost := true }

/-- A `BusData` of `n` bytes failed: none, part or all of them arrived, so the cells it was sent to
hold any value; every other cell is as it was (95_test_vectors.md P3). -/
def Panel.failedData (n : Nat) (p : Panel) : Panel :=
  if p.lost || p.regs.cpPast || decide (128 < p.regs.cp.toNat + n) then { p.forget with lost := true }
  else
    { p.forgetRegs with
      ram := (List.range n).foldl (fun m j => m.dropCell (p.regs.cell + j)) p.ram
      lost := true }

/-- A pin drive failed: the line carries any level (U5), so the controller may have been reset. -/
def Panel.failedPin (p : Panel) : Panel := { p.forget with lost := true, pulsing := false }

end Sys2Proof.Machine
end

