-- ==== Sys2Proof/Machine/Ops.lean ====
section
/-! DEFINITION. The shared operations of the block: accepting a request, the framebuffer, emitting an
event and taking its answer (00_scope.md R14 to R17), raising an error (60_exceptions.md R147),
responding, and running an operation's list of events. -/

namespace Sys2Proof.Machine

/-! ## Requests and responses -/

/-- Acceptance of a request: the three latches are written and the sequencer stands before the
operation's first event (10_state.md R24, R25). -/
def State.accept (op : Byte) (a b : Word) (s : State) : State :=
  { s with opc := op, A := a, B := b, seq := .busy 0 }

/-- `respond(OK, payload)`: the operation ends (R17, R26). -/
def State.respond (payload : Word) (s : State) : State :=
  { s with resp := ⟨statusOk, payload⟩, seq := .idle }

/-- Taking an error, the block's trap entry (60_exceptions.md R147, R148): the response register
records it, the sequencer goes idle and `dstate` becomes `Unpowered`. Nothing is saved and there is
no vector and no return operation: recovery is a later INIT (R149). -/
def State.raise (e : OpError) (s : State) : State :=
  { s with resp := e.response, seq := .idle, dstate := .unpowered }

/-! ## The framebuffer -/

/-- SET_PIXEL's read-modify-write (40_pixel_ops.md R100, R101): off the canvas nothing, on it one bit
of one byte. -/
def State.paint (on : Bool) (x y : Word) (s : State) : State :=
  if inCanvas s.cfg.geom x y then
    let i := byteIndex s.cfg.geom x y
    let old := s.fb.read i
    { s with fb := s.fb.write i (if on then old ||| pixelMask y else old &&& ~~~(pixelMask y)) }
  else s

/-- CLEAR's effect: every byte 0x00 (R102). -/
def State.clearFb (s : State) : State := { s with fb := [] }

/-- The bytes of page slice `pg`: `FB[pg*width .. pg*width+width-1]` (20_memory.md R41). -/
def State.pageSlice (s : State) (pg : Nat) : List Byte :=
  s.fb.slice (pg * s.cfg.geom.width.toNat) s.cfg.geom.width.toNat

/-! ## The events of an operation -/

/-- What an operation asks of the outside: a controller command, a page's data burst, a pin drive or
a delay. -/
inductive Action where
  | command (i : Instr)
  | pageData (pg : Nat)
  | pinHigh
  | pinLow
  | delayMs (n : Nat)
  | delayUs (n : Nat)
deriving DecidableEq, Repr

/-- What an operation does to the block once an event is answered `ok`, beside what every event does. -/
inductive Post where
  | nothing
  /-- The reset pulse is complete: `dstate <- Reset` (R121, R123). -/
  | pulseDone
  /-- Display-off is written: `dstate <- Initializing` (R123). -/
  | configuring
  /-- `CALL CLEAR`, step 14a of INIT (R122). -/
  | clear
  /-- Display-on is written: `dstate <- Displaying` (R123). -/
  | displaying
deriving DecidableEq, Repr

/-- One event of an operation and what follows its `ok`. -/
structure Micro where
  act : Action
  post : Post
deriving DecidableEq, Repr

/-- An event with nothing more to do after it. -/
def Action.only (a : Action) : Micro := ⟨a, .nothing⟩

/-- The event an action emits in a state; a page's data is read now (R112). -/
def Action.event (a : Action) (s : State) : Event :=
  match a with
  | .command i => .busCmd (encodeCommand s.cfg.ops i)
  | .pageData pg => .busData (s.pageSlice pg)
  | .pinHigh => .pinHigh
  | .pinLow => .pinLow
  | .delayMs n => .delayMs n
  | .delayUs n => .delayUs n

/-- The environment's next answer: the oldest one laid down, else a free value (R14). -/
def State.nextAnswer (s : State) : EnvAnswer :=
  match s.env with
  | a :: _ => a
  | [] => Config.freeAnswer s.draws

/-- The environment's next answer has been used. -/
def State.useAnswer (s : State) : State :=
  match s.env with
  | _ :: rest => { s with env := rest }
  | [] => { s with draws := s.draws + 1 }

/-- The answer an event gets (R14): a delay never fails; with `pin_present = false` a pin event never
fails; a bus failure loses its reason; `none` where the environment has not answered (R183).
DESIGN CHOICE (assumption 28): a pin event without a wired line may wait for its answer like any
other event. R11 and R153 (3) say it is answered `ok` and not when; U12 leaves answering open. -/
def Event.answer (c : Config) (ev : Event) (a : EnvAnswer) : Option Answer :=
  match a with
  | .pending => none
  | .ok => some .ok
  | .fail e =>
    match ev with
    | .busCmd _ => some .fail
    | .busData _ => some .fail
    | .pinHigh => if c.pinPresent then some (.failPin (pinError c e)) else some .ok
    | .pinLow => if c.pinPresent then some (.failPin (pinError c e)) else some .ok
    | .delayMs _ => some .ok
    | .delayUs _ => some .ok

/-- `rst` after an event (10_state.md R23): the level of a pin drive answered `ok`. -/
def Event.drivenLine (ev : Event) (ans : Answer) (line : ResetLine) : ResetLine :=
  match ev, ans with
  | .pinHigh, .ok => .high
  | .pinLow, .ok => .low
  | _, _ => line

/-- The panel controller's side of an event. Without a wired line a pin event does nothing (R11). A
command is taken as the one the operation names, also under a table in which its bytes are those of
another row too (DESIGN CHOICE, assumption 27). -/
def Action.onPanel (act : Action) (ev : Event) (ans : Answer) (pinPresent : Bool) (p : Panel) : Panel :=
  match act, ans with
  | .command i, .ok => p.command i
  | .command _, _ => p.failedCommand
  | .pageData _, .ok => match ev with
    | .busData bs => p.data bs
    | _ => p
  | .pageData _, _ => match ev with
    | .busData bs => p.failedData bs.length
    | _ => p
  | .pinHigh, .ok => if pinPresent then p.releaseReset else p
  | .pinHigh, _ => if pinPresent then p.failedPin else p
  | .pinLow, .ok => if pinPresent then p.assertReset else p
  | .pinLow, _ => if pinPresent then p.failedPin else p
  | .delayMs _, _ => p
  | .delayUs _, _ => p

/-- An event has been answered: the trace grows by the pair (R16), the line register and the panel
follow. -/
def State.answered (act : Action) (ans : Answer) (s : State) : State :=
  let ev := act.event s
  { s with
    trace := s.trace ++ [(ev, ans)]
    rst := ev.drivenLine ans s.rst
    panel := act.onPanel ev ans s.cfg.pinPresent s.panel }

/-- `seq` advances by one per event answered `ok` (R24). -/
def State.advance (s : State) : State :=
  match s.seq with
  | .idle => s
  | .busy k => { s with seq := .busy (k + 1) }

/-- What follows the `ok` of an event. -/
def State.after (p : Post) (s : State) : State :=
  match p with
  | .nothing => s
  | .pulseDone => { s with dstate := .reset }
  | .configuring => { s with dstate := .initializing }
  | .clear => s.clearFb
  | .displaying => { s with dstate := .displaying }

/-- The ways an emission ends (R15). -/
inductive Emitted where
  /-- Answered `ok`: the operation goes on. -/
  | done (s : State)
  /-- Answered with a failure. -/
  | raised (e : OpError) (s : State)
  /-- Not answered yet: the operation waits at this event (R183). -/
  | waiting (s : State)
deriving DecidableEq, Repr

/-- `emit(ev)` (R15). -/
def emit (act : Action) (s : State) : Emitted :=
  match (act.event s).answer s.cfg s.nextAnswer with
  | none => .waiting s.useAnswer
  | some ans =>
    match ans.error? with
    | none => .done (s.useAnswer.answered act ans)
    | some e => .raised e (s.useAnswer.answered act ans)

/-- Run a list of events to its end (`respond(OK, 0)`), to the first failure, or to the first event
the environment has not answered, where the operation waits. -/
def run : List Micro → State → State
  | [], s => s.respond 0
  | m :: ms, s =>
    match emit m.act s with
    | .done t => run ms (t.advance.after m.post)
    | .raised e t => t.raise e
    | .waiting t => t

/-! ## Starting a host operation -/

/-- A host operation is accepted by an idle, well-formed instance and then runs `body`. While another
operation is in progress it is not accepted (60_exceptions.md R155); an instance that fails `wf_cfg`
is refused (R10, U1). -/
def hostOp (op : Byte) (a b : Word) (body : State → State) (s : State) :
    Host.Outcome State Fault Refusal :=
  if s.cfg.wf then
    match s.seq with
    | .idle => .next (body (s.accept op a b))
    | .busy _ => .refused .busy
  else .refused .illFormedConfig

/-- A controller command acts on the panel controller alone. -/
def panelOp (f : Panel → Panel) (s : State) : Host.Outcome State Fault Refusal :=
  .next { s with panel := f s.panel }

end Sys2Proof.Machine
end

