-- ==== Sys2Proof/Machine/Command.lean ====
section
/-! DEFINITION. The twenty controller commands (30_encoding.md R82) as instructions: what the panel
controller does on receiving one (20_memory.md R58; the settings of 10_state.md R30). The block's
state is not touched. -/

namespace Sys2Proof.Machine

/-- OP_SET_LOWER_COLUMN: the low four bits of the column pointer (R58, R78). -/
def execOpSetLowerColumn (v : Byte) (s : State) : Host.Outcome State Fault Refusal :=
  panelOp (Panel.opSetLowerColumn v) s

/-- OP_SET_HIGHER_COLUMN: the high three bits of the column pointer (R58, R78). -/
def execOpSetHigherColumn (v : Byte) (s : State) : Host.Outcome State Fault Refusal :=
  panelOp (Panel.opSetHigherColumn v) s

/-- OP_SET_BREATHING_LIGHT: its setting (R30, R82). -/
def execOpSetBreathingLight (v : Byte) (s : State) : Host.Outcome State Fault Refusal :=
  panelOp (Panel.opSetBreathingLight v) s

/-- OP_SET_PUMP_VOLTAGE: its setting (R30, R82). -/
def execOpSetPumpVoltage (v : Byte) (s : State) : Host.Outcome State Fault Refusal :=
  panelOp (Panel.opSetPumpVoltage v) s

/-- OP_SET_START_LINE: its setting (R30, R82). -/
def execOpSetStartLine (v : Byte) (s : State) : Host.Outcome State Fault Refusal :=
  panelOp (Panel.opSetStartLine v) s

/-- OP_SET_CONTRAST: its setting (R30, R82). -/
def execOpSetContrast (v : Byte) (s : State) : Host.Outcome State Fault Refusal :=
  panelOp (Panel.opSetContrast v) s

/-- OP_SEG_REMAP_REVERSED: its setting (R30, R82). -/
def execOpSegRemapReversed (s : State) : Host.Outcome State Fault Refusal :=
  panelOp Panel.opSegRemapReversed s

/-- OP_SEG_PADS_CONFIG: its setting (R30, R82). -/
def execOpSegPadsConfig (v : Byte) (s : State) : Host.Outcome State Fault Refusal :=
  panelOp (Panel.opSegPadsConfig v) s

/-- OP_RESUME_FROM_RAM: its setting (R30, R82). -/
def execOpResumeFromRam (s : State) : Host.Outcome State Fault Refusal :=
  panelOp Panel.opResumeFromRam s

/-- OP_NORMAL_DISPLAY: its setting (R30, R82). -/
def execOpNormalDisplay (s : State) : Host.Outcome State Fault Refusal :=
  panelOp Panel.opNormalDisplay s

/-- OP_SET_MULTIPLEX: its setting (R30, R82). -/
def execOpSetMultiplex (v : Byte) (s : State) : Host.Outcome State Fault Refusal :=
  panelOp (Panel.opSetMultiplex v) s

/-- OP_SET_DCDC: its setting (R30, R82). -/
def execOpSetDcdc (v : Byte) (s : State) : Host.Outcome State Fault Refusal :=
  panelOp (Panel.opSetDcdc v) s

/-- OP_DISPLAY_OFF: its setting (R30, R82). -/
def execOpDisplayOff (s : State) : Host.Outcome State Fault Refusal :=
  panelOp Panel.opDisplayOff s

/-- OP_DISPLAY_ON: its setting (R30, R82). -/
def execOpDisplayOn (s : State) : Host.Outcome State Fault Refusal :=
  panelOp Panel.opDisplayOn s

/-- OP_SET_PAGE_ADDRESS: the page pointer (R58, R79). -/
def execOpSetPageAddress (v : Byte) (s : State) : Host.Outcome State Fault Refusal :=
  panelOp (Panel.opSetPageAddress v) s

/-- OP_COM_SCAN_REVERSED: its setting (R30, R82). -/
def execOpComScanReversed (s : State) : Host.Outcome State Fault Refusal :=
  panelOp Panel.opComScanReversed s

/-- OP_SET_DISPLAY_OFFSET: its setting (R30, R82). -/
def execOpSetDisplayOffset (v : Byte) (s : State) : Host.Outcome State Fault Refusal :=
  panelOp (Panel.opSetDisplayOffset v) s

/-- OP_SET_CLOCK_DIV: its setting (R30, R82). -/
def execOpSetClockDiv (v : Byte) (s : State) : Host.Outcome State Fault Refusal :=
  panelOp (Panel.opSetClockDiv v) s

/-- OP_SET_PRECHARGE: its setting (R30, R82). -/
def execOpSetPrecharge (v : Byte) (s : State) : Host.Outcome State Fault Refusal :=
  panelOp (Panel.opSetPrecharge v) s

/-- OP_SET_VCOM_DESELECT: its setting (R30, R82). -/
def execOpSetVcomDeselect (v : Byte) (s : State) : Host.Outcome State Fault Refusal :=
  panelOp (Panel.opSetVcomDeselect v) s

end Sys2Proof.Machine
end

