-- ==== Sys2Proof/Machine/Effect.lean ====
section
/-! DEFINITION. The breathing-light operation (43_effect_ops.md). -/

namespace Sys2Proof.Machine

/-- SET_BREATHING_EFFECT's events: none unless `1 ≤ frames ≤ 8`, whatever `on` is (R130). -/
def breathingEvents (on : Bool) (sel : BitVec 2) (frames : Byte) : List Micro :=
  if frames.toNat = 0 ∨ 8 < frames.toNat then []
  else [(Action.command (.opSetBreathingLight (breathingParam on sel frames))).only]

/-- SET_BREATHING_EFFECT (R130). -/
def execSetBreathingEffect (on : Bool) (sel : BitVec 2) (frames : Byte) (s : State) :
    Host.Outcome State Fault Refusal :=
  hostOp Opcode.setBreathingEffect (breathingA on) (breathingB sel frames)
    (run (breathingEvents on sel frames)) s

end Sys2Proof.Machine
end

