-- ==== Sys2Proof/Machine/Pixel.lean ====
section
/-! DEFINITION. The pixel and framebuffer operations (40_pixel_ops.md). None emits an event. -/

namespace Sys2Proof.Machine

/-- SET_PIXEL_ON (R100). -/
def execSetPixelOn (x y : Word) (s : State) : Host.Outcome State Fault Refusal :=
  hostOp Opcode.setPixelOn x y (fun t => (t.paint true x y).respond 0) s

/-- SET_PIXEL_OFF (R101). -/
def execSetPixelOff (x y : Word) (s : State) : Host.Outcome State Fault Refusal :=
  hostOp Opcode.setPixelOff x y (fun t => (t.paint false x y).respond 0) s

/-- CLEAR (R102). -/
def execClear (s : State) : Host.Outcome State Fault Refusal :=
  hostOp Opcode.clear 0 0 (fun t => t.clearFb.respond 0) s

/-- GET_DIMENSIONS (R103). -/
def execGetDimensions (s : State) : Host.Outcome State Fault Refusal :=
  hostOp Opcode.getDimensions 0 0 (fun t => t.respond (dimensionsPayload t.cfg.geom)) s

/-- One element of a DRAW batch (R105). -/
structure DrawPoint where
  x : Word
  y : Word
  on : Bool
deriving DecidableEq, Repr

/-- The operation an element of a batch stands for (R86, R105). -/
def DrawPoint.instr (p : DrawPoint) : Instr :=
  if p.on then .setPixelOn p.x p.y else .setPixelOff p.x p.y

/-- The request word of an element. -/
def DrawPoint.request (p : DrawPoint) : Request :=
  requestOf (if p.on then Opcode.setPixelOn else Opcode.setPixelOff) p.x p.y

/-- DRAW, the pseudo-operation: one request per element, in list order (R86, R105). -/
def drawRequests (ps : List DrawPoint) : List Request := ps.map DrawPoint.request

end Sys2Proof.Machine
end

