-- ==== Sys2Proof/Machine/Addressing.lean ====
section
/-! DEFINITION. The addressing and flush operations (41_addressing_ops.md). -/

namespace Sys2Proof.Machine

/-- SET_COLUMN_ADDRESS's events for panel column `c`: none above 127, else the lower then the higher
command (R110, R78). -/
def setColumnEvents (c : Nat) : List Micro :=
  if 127 < c then []
  else [(Action.command (.opSetLowerColumn (columnLow c))).only,
        (Action.command (.opSetHigherColumn (columnHigh c))).only]

/-- SET_PAGE's events for panel page `p`: none above 7 (R111, R79). -/
def setPageEvents (p : Nat) : List Micro :=
  if 7 < p then [] else [(Action.command (.opSetPageAddress (pageArg p))).only]

/-- The body of FLUSH's loop for page `pg` (R112). -/
def flushPageEvents (c : Config) (pg : Nat) : List Micro :=
  setPageEvents pg ++ setColumnEvents c.geom.offsetX.toNat ++ [(Action.pageData pg).only]

/-- FLUSH's events: the pages `0 .. height/8 - 1` in increasing order (R112). -/
def flushEvents (c : Config) : List Micro := (List.range c.geom.pages).flatMap (flushPageEvents c)

/-- SET_COLUMN_ADDRESS (R110). -/
def execSetColumnAddress (column : Word) (s : State) : Host.Outcome State Fault Refusal :=
  hostOp Opcode.setColumnAddress column 0 (run (setColumnEvents (unsignedOperand column))) s

/-- SET_PAGE (R111). -/
def execSetPage (page : Word) (s : State) : Host.Outcome State Fault Refusal :=
  hostOp Opcode.setPage page 0 (run (setPageEvents (unsignedOperand page))) s

/-- FLUSH (R112). -/
def execFlush (s : State) : Host.Outcome State Fault Refusal :=
  hostOp Opcode.flush 0 0 (run (flushEvents s.cfg)) s

end Sys2Proof.Machine
end

