-- ==== Sys2Proof/Machine/ResetInit.lean ====
section
/-! DEFINITION. The hard reset and the initialisation (42_reset_init_ops.md). -/

namespace Sys2Proof.Machine

/-- HARD_RESET's six events (R120); after the last, `dstate <- Reset` (R121). -/
def hardResetEvents (c : Config) : List Micro :=
  [Action.pinHigh.only, (Action.delayMs c.tRstPreMs).only,
   Action.pinLow.only, (Action.delayUs c.tRstLowUs).only,
   Action.pinHigh.only, ⟨.delayMs c.tRstPostMs, .pulseDone⟩]

/-- `INIT_CMD(1)` to `INIT_CMD(13)` (R122): a value goes into its command as far as the command's
form carries it (R81). Display-off moves `dstate` (R123); CLEAR, step 14a, follows the last. -/
def initConfigEvents (c : Config) : List Micro :=
  [⟨.command .opDisplayOff, .configuring⟩,
   (Action.command (.opSetClockDiv (c.ops.setClockDiv.form.fit c.params.clkDiv))).only,
   (Action.command (.opSetMultiplex (c.ops.setMultiplex.form.fit (multiplexParam c.geom)))).only,
   (Action.command (.opSetDisplayOffset (c.ops.setDisplayOffset.form.fit 0))).only,
   (Action.command (.opSetStartLine (c.ops.setStartLine.form.fit 0))).only,
   (Action.command (.opSetDcdc (c.ops.setDcdc.form.fit c.params.dcdc))).only,
   (Action.command (.opSetPumpVoltage (c.ops.setPumpVoltage.form.fit c.params.pumpV))).only,
   (Action.command .opSegRemapReversed).only,
   (Action.command .opComScanReversed).only,
   (Action.command (.opSegPadsConfig (c.ops.segPadsConfig.form.fit c.params.segPads))).only,
   (Action.command (.opSetContrast (c.ops.setContrast.form.fit c.params.contrast))).only,
   (Action.command (.opSetPrecharge (c.ops.setPrecharge.form.fit c.params.precharge))).only,
   ⟨.command (.opSetVcomDeselect (c.ops.setVcomDeselect.form.fit c.params.vcom)), .clear⟩]

/-- `INIT_CMD(15)` to `INIT_CMD(17)` (R122, R123). -/
def initShowEvents : List Micro :=
  [(Action.command .opResumeFromRam).only, (Action.command .opNormalDisplay).only,
   ⟨.command .opDisplayOn, .displaying⟩]

/-- INIT's events in their strict order (R122, R124). -/
def initEvents (c : Config) : List Micro :=
  hardResetEvents c ++ initConfigEvents c ++ flushEvents c ++ initShowEvents

/-- HARD_RESET (R120). -/
def execHardReset (s : State) : Host.Outcome State Fault Refusal :=
  hostOp Opcode.hardReset 0 0 (run (hardResetEvents s.cfg)) s

/-- INIT (R122). -/
def execInit (s : State) : Host.Outcome State Fault Refusal :=
  hostOp Opcode.init 0 0 (run (initEvents s.cfg)) s

end Sys2Proof.Machine
end

