-- ==== Sys2Proof/Machine/Dispatch.lean ====
section
/-! DEFINITION. Dispatch: one arm per constructor of Instr, each one call of its meaning. -/

namespace Sys2Proof.Machine

def exec (i : Instr) (s : State) : Host.Outcome State Fault Refusal :=
  match i with
  | .hardReset => Sys2Proof.Machine.execHardReset s
  | .init => Sys2Proof.Machine.execInit s
  | .clear => Sys2Proof.Machine.execClear s
  | .flush => Sys2Proof.Machine.execFlush s
  | .setColumnAddress column => Sys2Proof.Machine.execSetColumnAddress column s
  | .setPage page => Sys2Proof.Machine.execSetPage page s
  | .setBreathingEffect on sel frames => Sys2Proof.Machine.execSetBreathingEffect on sel frames s
  | .getDimensions => Sys2Proof.Machine.execGetDimensions s
  | .setPixelOff x y => Sys2Proof.Machine.execSetPixelOff x y s
  | .setPixelOn x y => Sys2Proof.Machine.execSetPixelOn x y s
  | .opSetLowerColumn v => Sys2Proof.Machine.execOpSetLowerColumn v s
  | .opSetHigherColumn v => Sys2Proof.Machine.execOpSetHigherColumn v s
  | .opSetBreathingLight v => Sys2Proof.Machine.execOpSetBreathingLight v s
  | .opSetPumpVoltage v => Sys2Proof.Machine.execOpSetPumpVoltage v s
  | .opSetStartLine v => Sys2Proof.Machine.execOpSetStartLine v s
  | .opSetContrast v => Sys2Proof.Machine.execOpSetContrast v s
  | .opSegRemapReversed => Sys2Proof.Machine.execOpSegRemapReversed s
  | .opSegPadsConfig v => Sys2Proof.Machine.execOpSegPadsConfig v s
  | .opResumeFromRam => Sys2Proof.Machine.execOpResumeFromRam s
  | .opNormalDisplay => Sys2Proof.Machine.execOpNormalDisplay s
  | .opSetMultiplex v => Sys2Proof.Machine.execOpSetMultiplex v s
  | .opSetDcdc v => Sys2Proof.Machine.execOpSetDcdc v s
  | .opDisplayOff => Sys2Proof.Machine.execOpDisplayOff s
  | .opDisplayOn => Sys2Proof.Machine.execOpDisplayOn s
  | .opSetPageAddress v => Sys2Proof.Machine.execOpSetPageAddress v s
  | .opComScanReversed => Sys2Proof.Machine.execOpComScanReversed s
  | .opSetDisplayOffset v => Sys2Proof.Machine.execOpSetDisplayOffset v s
  | .opSetClockDiv v => Sys2Proof.Machine.execOpSetClockDiv v s
  | .opSetPrecharge v => Sys2Proof.Machine.execOpSetPrecharge v s
  | .opSetVcomDeselect v => Sys2Proof.Machine.execOpSetVcomDeselect v s

end Sys2Proof.Machine
end

