-- ==== Sys2Proof/Machine/Fetch.lean ====
section
/-! DEFINITION. What the machine does next: the next command at the panel controller's input, the
operation in progress, or the next request (10_state.md R24; 60_exceptions.md R155). -/

namespace Sys2Proof.Machine

/-- What a step is to do. -/
inductive Fetched where
  /-- Run an instruction in a state from which it has been taken. -/
  | instr (i : Instr) (s : State)
  /-- Go on with the operation in progress. -/
  | inProgress
  /-- Nothing is presented: the block is idle and does nothing (R31). -/
  | nothing
  | refuse (r : Refusal)
deriving DecidableEq, Repr

/-- Fetching. Bytes at the panel controller's own input come first; while an operation is in progress
no request is taken (R155); a reserved request is refused and stays (R74). -/
def fetch (s : State) : Fetched :=
  if s.cfg.wf then
    match s.panelIn with
    | b :: bs =>
      match decodeCommand s.cfg.ops (b :: bs) with
      | some (i, rest) => .instr i { s with panelIn := rest }
      | none => .refuse (.unknownCommand (b :: bs))
    | [] =>
      match s.seq with
      | .busy _ => .inProgress
      | .idle =>
        match s.requests with
        | [] => .nothing
        | w :: ws =>
          match decodeRequest w with
          | some i => .instr i { s with requests := ws }
          | none => .refuse (.reservedRequest w)
  else .refuse .illFormedConfig

/-- The events of a host operation under a configuration: the list its `seq` indexes (R24). The
pixel and framebuffer operations have none; a controller command is no host operation. -/
def operationEvents (c : Config) : Instr → List Micro
  | .hardReset => hardResetEvents c
  | .init => initEvents c
  | .clear => []
  | .flush => flushEvents c
  | .setColumnAddress column => setColumnEvents (unsignedOperand column)
  | .setPage page => setPageEvents (unsignedOperand page)
  | .setBreathingEffect on sel frames => breathingEvents on sel frames
  | .getDimensions => []
  | .setPixelOff _ _ => []
  | .setPixelOn _ _ => []
  | .opSetLowerColumn _ => []
  | .opSetHigherColumn _ => []
  | .opSetBreathingLight _ => []
  | .opSetPumpVoltage _ => []
  | .opSetStartLine _ => []
  | .opSetContrast _ => []
  | .opSegRemapReversed => []
  | .opSegPadsConfig _ => []
  | .opResumeFromRam => []
  | .opNormalDisplay => []
  | .opSetMultiplex _ => []
  | .opSetDcdc _ => []
  | .opDisplayOff => []
  | .opDisplayOn => []
  | .opSetPageAddress _ => []
  | .opComScanReversed => []
  | .opSetDisplayOffset _ => []
  | .opSetClockDiv _ => []
  | .opSetPrecharge _ => []
  | .opSetVcomDeselect _ => []

/-- The operation in the latches (R25). -/
def State.latched (s : State) : Option Instr := decodeFields s.opc s.A s.B

/-- The events of the operation in progress that are still to come. -/
def State.pendingEvents (s : State) : List Micro :=
  match s.latched, s.seq with
  | some i, .busy k => (operationEvents s.cfg i).drop k
  | _, _ => []

/-- Going on with the operation in progress from the event it waits at (R24, R183). -/
def resume (s : State) : Host.Outcome State Fault Refusal :=
  if s.cfg.wf then
    match s.pendingEvents with
    | [] => .fault .latchesUnwritten
    | m :: ms => .next (run (m :: ms) s)
  else .refused .illFormedConfig

end Sys2Proof.Machine
end

