-- ==== Sys2Proof/Machine/Step.lean ====
section
/-! DEFINITION. One step of the machine, and where an instruction is placed for the next step to
run it. -/

namespace Sys2Proof.Machine

/-- One step: an instruction, or the rest of the operation in progress as far as the environment
answers, or nothing where nothing is presented. -/
def step (s : State) : Host.Outcome State Fault Refusal :=
  match fetch s with
  | .instr i t => exec i t
  | .inProgress => resume s
  | .nothing => .next s
  | .refuse r => .refused r

/-- `s` with an instruction of spec/opcode_table.json's numbering placed where `step` takes its next
one: a request of an idle block, or the bytes of a command at the panel controller's input. -/
def State.withFetchWord (s : State) (nbits w : Nat) : State :=
  if 16 < nbits then
    { s with requests := BitVec.ofNat 72 w :: s.requests, seq := .idle, panelIn := [] }
  else { s with panelIn := firstCommandBytes s.cfg.ops w ++ s.panelIn }

end Sys2Proof.Machine
end

