-- ==== Sys2Proof/Safety.lean ====
section
/-! DEFINITION. What counts as a safe state and a lawful run, and the spec's closed forms of the event
lists (41_addressing_ops.md R113; 42_reset_init_ops.md R120, R124): the terms the claims are stated
in. The event lists are written from the rules, apart from the operations. -/

namespace Sys2Proof.Machine

/-! ## Events in closed form -/

/-- `flush_events(cfg, FB)` of R113. -/
def flushEventList (c : Config) (fb : Memory) : List Event :=
  (List.range c.geom.pages).flatMap fun pg =>
    [.busCmd [c.ops.setPageAddress.value ||| BitVec.ofNat 8 pg],
     .busCmd [c.ops.setLowerColumn.value ||| BitVec.ofNat 8 (c.geom.offsetX.toNat % 16)],
     .busCmd [c.ops.setHigherColumn.value ||| BitVec.ofNat 8 (c.geom.offsetX.toNat / 16)],
     .busData (fb.slice (pg * c.geom.width.toNat) c.geom.width.toNat)]

/-- HARD_RESET's six events (R120). -/
def hardResetEventList (c : Config) : List Event :=
  [.pinHigh, .delayMs c.tRstPreMs, .pinLow, .delayUs c.tRstLowUs, .pinHigh, .delayMs c.tRstPostMs]

/-- `BusCmd(INIT_CMD(k))` for `k = 1 .. 13` (R122). -/
def initConfigEventList (c : Config) : List Event :=
  [.busCmd [c.ops.displayOff.value],
   .busCmd (c.ops.setClockDiv.assemble c.params.clkDiv),
   .busCmd (c.ops.setMultiplex.assemble (BitVec.ofNat 8 (c.geom.height.toNat - 1))),
   .busCmd (c.ops.setDisplayOffset.assemble 0),
   .busCmd (c.ops.setStartLine.assemble 0),
   .busCmd (c.ops.setDcdc.assemble c.params.dcdc),
   .busCmd (c.ops.setPumpVoltage.assemble c.params.pumpV),
   .busCmd [c.ops.segRemapReversed.value],
   .busCmd [c.ops.comScanReversed.value],
   .busCmd (c.ops.segPadsConfig.assemble c.params.segPads),
   .busCmd (c.ops.setContrast.assemble c.params.contrast),
   .busCmd (c.ops.setPrecharge.assemble c.params.precharge),
   .busCmd (c.ops.setVcomDeselect.assemble c.params.vcom)]

/-- `BusCmd(INIT_CMD(k))` for `k = 15, 16, 17` (R122). -/
def initShowEventList (c : Config) : List Event :=
  [.busCmd [c.ops.resumeFromRam.value], .busCmd [c.ops.normalDisplay.value],
   .busCmd [c.ops.displayOn.value]]

/-- `init_events(cfg)` of R124: a function of the configuration alone. -/
def initEventList (c : Config) : List Event :=
  hardResetEventList c ++ initConfigEventList c ++ flushEventList c [] ++ initShowEventList c

/-- The trace of a list of events each answered `ok`. -/
def allOk (es : List Event) : List (Event × Answer) := es.map fun e => (e, .ok)

/-- Command bytes of an event (R16: `BusCmd` events may be flattened). -/
def Event.commandBytes : Event → List Byte
  | .busCmd bs => bs
  | _ => []

/-- Data bytes of an event. -/
def Event.dataBytes : Event → List Byte
  | .busData bs => bs
  | _ => []

/-! ## The invariants -/

/-- The structural invariant: the configuration is well formed, both memories keep their form inside
their address spaces, a busy sequencer has an event to go on with, and the status is one of R73's. -/
structure State.Inv (s : State) : Prop where
  cfgWf : s.cfg.wf = true
  fbWf : s.fb.wf = true
  fbBound : ∀ c ∈ s.fb, c.1 < s.cfg.geom.bufferSize
  ramRising : s.panel.ram.rising = true
  ramBound : ∀ c ∈ s.panel.ram, c.1 < 8 * 128
  inProgress : ∀ k, s.seq = .busy k → s.pendingEvents ≠ []
  status : s.resp.status = 0x00 ∨ s.resp.status = 0x01 ∨ s.resp.status = 0x02

/-- What holds of `dstate` and `rst` while no reset pulse is in progress: `Initializing` is a state
within INIT only, and the line was last driven high wherever the controller is not `Unpowered`. -/
def State.lineLaw (s : State) : Prop :=
  s.dstate ≠ .initializing ∧ (s.dstate ≠ .unpowered → s.rst = .high)

/-- What holds at position `k` of the operation `i` (R120, R121, R123). -/
def State.phaseLaw (s : State) (i : Instr) (k : Nat) : Prop :=
  if i = .hardReset ∨ i = .init then
    (k = 0 → s.lineLaw) ∧ (1 ≤ k → k ≤ 2 → s.rst = .high) ∧ (3 ≤ k → k ≤ 4 → s.rst = .low) ∧
    (5 ≤ k → s.rst = .high) ∧ (k ≤ 5 → s.dstate ≠ .initializing) ∧
    (k = 6 → s.dstate = .reset) ∧ (7 ≤ k → s.dstate = .initializing)
  else s.lineLaw

/-- The driver-state invariant: `Off` is never held (R158), and `dstate` and `rst` follow the
sequencer's position. -/
structure State.DriverInv (s : State) : Prop where
  notOff : s.dstate ≠ .off
  idle : s.seq = .idle → s.lineLaw
  busy : ∀ k i, s.seq = .busy k → s.latched = some i → s.phaseLaw i k

/-- What every entry of a trace obeys: delays do not fail, nor do pin events without a wired line
(R14); a command is one row of R82 with an operand that fits, 1 or 2 bytes long (R83, R84); a data
burst has `width` bytes (R77). -/
def lawfulEntry (c : Config) (e : Event × Answer) : Prop :=
  match e.1 with
  | .busCmd bs => (∃ i, i.wfIn c.ops = true ∧ bs = encodeCommand c.ops i) ∧
      (bs.length = 1 ∨ bs.length = 2) ∧ (e.2 = .ok ∨ e.2 = .fail)
  | .busData bs => bs.length = c.geom.width.toNat ∧ (e.2 = .ok ∨ e.2 = .fail)
  | .pinHigh => e.2 = .ok ∨ c.pinPresent = true ∧ ∃ v, e.2 = .failPin v ∧ v.toNat < 2 ^ c.pinErrW
  | .pinLow => e.2 = .ok ∨ c.pinPresent = true ∧ ∃ v, e.2 = .failPin v ∧ v.toNat < 2 ^ c.pinErrW
  | .delayMs _ => e.2 = .ok
  | .delayUs _ => e.2 = .ok

/-- Every entry of the trace is lawful. -/
def State.TraceLaw (s : State) : Prop := ∀ e ∈ s.trace, lawfulEntry s.cfg e

end Sys2Proof.Machine
end

