-- ==== Sys2Proof/Certificates/Slice0/Obligations.lean ====
section
/-! DEFINITION. The statements for the provers: what the spec's numbered rules say of the machine. The
request and response words they name are the spec's own transport (92_eei_decisions.md D1; assumption
3), and the values of `dstate` its own decision (D5, D17; assumption 22). -/

open Sys2Proof Sys2Proof.Machine

/-! ## Reset and the invariants -/

/-- R171, the spec's own decision D20: construction emits no event, leaves the line undriven, `FB`
zero, the driver state `Unpowered`, the sequencer idle, and the panel untouched (no RAM cell known). -/
def Obligations.ConstructionLeavesResetValues : Prop :=
  ∀ c : Config, (State.construct c).trace = [] ∧ (State.construct c).rst = .undriven ∧
    (State.construct c).dstate = .unpowered ∧ (State.construct c).seq = .idle ∧
    (State.construct c).cfg = c ∧ (∀ a, (State.construct c).fb.read a = 0x00) ∧
    (∀ page col, (State.construct c).panel.known page col = none)

/-- Every instance with a well-formed configuration starts in the three invariants (R10, R31), and
so does the machine's own reset state, whose configuration is the model's choice (assumption 7). That
the status is one of R73's at construction rests on the model's zero in `resp` (assumption 1), and
the values of `dstate`, `rst` and `seq` there are the spec's own decision D20 (assumption 2). -/
def Obligations.ConstructionMeetsInvariants : Prop :=
  (∀ c : Config, c.wf = true →
    (State.construct c).Inv ∧ (State.construct c).DriverInv ∧ (State.construct c).TraceLaw) ∧
  State.reset.Inv ∧ State.reset.DriverInv ∧ State.reset.TraceLaw

/-- Every step keeps the structural invariant. -/
def Obligations.StepKeepsStructuralInvariant : Prop :=
  ∀ s t : State, s.Inv → step s = .next t → t.Inv

/-- Every step keeps the driver-state invariant: `Off` is never entered (R158) and `dstate` and
`rst` agree with the sequencer's position (R121, R123, R147). -/
def Obligations.StepKeepsDriverStateInvariant : Prop :=
  ∀ s t : State, s.Inv → s.DriverInv → step s = .next t → t.DriverInv

/-- Every step keeps the trace lawful (R14, R77, R83, R84; one command per event is D2, assumption
10). -/
def Obligations.StepKeepsTraceLawful : Prop :=
  ∀ s t : State, s.Inv → s.TraceLaw → step s = .next t → t.TraceLaw

/-- The trace only grows and the configuration never changes (R6, R16, R28). -/
def Obligations.TraceGrowsAndConfigStays : Prop :=
  ∀ s t : State, step s = .next t → s.trace <+: t.trace ∧ t.cfg = s.cfg

/-- No instruction faults in any state, and from a state that meets the invariant no step does
(R140: the two error kinds are responses). -/
def Obligations.NoStepFaultsUnderInvariant : Prop :=
  (∀ (i : Instr) (s : State) (f : Fault), exec i s ≠ .fault f) ∧
  ∀ (s : State) (f : Fault), s.Inv → step s ≠ .fault f

/-! ## Pixels and the framebuffer -/

/-- R100, whole: on the canvas one byte gets its pixel's bit set and every other byte reads as
before; off it nothing changes; no event, response `OK`, nothing else touched. -/
def Obligations.SetPixelOnResult : Prop :=
  (∀ (x y : Word) (s : State), s.cfg.wf = true → s.seq = .idle →
    ∃ fb : Memory, exec (.setPixelOn x y) s =
        .next { s with opc := 0x11, A := x, B := y, resp := ⟨0x00, 0⟩, fb := fb } ∧
      ((x.toInt < 0 ∨ x.toInt ≥ s.cfg.geom.width.toNat ∨ y.toInt < 0 ∨
          y.toInt ≥ s.cfg.geom.height.toNat) → fb = s.fb) ∧
      ((0 ≤ x.toInt ∧ x.toInt < s.cfg.geom.width.toNat ∧ 0 ≤ y.toInt ∧
          y.toInt < s.cfg.geom.height.toNat) →
        fb.read (byteIndex s.cfg.geom x y) =
          s.fb.read (byteIndex s.cfg.geom x y) ||| (1#8 <<< (y.toNat % 8)) ∧
        ∀ a, a ≠ byteIndex s.cfg.geom x y → fb.read a = s.fb.read a)) ∧
  ∀ x y : Word, decodeRequest (requestOf 0x11 x y) = some (.setPixelOn x y)

/-- R101, whole: as R100 with the bit cleared. -/
def Obligations.SetPixelOffResult : Prop :=
  (∀ (x y : Word) (s : State), s.cfg.wf = true → s.seq = .idle →
    ∃ fb : Memory, exec (.setPixelOff x y) s =
        .next { s with opc := 0x10, A := x, B := y, resp := ⟨0x00, 0⟩, fb := fb } ∧
      ((x.toInt < 0 ∨ x.toInt ≥ s.cfg.geom.width.toNat ∨ y.toInt < 0 ∨
          y.toInt ≥ s.cfg.geom.height.toNat) → fb = s.fb) ∧
      ((0 ≤ x.toInt ∧ x.toInt < s.cfg.geom.width.toNat ∧ 0 ≤ y.toInt ∧
          y.toInt < s.cfg.geom.height.toNat) →
        fb.read (byteIndex s.cfg.geom x y) =
          s.fb.read (byteIndex s.cfg.geom x y) &&& ~~~(1#8 <<< (y.toNat % 8)) ∧
        ∀ a, a ≠ byteIndex s.cfg.geom x y → fb.read a = s.fb.read a)) ∧
  ∀ x y : Word, decodeRequest (requestOf 0x10 x y) = some (.setPixelOff x y)

/-- R102, whole: every byte of `FB` is 0x00 afterwards, nothing is emitted, nothing else changes. -/
def Obligations.ClearResult : Prop :=
  (∀ s : State, s.cfg.wf = true → s.seq = .idle →
    ∃ fb : Memory, exec .clear s =
        .next { s with opc := 0x03, A := 0, B := 0, resp := ⟨0x00, 0⟩, fb := fb } ∧
      ∀ a, fb.read a = 0x00) ∧
  decodeRequest (requestOf 0x03 0 0) = some .clear

/-- R103, whole (an operation by the spec's own decision D21): the response carries
`{0^16, width, height}` and nothing else changes. -/
def Obligations.GetDimensionsResult : Prop :=
  (∀ s : State, s.cfg.wf = true → s.seq = .idle →
    exec .getDimensions s = .next { s with
      opc := 0x08, A := 0, B := 0
      resp := ⟨0x00, BitVec.ofNat 32 (s.cfg.geom.width.toNat * 256 + s.cfg.geom.height.toNat)⟩ }) ∧
  decodeRequest (requestOf 0x08 0 0) = some .getDimensions

/-- R42: on the canvas the byte index is `x + page * width` inside `FB`, the mask has exactly bit
`y mod 8`, and the mapping is a bijection with the stated inverse. -/
def Obligations.PixelMappingIsBijection : Prop :=
  ∀ g : Geometry, g.wf = true →
    (∀ x y : Word, inCanvas g x y = true →
      byteIndex g x y < g.bufferSize ∧
      (byteIndex g x y : Int) = x.toInt + y.toInt / 8 * g.width.toNat ∧
      (∀ b, b < 8 → (pixelMask y).getLsbD b = decide (b = y.toNat % 8)) ∧
      x.toNat = byteIndex g x y % g.width.toNat ∧
      y.toNat = 8 * (byteIndex g x y / g.width.toNat) + y.toNat % 8) ∧
    ∀ i b, i < g.bufferSize → b < 8 →
      ∃ x y : Word, inCanvas g x y = true ∧ byteIndex g x y = i ∧ y.toNat % 8 = b ∧
        x.toNat = i % g.width.toNat ∧ y.toNat = 8 * (i / g.width.toNat) + b

/-- R104, its five parts: what the pixel operations do to the pixels of the canvas. -/
def Obligations.PixelOperationAlgebra : Prop :=
  ∀ s : State, s.cfg.wf = true → s.seq = .idle → s.fb.wf = true →
    -- (1) one pixel changes, every other pixel stays
    (∀ p : DrawPoint, inCanvas s.cfg.geom p.x p.y = true →
      ∃ t, exec p.instr s = .next t ∧
        pixelAt t.fb s.cfg.geom.width.toNat p.x.toNat p.y.toNat = p.on ∧
        ∀ u v, u < s.cfg.geom.width.toNat → v < s.cfg.geom.height.toNat →
          (u, v) ≠ (p.x.toNat, p.y.toNat) →
          pixelAt t.fb s.cfg.geom.width.toNat u v = pixelAt s.fb s.cfg.geom.width.toNat u v) ∧
    -- (2) on then off restores the buffer exactly when the pixel was off
    (∀ x y : Word, inCanvas s.cfg.geom x y = true →
      ∃ t u, exec (.setPixelOn x y) s = .next t ∧ exec (.setPixelOff x y) t = .next u ∧
        (u.fb = s.fb ↔ pixelAt s.fb s.cfg.geom.width.toNat x.toNat y.toNat = false) ∧
        ∀ b, b < 8 → b ≠ y.toNat % 8 →
          (u.fb.read (byteIndex s.cfg.geom x y)).getLsbD b =
            (s.fb.read (byteIndex s.cfg.geom x y)).getLsbD b) ∧
    -- (3) off the canvas the buffer is unchanged
    (∀ p : DrawPoint, inCanvas s.cfg.geom p.x p.y = false →
      ∃ t, exec p.instr s = .next t ∧ t.fb = s.fb) ∧
    -- (4) after CLEAR every pixel is off
    (∃ t, exec .clear s = .next t ∧
      ∀ u v, u < s.cfg.geom.width.toNat → v < s.cfg.geom.height.toNat →
        pixelAt t.fb s.cfg.geom.width.toNat u v = false) ∧
    -- (5) different pixels commute, and each operation is idempotent
    (∀ p q : DrawPoint, (p.x, p.y) ≠ (q.x, q.y) →
      ∃ t₁ t₂ u₁ u₂, exec p.instr s = .next t₁ ∧ exec q.instr t₁ = .next t₂ ∧
        exec q.instr s = .next u₁ ∧ exec p.instr u₁ = .next u₂ ∧ t₂.fb = u₂.fb) ∧
    ∀ p : DrawPoint, ∃ t u, exec p.instr s = .next t ∧ exec p.instr t = .next u ∧ u.fb = t.fb

/-- R105, R86: a DRAW batch is its requests in list order; when they have all run, every pixel of
the canvas has the colour of its last element in the batch, or its old one. -/
def Obligations.DrawBatchAppliesEveryPixel : Prop :=
  ∀ (ps : List DrawPoint) (ws : List Request) (s : State), s.cfg.wf = true → s.seq = .idle →
    s.panelIn = [] → s.requests = drawRequests ps ++ ws →
    ∃ t, Sys2Proof.core.run ps.length s = .next t ∧ t.requests = ws ∧ t.trace = s.trace ∧
      t.seq = .idle ∧ (ps ≠ [] → t.resp = ⟨0x00, 0⟩) ∧ t.dstate = s.dstate ∧ t.rst = s.rst ∧
      t.panel = s.panel ∧
      ∀ u v, u < s.cfg.geom.width.toNat → v < s.cfg.geom.height.toNat →
        pixelAt t.fb s.cfg.geom.width.toNat u v =
          ((ps.filter fun p => p.x.toNat == u && p.y.toNat == v).getLast?.map DrawPoint.on).getD
            (pixelAt s.fb s.cfg.geom.width.toNat u v)

/-! ## Addressing and flush -/

/-- R110: above 127 nothing; else the lower then the higher column command (order and grouping D3, D2:
assumption 10; no offset added, D25: assumption 11), each failure ending the operation with
`DisplayTransportError` and, by R147 and D17 (assumption 22), `dstate = Unpowered`. -/
def Obligations.SetColumnAddressResult : Prop :=
  (∀ (c : Word) (s : State), s.cfg.wf = true → s.seq = .idle →
    (127 < c.toNat → exec (.setColumnAddress c) s =
      .next { s with opc := 0x05, A := c, B := 0, resp := ⟨0x00, 0⟩ }) ∧
    (c.toNat ≤ 127 →
      let lower : Event := .busCmd [s.cfg.ops.setLowerColumn.value ||| BitVec.ofNat 8 (c.toNat % 16)]
      let higher : Event := .busCmd [s.cfg.ops.setHigherColumn.value ||| BitVec.ofNat 8 (c.toNat / 16)]
      (∀ rest, s.env = .ok :: .ok :: rest → ∃ p, exec (.setColumnAddress c) s = .next { s with
        opc := 0x05, A := c, B := 0, resp := ⟨0x00, 0⟩, env := rest
        trace := s.trace ++ [(lower, .ok), (higher, .ok)], panel := p }) ∧
      (∀ v rest, s.env = .fail v :: rest → ∃ p, exec (.setColumnAddress c) s = .next { s with
        opc := 0x05, A := c, B := 0, resp := ⟨0x01, 0⟩, dstate := .unpowered, env := rest
        trace := s.trace ++ [(lower, .fail)], panel := p }) ∧
      (∀ v rest, s.env = .ok :: .fail v :: rest → ∃ p, exec (.setColumnAddress c) s = .next { s with
        opc := 0x05, A := c, B := 0, resp := ⟨0x01, 0⟩, dstate := .unpowered, env := rest
        trace := s.trace ++ [(lower, .ok), (higher, .fail)], panel := p }))) ∧
  ∀ c : Word, decodeRequest (requestOf 0x05 c 0) = some (.setColumnAddress c)

/-- R111: above 7 nothing; else one page command (one event, D2: assumption 10), whose failure leaves
`dstate = Unpowered` by R147 and D17 (assumption 22). -/
def Obligations.SetPageResult : Prop :=
  (∀ (p : Word) (s : State), s.cfg.wf = true → s.seq = .idle →
    (7 < p.toNat → exec (.setPage p) s =
      .next { s with opc := 0x06, A := p, B := 0, resp := ⟨0x00, 0⟩ }) ∧
    (p.toNat ≤ 7 →
      let page : Event := .busCmd [s.cfg.ops.setPageAddress.value ||| BitVec.ofNat 8 p.toNat]
      (∀ rest, s.env = .ok :: rest → ∃ q, exec (.setPage p) s = .next { s with
        opc := 0x06, A := p, B := 0, resp := ⟨0x00, 0⟩, env := rest
        trace := s.trace ++ [(page, .ok)], panel := q }) ∧
      (∀ v rest, s.env = .fail v :: rest → ∃ q, exec (.setPage p) s = .next { s with
        opc := 0x06, A := p, B := 0, resp := ⟨0x01, 0⟩, dstate := .unpowered, env := rest
        trace := s.trace ++ [(page, .fail)], panel := q }))) ∧
  ∀ p : Word, decodeRequest (requestOf 0x06 p 0) = some (.setPage p)

/-- R113, whole: FLUSH emits exactly `flush_events(cfg, FB)`, or its first `k + 1` events when
position `k` fails; the list has `4 * pages` events, `3 * pages` command bytes and `bufferSize` data
bytes. Its order and grouping are D3 and D2 (assumption 10); `dstate` after a failure is R147's by D17
(assumption 22). -/
def Obligations.FlushEmitsItsEventList : Prop :=
  ∀ s : State, s.cfg.wf = true → s.seq = .idle →
    let es := flushEventList s.cfg s.fb
    es.length = 4 * s.cfg.geom.pages ∧
    (es.flatMap Event.commandBytes).length = 3 * s.cfg.geom.pages ∧
    (es.flatMap Event.dataBytes).length = s.cfg.geom.bufferSize ∧
    (∀ rest, s.env = List.replicate es.length .ok ++ rest → ∃ p, exec .flush s = .next { s with
      opc := 0x04, A := 0, B := 0, resp := ⟨0x00, 0⟩, env := rest
      trace := s.trace ++ allOk es, panel := p }) ∧
    ∀ k ev v rest, es[k]? = some ev → s.env = List.replicate k .ok ++ .fail v :: rest →
      ∃ p, exec .flush s = .next { s with
        opc := 0x04, A := 0, B := 0, resp := ⟨0x01, 0⟩, dstate := .unpowered, env := rest
        trace := s.trace ++ allOk (es.take k) ++ [(ev, .fail)], panel := p }

/-! ## Hard reset and initialisation -/

/-- R120, and R121 by the spec's own decision D5 (assumption 22): with every event answered `ok`, the
six events in order, the line high and `dstate = Reset`. The waits, 2 ms at the end among them, are the
spec's own decision D4 (C2, C3; assumption 12). -/
def Obligations.HardResetPulsesTheLine : Prop :=
  ∀ s : State, s.cfg.wf = true → s.seq = .idle →
    ∀ rest, s.env = List.replicate 6 .ok ++ rest → ∃ p, exec .hardReset s = .next { s with
      opc := 0x01, A := 0, B := 0, resp := ⟨0x00, 0⟩, env := rest, rst := .high, dstate := .reset
      trace := s.trace ++
        [(.pinHigh, .ok), (.delayMs 1, .ok), (.pinLow, .ok), (.delayUs s.cfg.tRstLowUs, .ok),
         (.pinHigh, .ok), (.delayMs 2, .ok)]
      panel := p }

/-- R120, R147, R180: HARD_RESET's first failing pin event ends it with `Pin(e)`, `e` cut to
`PINERR_W` bits; `rst` keeps the last level driven, so a failed release leaves it low. `dstate` is
R147's by D17 (assumption 22), the waits D4 (assumption 12). -/
def Obligations.HardResetPinFailure : Prop :=
  ∀ (s : State) (v : Word) (rest : List EnvAnswer), s.cfg.wf = true → s.seq = .idle →
    s.cfg.pinPresent = true →
    let e : Word := BitVec.ofNat 32 (v.toNat % 2 ^ s.cfg.pinErrW)
    (s.env = .fail v :: rest → ∃ p, exec .hardReset s = .next { s with
      opc := 0x01, A := 0, B := 0, resp := ⟨0x02, e⟩, env := rest, dstate := .unpowered
      trace := s.trace ++ [(.pinHigh, .failPin e)], panel := p }) ∧
    (s.env = .ok :: .ok :: .fail v :: rest → ∃ p, exec .hardReset s = .next { s with
      opc := 0x01, A := 0, B := 0, resp := ⟨0x02, e⟩, env := rest, dstate := .unpowered, rst := .high
      trace := s.trace ++ [(.pinHigh, .ok), (.delayMs 1, .ok), (.pinLow, .failPin e)]
      panel := p }) ∧
    (s.env = .ok :: .ok :: .ok :: .ok :: .fail v :: rest → ∃ p, exec .hardReset s = .next { s with
      opc := 0x01, A := 0, B := 0, resp := ⟨0x02, e⟩, env := rest, dstate := .unpowered, rst := .low
      trace := s.trace ++ [(.pinHigh, .ok), (.delayMs 1, .ok), (.pinLow, .ok),
        (.delayUs s.cfg.tRstLowUs, .ok), (.pinHigh, .failPin e)]
      panel := p })

/-- R11, R120: without a wired reset line HARD_RESET always ends with `OK`, whatever the environment
answers, and emits the same six events (their waits D4, assumption 12); `dstate = Reset` by D5 (assumption 22). An answer that has not
come makes a pin event wait here too (assumption 28). -/
def Obligations.HardResetWithoutPinSucceeds : Prop :=
  ∀ (s : State) (answers rest : List EnvAnswer), s.cfg.wf = true → s.seq = .idle →
    s.cfg.pinPresent = false → answers.length = 6 → .pending ∉ answers →
    s.env = answers ++ rest → ∃ p, exec .hardReset s = .next { s with
      opc := 0x01, A := 0, B := 0, resp := ⟨0x00, 0⟩, env := rest, rst := .high, dstate := .reset
      trace := s.trace ++ allOk (hardResetEventList s.cfg), panel := p }

/-- R124 and the end state of R123: INIT answered `ok` throughout emits exactly `init_events(cfg)`,
whatever `FB` and `dstate` were, and ends with `FB` zero, the line high and `dstate = Displaying` (D5;
assumption 22). In that list the grouping of command bytes and the order of the column commands are D2
and D3 (assumption 10), the waits D4 (assumption 12). -/
def Obligations.InitEmitsItsEventList : Prop :=
  ∀ s : State, s.cfg.wf = true → s.seq = .idle →
    (initEventList s.cfg).length = 6 + 13 + 4 * s.cfg.geom.pages + 3 ∧
    ∀ rest, s.env = List.replicate (initEventList s.cfg).length .ok ++ rest →
      ∃ fb p, exec .init s = .next { s with
        opc := 0x02, A := 0, B := 0, resp := ⟨0x00, 0⟩, env := rest, rst := .high
        dstate := .displaying, fb := fb, trace := s.trace ++ allOk (initEventList s.cfg)
        panel := p } ∧ ∀ a, fb.read a = 0x00

/-- R122, R124, R147: INIT's first failure at position `k` ends it there; `FB` is as it was up to
position 18 and zero from 19 on, and `rst` keeps the last level driven. `dstate` is R147's by D17
(assumption 22); in the events emitted, grouping and column order are D2 and D3 (assumption 10), the
waits D4 (assumption 12). -/
def Obligations.InitFirstFailure : Prop :=
  ∀ (s : State) (k : Nat) (ev : Event) (v : Word) (rest : List EnvAnswer),
    s.cfg.wf = true → s.seq = .idle → (initEventList s.cfg)[k]? = some ev →
    (6 ≤ k ∨ (k = 0 ∨ k = 2 ∨ k = 4) ∧ s.cfg.pinPresent = true) →
    s.env = List.replicate k .ok ++ .fail v :: rest →
    let e : Word := BitVec.ofNat 32 (v.toNat % 2 ^ s.cfg.pinErrW)
    ∃ fb p, exec .init s = .next { s with
      opc := 0x02, A := 0, B := 0, env := rest, dstate := .unpowered, fb := fb, panel := p
      resp := if 6 ≤ k then ⟨0x01, 0⟩ else ⟨0x02, e⟩
      rst := if k = 0 then s.rst else if k = 4 then .low else .high
      trace := s.trace ++ allOk ((initEventList s.cfg).take k) ++
        [(ev, if 6 ≤ k then .fail else .failPin e)] } ∧
      (k ≤ 18 → fb = s.fb) ∧ (19 ≤ k → ∀ a, fb.read a = 0x00)

/-- R123, R24: an INIT whose event `k` is not answered yet stands at `Busy(k)`, with `dstate` where
R123 puts it (the spec's own decision D5; assumption 22) and `FB` cleared from event 19 on. That the
step takes the pending entry off `env` is the model's choice (assumption 5); in the events emitted,
grouping and column order are D2 and D3 (assumption 10), the waits D4 (assumption 12). -/
def Obligations.InitWaitsAtEachEvent : Prop :=
  ∀ (s : State) (k : Nat) (rest : List EnvAnswer), s.cfg.wf = true → s.seq = .idle →
    k < (initEventList s.cfg).length → s.env = List.replicate k .ok ++ .pending :: rest →
    ∃ t, exec .init s = .next t ∧ t.seq = .busy k ∧ t.env = rest ∧ t.resp = s.resp ∧
      t.trace = s.trace ++ allOk ((initEventList s.cfg).take k) ∧
      t.dstate = (if k ≤ 5 then s.dstate else if k = 6 then .reset else .initializing) ∧
      (k ≤ 18 → t.fb = s.fb) ∧ (19 ≤ k → ∀ a, t.fb.read a = 0x00)

/-- R125, whole, for every answer the environment may give: a successful INIT emits exactly
`init_events(cfg)`, so no step is reordered, merged or dropped; every data burst in it is zeros and
comes before display-on, which is last; display-off is the first command, at position 6; and nothing
is sent before the last delay of the pulse. The exact list is R124's, a derivation of the spec; its
grouping and column order are D2 and D3 (assumption 10), its waits D4 (assumption 12). -/
def Obligations.InitOrderIsKept : Prop :=
  ∀ s t : State, s.cfg.wf = true → s.seq = .idle → exec .init s = .next t → t.seq = .idle →
    t.resp.status = 0x00 →
    t.trace = s.trace ++ allOk (initEventList s.cfg) ∧
    ∃ es : List Event, initEventList s.cfg = es ++ [.busCmd [s.cfg.ops.displayOn.value]] ∧
      (∀ bs, .busData bs ∈ es → ∀ b ∈ bs, b = 0x00) ∧
      (s.cfg.ops.distinct = true → .busCmd [s.cfg.ops.displayOn.value] ∉ es) ∧
      es[5]? = some (.delayMs 2) ∧ es[6]? = some (.busCmd [s.cfg.ops.displayOff.value]) ∧
      ∀ ev ∈ es.take 6, ev.commandBytes = [] ∧ ev.dataBytes = []

/-! ## Breathing light -/

/-- R130: outside 1..8 frames nothing; else one two-byte command with the parameter
`on * 128 + sel * 8 + (frames - 1)`, whose selector field is placed by C1's resolution (assumption
25), and whose failure leaves `dstate = Unpowered` by R147 and D17 (assumption 22). -/
def Obligations.SetBreathingEffectResult : Prop :=
  (∀ (on : Bool) (sel : BitVec 2) (frames : Byte) (s : State), s.cfg.wf = true → s.seq = .idle →
    let a : Word := BitVec.ofNat 32 on.toNat
    let b : Word := BitVec.ofNat 32 (sel.toNat * 256 + frames.toNat)
    ((frames.toNat = 0 ∨ 8 < frames.toNat) → exec (.setBreathingEffect on sel frames) s =
      .next { s with opc := 0x07, A := a, B := b, resp := ⟨0x00, 0⟩ }) ∧
    ((1 ≤ frames.toNat ∧ frames.toNat ≤ 8) →
      let light : Event := .busCmd [s.cfg.ops.setBreathingLight.value,
        BitVec.ofNat 8 (on.toNat * 128 + sel.toNat * 8 + (frames.toNat - 1))]
      (∀ rest, s.env = .ok :: rest → ∃ p, exec (.setBreathingEffect on sel frames) s = .next { s with
        opc := 0x07, A := a, B := b, resp := ⟨0x00, 0⟩, env := rest
        trace := s.trace ++ [(light, .ok)], panel := p }) ∧
      (∀ v rest, s.env = .fail v :: rest →
        ∃ p, exec (.setBreathingEffect on sel frames) s = .next { s with
          opc := 0x07, A := a, B := b, resp := ⟨0x01, 0⟩, dstate := .unpowered, env := rest
          trace := s.trace ++ [(light, .fail)], panel := p }))) ∧
  ∀ (on : Bool) (sel : BitVec 2) (frames : Byte),
    decodeRequest (requestOf 0x07 (BitVec.ofNat 32 on.toNat)
      (BitVec.ofNat 32 (sel.toNat * 256 + frames.toNat))) = some (.setBreathingEffect on sel frames)

/-! ## Errors -/

/-- R141: which operation can end with which error. -/
def Obligations.ErrorsByOperation : Prop :=
  ∀ (i : Instr) (s t : State), (encodeRequest i).isSome = true → exec i s = .next t → t.seq = .idle →
    (t.resp.status = 0x00 ∨ t.resp.status = 0x01 ∨ t.resp.status = 0x02) ∧
    (t.resp.status = 0x01 → i = .init ∨ i = .flush ∨ (∃ c, i = .setColumnAddress c) ∨
      (∃ p, i = .setPage p) ∨ ∃ on sel frames, i = .setBreathingEffect on sel frames) ∧
    (t.resp.status = 0x02 → (i = .hardReset ∨ i = .init) ∧ s.cfg.pinPresent = true)

/-- R15, R145, R146: an operation that ended emitted events all answered `ok`, and after them, if
and only if it ended with an error, exactly one that failed. -/
def Obligations.AbortIsPrecise : Prop :=
  ∀ (i : Instr) (s t : State), (encodeRequest i).isSome = true → exec i s = .next t → t.seq = .idle →
    (t.resp.status = 0x00 → ∃ es, t.trace = s.trace ++ allOk es) ∧
    (t.resp.status ≠ 0x00 → ∃ es ev ans, t.trace = s.trace ++ allOk es ++ [(ev, ans)] ∧
      (ans = .fail ∧ t.resp = ⟨0x01, 0⟩ ∨ ∃ e, ans = .failPin e ∧ t.resp = ⟨0x02, e⟩))

/-- R147 (`dstate` by the spec's own decision D17; assumption 22), R148: after an error `dstate` is
`Unpowered`, `FB` is as it was (or all zero, in an INIT
past its CLEAR), the panel is in an unknown state, and nothing is saved elsewhere. -/
def Obligations.ErrorLeavesUnpowered : Prop :=
  ∀ (i : Instr) (s t : State), (encodeRequest i).isSome = true → exec i s = .next t → t.seq = .idle →
    t.resp.status ≠ 0x00 →
    t.dstate = .unpowered ∧ (t.fb = s.fb ∨ i = .init ∧ ∀ a, t.fb.read a = 0x00) ∧
    t.panel.lost = true ∧ t.cfg = s.cfg ∧ t.requests = s.requests ∧ t.panelIn = s.panelIn

/-! ## The panel controller -/

/-- R58: the page and column pointer commands, in a known state (the device model, assumption 14). That
either column command brings back a pointer that has passed column 127 (`cpPast := false`) is the
model's own choice (assumption 18). -/
def Obligations.PanelPointerCommands : Prop :=
  ∀ (v : Byte) (s : State), s.panel.lost = false →
    (∃ r, exec (.opSetPageAddress v) s = .next { s with panel := { s.panel with regs := r } } ∧
      r.pp.toNat = v.toNat % 8 ∧ r = { s.panel.regs with pp := r.pp }) ∧
    (∃ r, exec (.opSetLowerColumn v) s = .next { s with panel := { s.panel with regs := r } } ∧
      r.cp.toNat = s.panel.regs.cp.toNat / 16 * 16 + v.toNat % 16 ∧
      r = { s.panel.regs with cp := r.cp, cpPast := false }) ∧
    (∃ r, exec (.opSetHigherColumn v) s = .next { s with panel := { s.panel with regs := r } } ∧
      r.cp.toNat = v.toNat % 8 * 16 + s.panel.regs.cp.toNat % 16 ∧
      r = { s.panel.regs with cp := r.cp, cpPast := false })

/-- R30, R82: the seventeen setting commands, in a known state, each write their own setting and
nothing else (the device model, assumption 15). -/
def Obligations.PanelSettingCommands : Prop :=
  ∀ (v : Byte) (s : State), s.panel.lost = false →
    let set := fun r : PanelRegs =>
      (Host.Outcome.next { s with panel := { s.panel with regs := r } } :
        Host.Outcome State Fault Refusal)
    let r := s.panel.regs
    exec .opDisplayOff s = set { r with displayOn := false } ∧
    exec .opDisplayOn s = set { r with displayOn := true } ∧
    exec (.opSetClockDiv v) s = set { r with clockDiv := v } ∧
    exec (.opSetMultiplex v) s = set { r with multiplex := v } ∧
    exec (.opSetDisplayOffset v) s = set { r with displayOffset := v } ∧
    exec (.opSetStartLine v) s = set { r with startLine := v } ∧
    exec (.opSetDcdc v) s = set { r with dcdc := v } ∧
    exec (.opSetPumpVoltage v) s = set { r with pumpVoltage := v } ∧
    exec .opSegRemapReversed s = set { r with segRemapReversed := true } ∧
    exec .opComScanReversed s = set { r with comScanReversed := true } ∧
    exec (.opSegPadsConfig v) s = set { r with segPads := v } ∧
    exec (.opSetContrast v) s = set { r with contrast := v } ∧
    exec (.opSetPrecharge v) s = set { r with precharge := v } ∧
    exec (.opSetVcomDeselect v) s = set { r with vcom := v } ∧
    exec .opResumeFromRam s = set { r with fromRam := true } ∧
    exec .opNormalDisplay s = set { r with normal := true } ∧
    exec (.opSetBreathingLight v) s = set { r with breathing := v }

/-- R148, U8, under the device model (assumptions 14 and 19): a command to a panel in an unknown state
leaves nothing of it known (no RAM cell, and every pointer and setting drawn anew, whatever the command
was), and no command touches the block. -/
def Obligations.PanelCommandInUnknownState : Prop :=
  ∀ (i : Instr) (s : State), encodeRequest i = none →
    ∃ p, exec i s = .next { s with panel := p } ∧ p.lost = s.panel.lost ∧
      (s.panel.lost = true → p.regs = PanelRegs.free s.panel.draws ∧
        ∀ page col, p.known page col = none) ∧
      (s.panel.lost = false → p.ram = s.panel.ram)

/-- R58, under the device model (assumptions 14, 15, 18, 27): with every event answered `ok` and the
panel in a known state, SET_COLUMN_ADDRESS leaves its column pointer at the operand, SET_PAGE its page
pointer and SET_BREATHING_EFFECT its breathing setting, and nothing else of the panel changes. That the
column operand is a panel column, with no offset added, is D25 (C7; assumption 11); the selector's
place in the breathing parameter is C1's resolution (assumption 25). -/
def Obligations.CommandsReachThePanel : Prop :=
  ∀ (s : State) (rest : List EnvAnswer), s.cfg.wf = true → s.seq = .idle → s.panel.lost = false →
    (∀ c : Word, c.toNat ≤ 127 → s.env = .ok :: .ok :: rest →
      ∃ t, exec (.setColumnAddress c) s = .next t ∧ t.resp = ⟨0x00, 0⟩ ∧ t.panel = { s.panel with
        regs := { s.panel.regs with cp := BitVec.ofNat 7 c.toNat, cpPast := false } }) ∧
    (∀ p : Word, p.toNat ≤ 7 → s.env = .ok :: rest →
      ∃ t, exec (.setPage p) s = .next t ∧ t.resp = ⟨0x00, 0⟩ ∧ t.panel = { s.panel with
        regs := { s.panel.regs with pp := BitVec.ofNat 3 p.toNat } }) ∧
    ∀ (on : Bool) (sel : BitVec 2) (frames : Byte), 1 ≤ frames.toNat → frames.toNat ≤ 8 →
      s.env = .ok :: rest →
      ∃ t, exec (.setBreathingEffect on sel frames) s = .next t ∧ t.resp = ⟨0x00, 0⟩ ∧
        t.panel = { s.panel with regs := { s.panel.regs with
          breathing := BitVec.ofNat 8 (on.toNat * 128 + sel.toNat * 8 + (frames.toNat - 1)) } }

/-- R57, R51, under the device model of R58 (assumptions 14, 27): after a FLUSH that responds `OK` the panel
RAM window equals `FB`, and every cell outside the window is as it was. To a panel in an unknown state
FLUSH sends the same and responds `OK`, and nothing is known of the panel's RAM (R148; assumption 19). -/
def Obligations.FlushMirrorsFramebuffer : Prop :=
  ∀ (s : State) (rest : List EnvAnswer), s.cfg.wf = true → s.seq = .idle →
    s.env = List.replicate (4 * s.cfg.geom.pages) .ok ++ rest →
    ∃ t, exec .flush s = .next t ∧ t.resp = ⟨0x00, 0⟩ ∧ t.fb = s.fb ∧
      t.panel.lost = s.panel.lost ∧
      (s.panel.lost = false →
        (∀ pg c, pg < s.cfg.geom.pages → c < s.cfg.geom.width.toNat →
          t.panel.known pg (s.cfg.geom.offsetX.toNat + c) =
            some (s.fb.read (pg * s.cfg.geom.width.toNat + c))) ∧
        ∀ pg col, pg < 8 → col < 128 →
          ¬(pg < s.cfg.geom.pages ∧ s.cfg.geom.offsetX.toNat ≤ col ∧
            col < s.cfg.geom.offsetX.toNat + s.cfg.geom.width.toNat) →
          t.panel.known pg col = s.panel.known pg col) ∧
      (s.panel.lost = true → ∀ pg col, t.panel.known pg col = none)

/-- R123, R149, R51, under the device model (assumptions 14, 15, 19, 27): a successful INIT blanks the
window, leaves the display on, normal and showing its RAM, and, where a reset line is wired, does so
from any state and leaves nothing known outside the window. That a whole pulse ends the unknown state
and forgets the RAM is assumption 17; `dstate = Displaying` is D5 (assumption 22). -/
def Obligations.InitBlanksThePanel : Prop :=
  ∀ (s : State) (rest : List EnvAnswer), s.cfg.wf = true → s.seq = .idle →
    (s.cfg.pinPresent = true ∨ s.panel.lost = false) →
    s.env = List.replicate (6 + 13 + 4 * s.cfg.geom.pages + 3) .ok ++ rest →
    ∃ t, exec .init s = .next t ∧ t.resp = ⟨0x00, 0⟩ ∧ t.dstate = .displaying ∧
      t.panel.lost = false ∧ t.panel.regs.displayOn = true ∧ t.panel.regs.normal = true ∧
      t.panel.regs.fromRam = true ∧
      (∀ pg c, pg < s.cfg.geom.pages → c < s.cfg.geom.width.toNat →
        t.panel.known pg (s.cfg.geom.offsetX.toNat + c) = some 0x00) ∧
      ∀ pg col, pg < 8 → col < 128 →
        ¬(pg < s.cfg.geom.pages ∧ s.cfg.geom.offsetX.toNat ≤ col ∧
          col < s.cfg.geom.offsetX.toNat + s.cfg.geom.width.toNat) →
        t.panel.known pg col =
          if s.cfg.pinPresent = true then none else s.panel.known pg col

/-! ## Steps -/

/-- A step of an idle block runs the instruction its oldest request decodes to. -/
def Obligations.StepRunsDecodedRequest : Prop :=
  ∀ (s : State) (w : Request) (ws : List Request) (i : Instr), s.cfg.wf = true → s.panelIn = [] →
    s.seq = .idle → s.requests = w :: ws → decodeRequest w = some i →
    step s = exec i { s with requests := ws }

/-- A step runs the command at the panel controller's input, and takes its bytes (the input is the
model's own, assumption 13). -/
def Obligations.StepRunsPanelCommand : Prop :=
  ∀ (s : State) (i : Instr) (rest : List Byte), s.cfg.wf = true → s.panelIn ≠ [] →
    decodeCommand s.cfg.ops s.panelIn = some (i, rest) →
    step s = exec i { s with panelIn := rest }

/-- A step runs the instruction that `withFetchWord` placed (assumption 20). -/
def Obligations.PlacedInstructionRunsNext : Prop :=
  ∀ (s : State) (n w : Nat) (i : Instr), s.cfg.wf = true →
    (16 < n → decodeRequest (BitVec.ofNat 72 w) = some i →
      step (s.withFetchWord n w) = exec i { s with seq := .idle, panelIn := [] }) ∧
    (n ≤ 16 → ∀ rest, decodeCommand s.cfg.ops (commandBytes w) = some (i, rest) →
      step (s.withFetchWord n w) = exec i s)

/-- R24, R25, R155: whatever the environment answers, a host operation started on an idle block
answers a next state; its request is in the latches; it has ended or waits at one of its events; and
what it does not write is as it was. -/
def Obligations.HostOperationFrame : Prop :=
  ∀ (i : Instr) (s : State), (encodeRequest i).isSome = true → s.cfg.wf = true → s.seq = .idle →
    ∃ t, exec i s = .next t ∧ t.latched = some i ∧
      t.cfg = s.cfg ∧ t.requests = s.requests ∧ t.panelIn = s.panelIn ∧ s.trace <+: t.trace ∧
      (t.seq = .idle ∨ ∃ k, t.seq = .busy k ∧ k < (operationEvents s.cfg i).length ∧
        t.resp = s.resp) ∧
      (i ≠ .init → i ≠ .clear → (∀ x y, i ≠ .setPixelOn x y) → (∀ x y, i ≠ .setPixelOff x y) →
        t.fb = s.fb) ∧
      (i ≠ .hardReset → i ≠ .init → t.rst = s.rst ∧
        (t.dstate = s.dstate ∨ t.dstate = .unpowered ∧ t.resp.status = 0x01)) ∧
      (operationEvents s.cfg i = [] → t.seq = .idle ∧ t.trace = s.trace ∧ t.env = s.env ∧
        t.draws = s.draws ∧ t.panel = s.panel ∧ t.dstate = s.dstate)

/-- R74, whole (the spec's own decision D12): a request is refused exactly when its code is unassigned
or a reserved operand bit is set; an idle block offered one refuses it (how it does: assumption 21). -/
def Obligations.ReservedRequestsAreRefused : Prop :=
  (∀ w : Request, decodeRequest w = none ↔
    let op := w.toNat / 2 ^ 64
    let a := w.toNat / 2 ^ 32 % 2 ^ 32
    let b := w.toNat % 2 ^ 32
    (op ∉ [1, 2, 3, 4, 5, 6, 7, 8, 16, 17]) ∨ (op ∈ [1, 2, 3, 4, 8] ∧ (a ≠ 0 ∨ b ≠ 0)) ∨
    (op ∈ [5, 6] ∧ b ≠ 0) ∨ (op = 7 ∧ (a / 2 ≠ 0 ∨ b / 2 ^ 10 ≠ 0))) ∧
  ∀ (s : State) (w : Request) (ws : List Request), s.cfg.wf = true → s.panelIn = [] →
    s.seq = .idle → s.requests = w :: ws → decodeRequest w = none →
    step s = .refused (.reservedRequest w)

/-- R155 (the spec's own decision D14): while an operation is in progress no request is taken and no
operation starts (the refusal of one asked for directly: assumption 21). -/
def Obligations.BusyHoldsRequests : Prop :=
  ∀ (s : State) (k : Nat), s.cfg.wf = true → s.seq = .busy k →
    (∀ i, (encodeRequest i).isSome = true → exec i s = .refused .busy) ∧
    (s.panelIn = [] → ∀ t, step s = .next t →
      t.requests = s.requests ∧ t.opc = s.opc ∧ t.A = s.A ∧ t.B = s.B)

/-- R183: an event that is not answered leaves everything as it is but the environment's input,
where each step takes one entry off the list (the model's choice, assumption 5). -/
def Obligations.UnansweredEventWaits : Prop :=
  ∀ (s : State) (k : Nat) (rest : List EnvAnswer), s.Inv → s.panelIn = [] → s.seq = .busy k →
    s.env = .pending :: rest → step s = .next { s with env := rest }

/-- R24, R183, D23: an operation that had to wait goes on as if it had not: after waiting at any
event, the rest of it is what it would have been with the later answers at once. That waiting takes one
pending entry off `env` is the model's choice (assumption 5). -/
def Obligations.SuspendedOperationResumes : Prop :=
  ∀ (i : Instr) (s : State) (k : Nat) (later : List EnvAnswer), s.cfg.wf = true → s.seq = .idle →
    s.panelIn = [] → k < (operationEvents s.cfg i).length →
    ∃ t, exec i { s with env := List.replicate k .ok ++ .pending :: later } = .next t ∧
      t.seq = .busy k ∧
      ∀ answers, step { t with env := answers } =
        exec i { s with env := List.replicate k .ok ++ answers }

/-- R31, R144: an idle block with nothing presented does nothing (its step is the model's, assumption
21). -/
def Obligations.IdleBlockDoesNothing : Prop :=
  ∀ s : State, s.cfg.wf = true → s.panelIn = [] → s.seq = .idle → s.requests = [] →
    step s = .next s

/-- R10, U1: an instance that fails `wf_cfg` never steps. `Config.wf` is R10 with R7's two fixed waits
and R73's bound on `PINERR_W` (assumption 6, DEDUCED) and the condition on the forms of the opcode map
(assumption 8), so some configurations that R10 alone admits are refused too. -/
def Obligations.IllFormedConfigIsRefused : Prop :=
  ∀ s : State, s.cfg.wf = false → step s = .refused .illFormedConfig ∧
    ∀ i, (encodeRequest i).isSome = true → exec i s = .refused .illFormedConfig

/-- R22, R23: `dstate` and `rst` gate nothing: with other values in them a step ends the same way
and leaves every other field the same. -/
def Obligations.DriverStateGatesNothing : Prop :=
  ∀ (s : State) (d : DriverState) (l : ResetLine),
    (∀ t, step s = .next t → ∃ d' l',
      step { s with dstate := d, rst := l } = .next { t with dstate := d', rst := l' }) ∧
    (∀ r, step s = .refused r → step { s with dstate := d, rst := l } = .refused r) ∧
    ∀ f, step s = .fault f → step { s with dstate := d, rst := l } = .fault f

/-- R14, R30: the bus is write-only: whatever the panel controller holds, the block's step leaves
every field of the block the same. -/
def Obligations.PanelNeverReachesBlock : Prop :=
  ∀ (s : State) (p : Panel),
    (∀ t, step s = .next t → ∃ p', step { s with panel := p } = .next { t with panel := p' }) ∧
    (∀ r, step s = .refused r → step { s with panel := p } = .refused r) ∧
    ∀ f, step s = .fault f → step { s with panel := p } = .fault f

/-! ## Encodings -/

/-- R70 to R72: the request word of every host operation decodes to it, and every word that decodes
is the word of its operation: no bit is dropped. -/
def Obligations.RequestRoundTrip : Prop :=
  ∀ (i : Instr) (w : Request), encodeRequest i = some w ↔ decodeRequest w = some i

/-- R76, R82, R84: under every well-formed opcode table whose rows do not overlap, the bytes of a
well-formed command decode to it and leave what follows them. Where rows do overlap, which R10 admits,
a shared byte is the first row that it opens, by the model's choice (assumption 27), and the round trip
fails for the later row. -/
def Obligations.CommandRoundTrip : Prop :=
  ∀ (t : OpTable) (i : Instr) (rest : List Byte), t.wf = true → t.distinct = true →
    i.wfIn t = true → encodeRequest i = none →
    decodeCommand t (encodeCommand t i ++ rest) = some (i, rest)

/-- A few words of spec/opcode_table.json, one of each format. -/
def Obligations.TableWordsDecode : Prop :=
  OpTable.default.wf = true ∧ OpTable.default.distinct = true ∧
  decodeTableWord 72 0x11_00000005_0000000A = some (.setPixelOn 5 10) ∧
  decodeTableWord 72 0x07_00000001_00000204 = some (.setBreathingEffect true 2 4) ∧
  decodeTableWord 72 0x05_00000014_00000000 = some (.setColumnAddress 20) ∧
  decodeTableWord 8 0b10110_101 = some (.opSetPageAddress 5) ∧
  decodeTableWord 8 0b10101110 = some .opDisplayOff ∧
  decodeTableWord 16 0b10010011_00100011 = some (.opSetBreathingLight 0b10010011)
end

