-- ==== Sys2Proof/Laws/Decode.lean ====
section
/-! SUPPORT. The fields of a request word, and the OR-combined argument of a command byte. -/

namespace Sys2Proof

@[simp] theorem requestOf_op (op : Byte) (a b : Word) : (requestOf op a b).op = op := by
  unfold requestOf Request.op
  ext i hi
  simp only [BitVec.getElem_extractLsb', BitVec.getLsbD_append]
  simp_all [show ¬ (64 + i < 32) by omega, show ¬ (64 + i - 32 < 32) by omega,
    show 64 + i - 32 - 32 = i by omega]

@[simp] theorem requestOf_a (op : Byte) (a b : Word) : (requestOf op a b).a = a := by
  unfold requestOf Request.a
  ext i hi
  simp only [BitVec.getElem_extractLsb', BitVec.getLsbD_append]
  simp_all [show ¬ (32 + i < 32) by omega]

@[simp] theorem requestOf_b (op : Byte) (a b : Word) : (requestOf op a b).b = b := by
  unfold requestOf Request.b
  ext i hi
  simp only [BitVec.getElem_extractLsb', BitVec.getLsbD_append]
  simp_all

/-- A request word is made of its three fields. -/
theorem requestOf_fields (w : Request) : requestOf w.op w.a w.b = w := by
  unfold requestOf Request.op Request.a Request.b
  ext i hi
  simp only [BitVec.getElem_append, BitVec.getElem_extractLsb']
  split
  · simp [BitVec.getLsbD_eq_getElem hi]
  · split
    · rw [show 32 + (i - 32) = i by omega, BitVec.getLsbD_eq_getElem hi]
    · rw [show 64 + (i - 32 - 32) = i by omega, BitVec.getLsbD_eq_getElem hi]

@[simp] theorem decodeRequest_requestOf (op : Byte) (a b : Word) :
    decodeRequest (requestOf op a b) = decodeFields op a b := by
  simp [decodeRequest]

@[simp] theorem acceptIf_true (i : Instr) : acceptIf true i = some i := rfl
@[simp] theorem acceptIf_false (i : Instr) : acceptIf false i = none := rfl

theorem breathingA_reserved (on : Bool) : (breathingA on).extractLsb' 1 31 = 0 := by
  cases on <;> decide

theorem breathingA_on (on : Bool) : (breathingA on)[0] = on := by
  cases on <;> decide

theorem breathingB_reserved (sel : BitVec 2) (frames : Byte) :
    (breathingB sel frames).extractLsb' 10 22 = 0 := by
  unfold breathingB
  ext i hi
  simp only [BitVec.getElem_extractLsb', BitVec.getLsbD_append]
  simp [show ¬ (10 + i < 8) by omega, show ¬ (10 + i - 8 < 2) by omega]

theorem breathingB_sel (sel : BitVec 2) (frames : Byte) :
    (breathingB sel frames).extractLsb' 8 2 = sel := by
  unfold breathingB
  ext i hi
  simp only [BitVec.getElem_extractLsb', BitVec.getLsbD_append]
  simp_all [show ¬ (8 + i < 8) by omega]

theorem breathingB_frames (sel : BitVec 2) (frames : Byte) :
    (breathingB sel frames).extractLsb' 0 8 = frames := by
  unfold breathingB
  ext i hi
  simp only [BitVec.getElem_extractLsb', BitVec.getLsbD_append]
  simp_all

/-- The fields of a breathing-light request decode to its operands. -/
theorem decodeFields_breathing (on : Bool) (sel : BitVec 2) (frames : Byte) :
    decodeFields Opcode.setBreathingEffect (breathingA on) (breathingB sel frames) =
      some (.setBreathingEffect on sel frames) := by
  simp [decodeFields, breathingA_reserved, breathingA_on, breathingB_reserved, breathingB_sel,
    breathingB_frames, Opcode.hardReset, Opcode.init, Opcode.clear, Opcode.flush,
    Opcode.setColumnAddress, Opcode.setPage, Opcode.setBreathingEffect]

@[simp] theorem decodeFields_hardReset : decodeFields Opcode.hardReset 0 0 = some .hardReset := by
  decide
@[simp] theorem decodeFields_init : decodeFields Opcode.init 0 0 = some .init := by decide
@[simp] theorem decodeFields_clear : decodeFields Opcode.clear 0 0 = some .clear := by decide
@[simp] theorem decodeFields_flush : decodeFields Opcode.flush 0 0 = some .flush := by decide
@[simp] theorem decodeFields_getDimensions :
    decodeFields Opcode.getDimensions 0 0 = some .getDimensions := by decide

@[simp] theorem decodeFields_setColumnAddress (c : Word) :
    decodeFields Opcode.setColumnAddress c 0 = some (.setColumnAddress c) := by
  simp [decodeFields, Opcode.hardReset, Opcode.init, Opcode.clear, Opcode.flush,
    Opcode.setColumnAddress]

@[simp] theorem decodeFields_setPage (p : Word) :
    decodeFields Opcode.setPage p 0 = some (.setPage p) := by
  simp [decodeFields, Opcode.hardReset, Opcode.init, Opcode.clear, Opcode.flush,
    Opcode.setColumnAddress, Opcode.setPage]

@[simp] theorem decodeFields_setPixelOff (x y : Word) :
    decodeFields Opcode.setPixelOff x y = some (.setPixelOff x y) := by
  simp [decodeFields, Opcode.hardReset, Opcode.init, Opcode.clear, Opcode.flush,
    Opcode.setColumnAddress, Opcode.setPage, Opcode.setBreathingEffect, Opcode.getDimensions,
    Opcode.setPixelOff]

@[simp] theorem decodeFields_setPixelOn (x y : Word) :
    decodeFields Opcode.setPixelOn x y = some (.setPixelOn x y) := by
  simp [decodeFields, Opcode.hardReset, Opcode.init, Opcode.clear, Opcode.flush,
    Opcode.setColumnAddress, Opcode.setPage, Opcode.setBreathingEffect, Opcode.getDimensions,
    Opcode.setPixelOff, Opcode.setPixelOn]

/-! ## Command bytes -/

@[simp] theorem fit_fit (f : Format) (v : Byte) : f.fit (f.fit v) = f.fit v := by
  cases f <;> simp [Format.fit]
  rename_i w
  apply BitVec.eq_of_toNat_eq
  simp only [BitVec.toNat_ofNat]
  have h1 : v.toNat % 2 ^ w < 256 := Nat.lt_of_le_of_lt (Nat.mod_le _ _) v.isLt
  rw [show (2 : Nat) ^ 8 = 256 from rfl, Nat.mod_eq_of_lt h1, Nat.mod_mod, Nat.mod_eq_of_lt h1]

/-- A form's part of a value fits the form. -/
theorem fits_fit (f : Format) (v : Byte) : f.fits (f.fit v) = true := by
  cases f <;> simp [Format.fit, Format.fits]
  exact Nat.lt_of_le_of_lt (Nat.mod_le _ _) (Nat.mod_lt _ (Nat.two_pow_pos _))

/-- A value that fits its form is carried whole. -/
theorem fit_eq_of_fits (f : Format) (v : Byte) (h : f.fits v = true) : f.fit v = v := by
  cases f <;> simp_all [Format.fit, Format.fits]
  apply BitVec.eq_of_toNat_eq
  simp [Nat.mod_eq_of_lt h]

/-- `op | arg` opens the row of `op`, for an aligned opcode and an argument that fits (R76). -/
theorem or_div_of_aligned (op v w : Nat) (ha : op % 2 ^ w = 0) (hv : v < 2 ^ w) :
    (op ||| v) / 2 ^ w = op / 2 ^ w := by
  have h : op = 2 ^ w * (op / 2 ^ w) := by
    have := Nat.div_add_mod op (2 ^ w); omega
  rw [h, ← Nat.two_pow_add_eq_or_of_lt hv, Nat.mul_add_div (Nat.two_pow_pos w),
    Nat.div_eq_of_lt hv, Nat.mul_div_cancel_left _ (Nat.two_pow_pos w), Nat.add_zero]

/-- The low bits of `op | arg` are `arg`, for an aligned opcode and an argument that fits (R76). -/
theorem or_mod_of_aligned (op v w : Nat) (ha : op % 2 ^ w = 0) (hv : v < 2 ^ w) :
    (op ||| v) % 2 ^ w = v := by
  have h : op = 2 ^ w * (op / 2 ^ w) := by
    have := Nat.div_add_mod op (2 ^ w); omega
  rw [h, ← Nat.two_pow_add_eq_or_of_lt hv, Nat.mul_add_mod, Nat.mod_eq_of_lt hv]

/-- The bytes of a well-formed command open its own row and give its operand back. -/
theorem assemble_opens (e : OpEntry) (v : Byte) (rest : List Byte) (ha : e.aligned = true)
    (hv : e.form.fits v = true) :
    ∃ b tail, e.assemble v ++ rest = b :: tail ∧ e.opens b = true ∧
      e.operand b tail = some (v, rest) := by
  obtain ⟨val, form⟩ := e
  cases form with
  | cf1 => simp_all [OpEntry.assemble, OpEntry.opens, OpEntry.operand, Format.fits]
  | cf2 => simp [OpEntry.assemble, OpEntry.opens, OpEntry.operand]
  | cf1a w =>
    simp only [OpEntry.aligned, Bool.and_eq_true, decide_eq_true_eq, beq_iff_eq, Format.fits] at ha hv
    have hf := fit_eq_of_fits (.cf1a w) v (by simp [Format.fits, hv])
    refine ⟨val ||| v, rest, by simp [OpEntry.assemble, hf], ?_, ?_⟩
    · simp [OpEntry.opens, BitVec.toNat_or, or_div_of_aligned _ _ _ ha.2 hv]
    · simp [OpEntry.operand, Format.fit, BitVec.toNat_or, or_mod_of_aligned _ _ _ ha.2 hv]

/-- The lengths of a command: 1 or 2 bytes, by its form alone (R84). -/
theorem assemble_length (e : OpEntry) (v : Byte) :
    (e.assemble v).length = if e.form = .cf2 then 2 else 1 := by
  obtain ⟨val, form⟩ := e
  cases form <;> simp [OpEntry.assemble]

theorem mem_all (n : OpName) : n ∈ OpName.all := by cases n <;> decide

theorem entry_wf (t : OpTable) (h : t.wf = true) (n : OpName) :
    (t.entry n).aligned = true ∧ ((t.entry n).form ≠ .cf1 ↔ n.valued = true) := by
  simp only [OpTable.wf, Bool.and_eq_true, List.all_eq_true] at h
  have := h.1.1.1.1 n (mem_all n)
  refine ⟨this.1, ?_⟩
  have h2 := this.2
  simp only [bne, beq_iff_eq] at h2
  cases hv : n.valued <;> simp_all

end Sys2Proof
end

