-- ==== Sys2Proof/Laws/Config.lean ====
section
/-! SUPPORT. What a well-formed configuration gives, and the bytes of the commands the operations
send under one. -/

namespace Sys2Proof

/-- The parts of `wf_cfg` (R10, R7, R73). -/
theorem Config.wf_parts {c : Config} (h : c.wf = true) :
    c.geom.wf = true ∧ c.ops.wf = true ∧ c.tRstPreMs = 1 ∧
    (c.tRstLowUs = 10 ∨ c.tRstLowUs = 50) ∧ c.tRstPostMs = 2 ∧ c.pinErrW ≤ 32 := by
  simp [Config.wf] at h; tauto

/-- R10 (1) to (5). -/
theorem Geometry.wf_parts {g : Geometry} (h : g.wf = true) :
    g.height.toNat % 8 = 0 ∧ 8 ≤ g.height.toNat ∧ g.height.toNat ≤ 64 ∧ 1 ≤ g.width.toNat ∧
    g.offsetX.toNat + g.width.toNat ≤ 128 ∧ g.bufferSize = g.width.toNat * g.height.toNat / 8 := by
  simp [Geometry.wf] at h; tauto

/-- The buffer is whole pages (R41). -/
theorem Geometry.pages_mul_width {g : Geometry} (h : g.wf = true) :
    g.pages * g.width.toNat = g.bufferSize := by
  have gf := Geometry.wf_parts h
  rw [Geometry.pages, gf.2.2.2.2.2]
  obtain ⟨k, hk⟩ := Nat.dvd_of_mod_eq_zero gf.1
  rw [hk, Nat.mul_div_cancel_left _ (by decide), Nat.mul_comm k, Nat.mul_left_comm,
    Nat.mul_div_cancel_left _ (by decide)]

/-- The forms a well-formed opcode table fixes (R76, R81). -/
theorem OpTable.wf_forms {t : OpTable} (h : t.wf = true) :
    t.setLowerColumn.form = .cf1a 4 ∧ t.setHigherColumn.form = .cf1a 4 ∧
    t.setPageAddress.form = .cf1a 3 ∧ t.setBreathingLight.form = .cf2 ∧
    t.displayOff.form = .cf1 ∧ t.displayOn.form = .cf1 ∧ t.segRemapReversed.form = .cf1 ∧
    t.comScanReversed.form = .cf1 ∧ t.resumeFromRam.form = .cf1 ∧ t.normalDisplay.form = .cf1 := by
  have hcf : ∀ n : OpName, n.valued = false → (t.entry n).form = .cf1 := by
    intro n hv
    have := (entry_wf t h n).2
    by_contra hc
    simp [hv] at this
    exact hc this
  have a := hcf .displayOff rfl
  have b := hcf .displayOn rfl
  have c := hcf .segRemapReversed rfl
  have d := hcf .comScanReversed rfl
  have e := hcf .resumeFromRam rfl
  have f := hcf .normalDisplay rfl
  simp [OpTable.wf] at h
  simp_all [OpTable.entry]

/-- Fitting a value to its row's form first changes no byte of the command (R81). -/
@[simp] theorem assemble_fit (e : OpEntry) (v : Byte) : e.assemble (e.form.fit v) = e.assemble v := by
  obtain ⟨val, f⟩ := e
  cases f with
  | cf1 => rfl
  | cf1a w => simp only [OpEntry.assemble, fit_fit]
  | cf2 => rfl

/-- The bytes of a row without a value. -/
theorem assemble_cf1 (e : OpEntry) (v : Byte) (h : e.form = .cf1) : e.assemble v = [e.value] := by
  simp [OpEntry.assemble, h]

/-- Every controller command has one or two bytes (R84). -/
theorem encodeCommand_length (t : OpTable) (i : Instr) (h : encodeRequest i = none) :
    (encodeCommand t i).length = 1 ∨ (encodeCommand t i).length = 2 := by
  cases i <;> simp [encodeRequest] at h <;>
    simp only [encodeCommand, Instr.opName?, assemble_length] <;> split <;> simp

/-- What decodes from a request word is a host operation. -/
theorem encodeRequest_isSome_of_decode (w : Request) (i : Instr) (h : decodeRequest w = some i) :
    (encodeRequest i).isSome = true := by
  have accept (c : Bool) (j : Instr) (hj : (encodeRequest j).isSome = true)
      (ha : acceptIf c j = some i) : (encodeRequest i).isSome = true := by
    cases c <;> simp at ha
    exact ha ▸ hj
  unfold decodeRequest decodeFields at h
  repeat' split at h
  all_goals first
    | exact accept _ _ rfl h
    | (cases h; rfl)
    | cases h

/-- What decodes from command bytes is a controller command. -/
theorem encodeRequest_none_of_decodeCommand (t : OpTable) (bs : List Byte) (i : Instr)
    (rest : List Byte) (h : decodeCommand t bs = some (i, rest)) : encodeRequest i = none := by
  cases bs with
  | nil => cases h
  | cons b bs =>
    simp only [decodeCommand] at h
    split at h
    · cases h
    · split at h
      · cases h
      · rename_i n _ _ v _ _
        simp at h
        rw [← h.1]
        cases n <;> rfl

end Sys2Proof
end

