-- ==== Sys2Proof/Laws/State.lean ====
section
/-! SUPPORT. One lemma per field of the state and per named update of it, so that no proof unfolds a
record update. -/

namespace Sys2Proof.Machine

/-! ## `State.accept` -/

@[simp] theorem accept_cfg (op : Byte) (a b : Word) (s : State) : (s.accept op a b).cfg = s.cfg := rfl
@[simp] theorem accept_fb (op : Byte) (a b : Word) (s : State) : (s.accept op a b).fb = s.fb := rfl
@[simp] theorem accept_dstate (op : Byte) (a b : Word) (s : State) : (s.accept op a b).dstate = s.dstate := rfl
@[simp] theorem accept_rst (op : Byte) (a b : Word) (s : State) : (s.accept op a b).rst = s.rst := rfl
@[simp] theorem accept_seq (op : Byte) (a b : Word) (s : State) : (s.accept op a b).seq = .busy 0 := rfl
@[simp] theorem accept_opc (op : Byte) (a b : Word) (s : State) : (s.accept op a b).opc = op := rfl
@[simp] theorem accept_A (op : Byte) (a b : Word) (s : State) : (s.accept op a b).A = a := rfl
@[simp] theorem accept_B (op : Byte) (a b : Word) (s : State) : (s.accept op a b).B = b := rfl
@[simp] theorem accept_resp (op : Byte) (a b : Word) (s : State) : (s.accept op a b).resp = s.resp := rfl
@[simp] theorem accept_trace (op : Byte) (a b : Word) (s : State) : (s.accept op a b).trace = s.trace := rfl
@[simp] theorem accept_requests (op : Byte) (a b : Word) (s : State) : (s.accept op a b).requests = s.requests := rfl
@[simp] theorem accept_env (op : Byte) (a b : Word) (s : State) : (s.accept op a b).env = s.env := rfl
@[simp] theorem accept_draws (op : Byte) (a b : Word) (s : State) : (s.accept op a b).draws = s.draws := rfl
@[simp] theorem accept_panelIn (op : Byte) (a b : Word) (s : State) : (s.accept op a b).panelIn = s.panelIn := rfl
@[simp] theorem accept_panel (op : Byte) (a b : Word) (s : State) : (s.accept op a b).panel = s.panel := rfl

/-! ## `State.respond` -/

@[simp] theorem respond_cfg (p : Word) (s : State) : (s.respond p).cfg = s.cfg := rfl
@[simp] theorem respond_fb (p : Word) (s : State) : (s.respond p).fb = s.fb := rfl
@[simp] theorem respond_dstate (p : Word) (s : State) : (s.respond p).dstate = s.dstate := rfl
@[simp] theorem respond_rst (p : Word) (s : State) : (s.respond p).rst = s.rst := rfl
@[simp] theorem respond_seq (p : Word) (s : State) : (s.respond p).seq = .idle := rfl
@[simp] theorem respond_opc (p : Word) (s : State) : (s.respond p).opc = s.opc := rfl
@[simp] theorem respond_A (p : Word) (s : State) : (s.respond p).A = s.A := rfl
@[simp] theorem respond_B (p : Word) (s : State) : (s.respond p).B = s.B := rfl
@[simp] theorem respond_resp (p : Word) (s : State) : (s.respond p).resp = ⟨statusOk, p⟩ := rfl
@[simp] theorem respond_trace (p : Word) (s : State) : (s.respond p).trace = s.trace := rfl
@[simp] theorem respond_requests (p : Word) (s : State) : (s.respond p).requests = s.requests := rfl
@[simp] theorem respond_env (p : Word) (s : State) : (s.respond p).env = s.env := rfl
@[simp] theorem respond_draws (p : Word) (s : State) : (s.respond p).draws = s.draws := rfl
@[simp] theorem respond_panelIn (p : Word) (s : State) : (s.respond p).panelIn = s.panelIn := rfl
@[simp] theorem respond_panel (p : Word) (s : State) : (s.respond p).panel = s.panel := rfl

/-! ## `State.raise` -/

@[simp] theorem raise_cfg (e : OpError) (s : State) : (s.raise e).cfg = s.cfg := rfl
@[simp] theorem raise_fb (e : OpError) (s : State) : (s.raise e).fb = s.fb := rfl
@[simp] theorem raise_dstate (e : OpError) (s : State) : (s.raise e).dstate = .unpowered := rfl
@[simp] theorem raise_rst (e : OpError) (s : State) : (s.raise e).rst = s.rst := rfl
@[simp] theorem raise_seq (e : OpError) (s : State) : (s.raise e).seq = .idle := rfl
@[simp] theorem raise_opc (e : OpError) (s : State) : (s.raise e).opc = s.opc := rfl
@[simp] theorem raise_A (e : OpError) (s : State) : (s.raise e).A = s.A := rfl
@[simp] theorem raise_B (e : OpError) (s : State) : (s.raise e).B = s.B := rfl
@[simp] theorem raise_resp (e : OpError) (s : State) : (s.raise e).resp = e.response := rfl
@[simp] theorem raise_trace (e : OpError) (s : State) : (s.raise e).trace = s.trace := rfl
@[simp] theorem raise_requests (e : OpError) (s : State) : (s.raise e).requests = s.requests := rfl
@[simp] theorem raise_env (e : OpError) (s : State) : (s.raise e).env = s.env := rfl
@[simp] theorem raise_draws (e : OpError) (s : State) : (s.raise e).draws = s.draws := rfl
@[simp] theorem raise_panelIn (e : OpError) (s : State) : (s.raise e).panelIn = s.panelIn := rfl
@[simp] theorem raise_panel (e : OpError) (s : State) : (s.raise e).panel = s.panel := rfl

/-! ## `State.clearFb` -/

@[simp] theorem clearFb_cfg (s : State) : (s.clearFb).cfg = s.cfg := rfl
@[simp] theorem clearFb_fb (s : State) : (s.clearFb).fb = [] := rfl
@[simp] theorem clearFb_dstate (s : State) : (s.clearFb).dstate = s.dstate := rfl
@[simp] theorem clearFb_rst (s : State) : (s.clearFb).rst = s.rst := rfl
@[simp] theorem clearFb_seq (s : State) : (s.clearFb).seq = s.seq := rfl
@[simp] theorem clearFb_opc (s : State) : (s.clearFb).opc = s.opc := rfl
@[simp] theorem clearFb_A (s : State) : (s.clearFb).A = s.A := rfl
@[simp] theorem clearFb_B (s : State) : (s.clearFb).B = s.B := rfl
@[simp] theorem clearFb_resp (s : State) : (s.clearFb).resp = s.resp := rfl
@[simp] theorem clearFb_trace (s : State) : (s.clearFb).trace = s.trace := rfl
@[simp] theorem clearFb_requests (s : State) : (s.clearFb).requests = s.requests := rfl
@[simp] theorem clearFb_env (s : State) : (s.clearFb).env = s.env := rfl
@[simp] theorem clearFb_draws (s : State) : (s.clearFb).draws = s.draws := rfl
@[simp] theorem clearFb_panelIn (s : State) : (s.clearFb).panelIn = s.panelIn := rfl
@[simp] theorem clearFb_panel (s : State) : (s.clearFb).panel = s.panel := rfl

/-! ## `State.paint` -/

@[simp] theorem paint_cfg (on : Bool) (x y : Word) (s : State) : (s.paint on x y).cfg = s.cfg := by unfold State.paint; split <;> rfl
@[simp] theorem paint_dstate (on : Bool) (x y : Word) (s : State) : (s.paint on x y).dstate = s.dstate := by unfold State.paint; split <;> rfl
@[simp] theorem paint_rst (on : Bool) (x y : Word) (s : State) : (s.paint on x y).rst = s.rst := by unfold State.paint; split <;> rfl
@[simp] theorem paint_seq (on : Bool) (x y : Word) (s : State) : (s.paint on x y).seq = s.seq := by unfold State.paint; split <;> rfl
@[simp] theorem paint_opc (on : Bool) (x y : Word) (s : State) : (s.paint on x y).opc = s.opc := by unfold State.paint; split <;> rfl
@[simp] theorem paint_A (on : Bool) (x y : Word) (s : State) : (s.paint on x y).A = s.A := by unfold State.paint; split <;> rfl
@[simp] theorem paint_B (on : Bool) (x y : Word) (s : State) : (s.paint on x y).B = s.B := by unfold State.paint; split <;> rfl
@[simp] theorem paint_resp (on : Bool) (x y : Word) (s : State) : (s.paint on x y).resp = s.resp := by unfold State.paint; split <;> rfl
@[simp] theorem paint_trace (on : Bool) (x y : Word) (s : State) : (s.paint on x y).trace = s.trace := by unfold State.paint; split <;> rfl
@[simp] theorem paint_requests (on : Bool) (x y : Word) (s : State) : (s.paint on x y).requests = s.requests := by unfold State.paint; split <;> rfl
@[simp] theorem paint_env (on : Bool) (x y : Word) (s : State) : (s.paint on x y).env = s.env := by unfold State.paint; split <;> rfl
@[simp] theorem paint_draws (on : Bool) (x y : Word) (s : State) : (s.paint on x y).draws = s.draws := by unfold State.paint; split <;> rfl
@[simp] theorem paint_panelIn (on : Bool) (x y : Word) (s : State) : (s.paint on x y).panelIn = s.panelIn := by unfold State.paint; split <;> rfl
@[simp] theorem paint_panel (on : Bool) (x y : Word) (s : State) : (s.paint on x y).panel = s.panel := by unfold State.paint; split <;> rfl

/-! ## `State.useAnswer` -/

@[simp] theorem useAnswer_cfg (s : State) : (s.useAnswer).cfg = s.cfg := by unfold State.useAnswer; split <;> rfl
@[simp] theorem useAnswer_fb (s : State) : (s.useAnswer).fb = s.fb := by unfold State.useAnswer; split <;> rfl
@[simp] theorem useAnswer_dstate (s : State) : (s.useAnswer).dstate = s.dstate := by unfold State.useAnswer; split <;> rfl
@[simp] theorem useAnswer_rst (s : State) : (s.useAnswer).rst = s.rst := by unfold State.useAnswer; split <;> rfl
@[simp] theorem useAnswer_seq (s : State) : (s.useAnswer).seq = s.seq := by unfold State.useAnswer; split <;> rfl
@[simp] theorem useAnswer_opc (s : State) : (s.useAnswer).opc = s.opc := by unfold State.useAnswer; split <;> rfl
@[simp] theorem useAnswer_A (s : State) : (s.useAnswer).A = s.A := by unfold State.useAnswer; split <;> rfl
@[simp] theorem useAnswer_B (s : State) : (s.useAnswer).B = s.B := by unfold State.useAnswer; split <;> rfl
@[simp] theorem useAnswer_resp (s : State) : (s.useAnswer).resp = s.resp := by unfold State.useAnswer; split <;> rfl
@[simp] theorem useAnswer_trace (s : State) : (s.useAnswer).trace = s.trace := by unfold State.useAnswer; split <;> rfl
@[simp] theorem useAnswer_requests (s : State) : (s.useAnswer).requests = s.requests := by unfold State.useAnswer; split <;> rfl
@[simp] theorem useAnswer_panelIn (s : State) : (s.useAnswer).panelIn = s.panelIn := by unfold State.useAnswer; split <;> rfl
@[simp] theorem useAnswer_panel (s : State) : (s.useAnswer).panel = s.panel := by unfold State.useAnswer; split <;> rfl

/-! ## `State.answered` -/

@[simp] theorem answered_cfg (act : Action) (ans : Answer) (s : State) : (s.answered act ans).cfg = s.cfg := rfl
@[simp] theorem answered_fb (act : Action) (ans : Answer) (s : State) : (s.answered act ans).fb = s.fb := rfl
@[simp] theorem answered_dstate (act : Action) (ans : Answer) (s : State) : (s.answered act ans).dstate = s.dstate := rfl
@[simp] theorem answered_rst (act : Action) (ans : Answer) (s : State) : (s.answered act ans).rst = (act.event s).drivenLine ans s.rst := rfl
@[simp] theorem answered_seq (act : Action) (ans : Answer) (s : State) : (s.answered act ans).seq = s.seq := rfl
@[simp] theorem answered_opc (act : Action) (ans : Answer) (s : State) : (s.answered act ans).opc = s.opc := rfl
@[simp] theorem answered_A (act : Action) (ans : Answer) (s : State) : (s.answered act ans).A = s.A := rfl
@[simp] theorem answered_B (act : Action) (ans : Answer) (s : State) : (s.answered act ans).B = s.B := rfl
@[simp] theorem answered_resp (act : Action) (ans : Answer) (s : State) : (s.answered act ans).resp = s.resp := rfl
@[simp] theorem answered_trace (act : Action) (ans : Answer) (s : State) : (s.answered act ans).trace = s.trace ++ [(act.event s, ans)] := rfl
@[simp] theorem answered_requests (act : Action) (ans : Answer) (s : State) : (s.answered act ans).requests = s.requests := rfl
@[simp] theorem answered_env (act : Action) (ans : Answer) (s : State) : (s.answered act ans).env = s.env := rfl
@[simp] theorem answered_draws (act : Action) (ans : Answer) (s : State) : (s.answered act ans).draws = s.draws := rfl
@[simp] theorem answered_panelIn (act : Action) (ans : Answer) (s : State) : (s.answered act ans).panelIn = s.panelIn := rfl
@[simp] theorem answered_panel (act : Action) (ans : Answer) (s : State) : (s.answered act ans).panel = act.onPanel (act.event s) ans s.cfg.pinPresent s.panel := rfl

/-! ## `State.advance` -/

@[simp] theorem advance_cfg (s : State) : (s.advance).cfg = s.cfg := by unfold State.advance; split <;> rfl
@[simp] theorem advance_fb (s : State) : (s.advance).fb = s.fb := by unfold State.advance; split <;> rfl
@[simp] theorem advance_dstate (s : State) : (s.advance).dstate = s.dstate := by unfold State.advance; split <;> rfl
@[simp] theorem advance_rst (s : State) : (s.advance).rst = s.rst := by unfold State.advance; split <;> rfl
@[simp] theorem advance_opc (s : State) : (s.advance).opc = s.opc := by unfold State.advance; split <;> rfl
@[simp] theorem advance_A (s : State) : (s.advance).A = s.A := by unfold State.advance; split <;> rfl
@[simp] theorem advance_B (s : State) : (s.advance).B = s.B := by unfold State.advance; split <;> rfl
@[simp] theorem advance_resp (s : State) : (s.advance).resp = s.resp := by unfold State.advance; split <;> rfl
@[simp] theorem advance_trace (s : State) : (s.advance).trace = s.trace := by unfold State.advance; split <;> rfl
@[simp] theorem advance_requests (s : State) : (s.advance).requests = s.requests := by unfold State.advance; split <;> rfl
@[simp] theorem advance_env (s : State) : (s.advance).env = s.env := by unfold State.advance; split <;> rfl
@[simp] theorem advance_draws (s : State) : (s.advance).draws = s.draws := by unfold State.advance; split <;> rfl
@[simp] theorem advance_panelIn (s : State) : (s.advance).panelIn = s.panelIn := by unfold State.advance; split <;> rfl
@[simp] theorem advance_panel (s : State) : (s.advance).panel = s.panel := by unfold State.advance; split <;> rfl

/-! ## `State.after` -/

@[simp] theorem after_cfg (p : Post) (s : State) : (s.after p).cfg = s.cfg := by cases p <;> rfl
@[simp] theorem after_rst (p : Post) (s : State) : (s.after p).rst = s.rst := by cases p <;> rfl
@[simp] theorem after_seq (p : Post) (s : State) : (s.after p).seq = s.seq := by cases p <;> rfl
@[simp] theorem after_opc (p : Post) (s : State) : (s.after p).opc = s.opc := by cases p <;> rfl
@[simp] theorem after_A (p : Post) (s : State) : (s.after p).A = s.A := by cases p <;> rfl
@[simp] theorem after_B (p : Post) (s : State) : (s.after p).B = s.B := by cases p <;> rfl
@[simp] theorem after_resp (p : Post) (s : State) : (s.after p).resp = s.resp := by cases p <;> rfl
@[simp] theorem after_trace (p : Post) (s : State) : (s.after p).trace = s.trace := by cases p <;> rfl
@[simp] theorem after_requests (p : Post) (s : State) : (s.after p).requests = s.requests := by cases p <;> rfl
@[simp] theorem after_env (p : Post) (s : State) : (s.after p).env = s.env := by cases p <;> rfl
@[simp] theorem after_draws (p : Post) (s : State) : (s.after p).draws = s.draws := by cases p <;> rfl
@[simp] theorem after_panelIn (p : Post) (s : State) : (s.after p).panelIn = s.panelIn := by cases p <;> rfl
@[simp] theorem after_panel (p : Post) (s : State) : (s.after p).panel = s.panel := by cases p <;> rfl

/-! ## The fields an update changes by cases -/

theorem paint_fb (on : Bool) (x y : Word) (s : State) :
    (s.paint on x y).fb =
      if inCanvas s.cfg.geom x y then
        s.fb.write (byteIndex s.cfg.geom x y)
          (if on then s.fb.read (byteIndex s.cfg.geom x y) ||| pixelMask y
           else s.fb.read (byteIndex s.cfg.geom x y) &&& ~~~(pixelMask y))
      else s.fb := by
  unfold State.paint; split <;> rfl

/-- Writing the framebuffer is all SET_PIXEL does. -/
theorem paint_eq (on : Bool) (x y : Word) (s : State) :
    s.paint on x y = { s with fb := (s.paint on x y).fb } := by
  unfold State.paint; split <;> rfl

@[simp] theorem advance_seq_busy (s : State) (k : Nat) (h : s.seq = .busy k) :
    s.advance.seq = .busy (k + 1) := by
  simp [State.advance, h]

@[simp] theorem advance_seq_idle (s : State) (h : s.seq = .idle) : s.advance.seq = .idle := by
  simp [State.advance, h]

theorem after_fb (p : Post) (s : State) : (s.after p).fb = if p = .clear then [] else s.fb := by
  cases p <;> rfl

/-- Where `dstate` goes after an event. -/
def Post.dstate (p : Post) (d : DriverState) : DriverState :=
  match p with
  | .nothing => d
  | .pulseDone => .reset
  | .configuring => .initializing
  | .clear => d
  | .displaying => .displaying

theorem after_dstate (p : Post) (s : State) : (s.after p).dstate = p.dstate s.dstate := by
  cases p <;> rfl

theorem useAnswer_env_cons (s : State) (a : EnvAnswer) (rest : List EnvAnswer)
    (h : s.env = a :: rest) : s.useAnswer = { s with env := rest } := by
  simp [State.useAnswer, h]

theorem nextAnswer_cons (s : State) (a : EnvAnswer) (rest : List EnvAnswer)
    (h : s.env = a :: rest) : s.nextAnswer = a := by
  simp [State.nextAnswer, h]

@[simp] theorem event_useAnswer (act : Action) (s : State) : act.event s.useAnswer = act.event s := by
  cases act <;> simp [Action.event, State.pageSlice]

/-! ## Events and the latched operation depend on few fields -/

/-- The event of an action reads the configuration and the framebuffer alone. -/
theorem event_congr (act : Action) (s t : State) (hc : s.cfg = t.cfg) (hf : s.fb = t.fb) :
    act.event s = act.event t := by
  cases act <;> simp [Action.event, State.pageSlice, hc, hf]

theorem latched_congr (s t : State) (ho : s.opc = t.opc) (ha : s.A = t.A) (hb : s.B = t.B) :
    s.latched = t.latched := by
  simp [State.latched, ho, ha, hb]

end Sys2Proof.Machine
end

