-- ==== Sys2Proof/Laws/Run.lean ====
section
/-! SUPPORT. What emitting an event and running an operation's events can do, said once: the three
ways an emission ends, the induction over a run, and the closed forms of a run that is answered `ok`
throughout or fails at a position. -/

namespace Sys2Proof.Machine

/-! ## One event -/

theorem emit_waiting (act : Action) (s : State) (h : s.nextAnswer = .pending) :
    emit act s = .waiting s.useAnswer := by
  simp [emit, Event.answer, h]

theorem emit_done (act : Action) (s : State)
    (h : (act.event s).answer s.cfg s.nextAnswer = some .ok) :
    emit act s = .done (s.useAnswer.answered act .ok) := by
  simp [emit, h, Answer.error?]

theorem emit_raised (act : Action) (s : State) (ans : Answer) (e : OpError)
    (h : (act.event s).answer s.cfg s.nextAnswer = some ans) (he : ans.error? = some e) :
    emit act s = .raised e (s.useAnswer.answered act ans) := by
  simp [emit, h, he]

theorem answer_eq_none_iff (c : Config) (ev : Event) (a : EnvAnswer) :
    ev.answer c a = none ↔ a = .pending := by
  cases a <;> cases ev <;> simp [Event.answer] <;> split <;> simp

@[simp] theorem answer_ok (c : Config) (ev : Event) : ev.answer c .ok = some .ok := rfl

theorem error?_eq_none_iff (a : Answer) : a.error? = none ↔ a = .ok := by
  cases a <;> simp [Answer.error?]

/-- Everything an emission can do. -/
theorem emit_cases (act : Action) (s : State) :
    (s.nextAnswer = .pending ∧ emit act s = .waiting s.useAnswer) ∨
    ((act.event s).answer s.cfg s.nextAnswer = some .ok ∧
      emit act s = .done (s.useAnswer.answered act .ok)) ∨
    ∃ ans e, (act.event s).answer s.cfg s.nextAnswer = some ans ∧ ans.error? = some e ∧
      emit act s = .raised e (s.useAnswer.answered act ans) := by
  cases h : (act.event s).answer s.cfg s.nextAnswer with
  | none =>
    have hp := (answer_eq_none_iff _ _ _).1 h
    exact .inl ⟨hp, emit_waiting act s hp⟩
  | some ans =>
    cases he : ans.error? with
    | none =>
      obtain rfl := (error?_eq_none_iff ans).1 he
      exact .inr (.inl ⟨rfl, emit_done act s h⟩)
    | some e => exact .inr (.inr ⟨ans, e, rfl, he, emit_raised act s ans e h he⟩)

/-! ## Runs -/

@[simp] theorem run_nil (s : State) : run [] s = s.respond 0 := rfl

theorem run_cons_done (m : Micro) (ms : List Micro) (s t : State) (h : emit m.act s = .done t) :
    run (m :: ms) s = run ms (t.advance.after m.post) := by
  simp [run, h]

theorem run_cons_raised (m : Micro) (ms : List Micro) (s t : State) (e : OpError)
    (h : emit m.act s = .raised e t) : run (m :: ms) s = t.raise e := by
  simp [run, h]

theorem run_cons_waiting (m : Micro) (ms : List Micro) (s t : State)
    (h : emit m.act s = .waiting t) : run (m :: ms) s = t := by
  simp [run, h]

/-- The induction over a run: `P` says what holds before the remaining events, `Q` what holds where
the run stops. -/
theorem run_induction {P : List Micro → State → Prop} {Q : State → Prop}
    (finish : ∀ s, P [] s → Q (s.respond 0))
    (go : ∀ m ms s, P (m :: ms) s → (m.act.event s).answer s.cfg s.nextAnswer = some .ok →
      P ms ((s.useAnswer.answered m.act .ok).advance.after m.post))
    (error : ∀ m ms s ans e, P (m :: ms) s →
      (m.act.event s).answer s.cfg s.nextAnswer = some ans → ans.error? = some e →
      Q ((s.useAnswer.answered m.act ans).raise e))
    (wait : ∀ m ms s, P (m :: ms) s → s.nextAnswer = .pending → Q s.useAnswer)
    (ms : List Micro) (s : State) (h : P ms s) : Q (run ms s) := by
  induction ms generalizing s with
  | nil => exact finish s h
  | cons m ms ih =>
    rcases emit_cases m.act s with ⟨ha, he⟩ | ⟨ha, he⟩ | ⟨ans, e, ha, hr, he⟩
    · rw [run_cons_waiting m ms s _ he]; exact wait m ms s h ha
    · rw [run_cons_done m ms s _ he]; exact ih _ (go m ms s h ha)
    · rw [run_cons_raised m ms s _ e he]; exact error m ms s ans e h ha hr

/-- What a run never changes. -/
theorem run_frame (ms : List Micro) (s : State) :
    (run ms s).cfg = s.cfg ∧ (run ms s).opc = s.opc ∧ (run ms s).A = s.A ∧ (run ms s).B = s.B ∧
    (run ms s).requests = s.requests ∧ (run ms s).panelIn = s.panelIn := by
  refine run_induction
    (P := fun _ t => t.cfg = s.cfg ∧ t.opc = s.opc ∧ t.A = s.A ∧ t.B = s.B ∧
      t.requests = s.requests ∧ t.panelIn = s.panelIn)
    (Q := fun t => t.cfg = s.cfg ∧ t.opc = s.opc ∧ t.A = s.A ∧ t.B = s.B ∧
      t.requests = s.requests ∧ t.panelIn = s.panelIn) ?_ ?_ ?_ ?_ ms s ⟨rfl, rfl, rfl, rfl, rfl, rfl⟩
  · intro t h; simpa using h
  · intro m ms t h _; simpa using h
  · intro m ms t ans e h _ _; simpa using h
  · intro m ms t h _; simpa using h

@[simp] theorem run_cfg (ms : List Micro) (s : State) : (run ms s).cfg = s.cfg := (run_frame ms s).1
@[simp] theorem run_opc (ms : List Micro) (s : State) : (run ms s).opc = s.opc := (run_frame ms s).2.1
@[simp] theorem run_A (ms : List Micro) (s : State) : (run ms s).A = s.A := (run_frame ms s).2.2.1
@[simp] theorem run_B (ms : List Micro) (s : State) : (run ms s).B = s.B := (run_frame ms s).2.2.2.1
@[simp] theorem run_requests (ms : List Micro) (s : State) : (run ms s).requests = s.requests :=
  (run_frame ms s).2.2.2.2.1
@[simp] theorem run_panelIn (ms : List Micro) (s : State) : (run ms s).panelIn = s.panelIn :=
  (run_frame ms s).2.2.2.2.2

/-! ## Runs whose answers are laid down -/

/-- One event answered `ok`, the answers left aside. -/
def State.okStep (s : State) (m : Micro) : State := (s.answered m.act .ok).advance.after m.post

/-- The events a list of actions emits when each is answered `ok`. -/
def okEvents : List Micro → State → List Event
  | [], _ => []
  | m :: ms, s => m.act.event s :: okEvents ms (s.okStep m)

theorem okStep_env (s : State) (m : Micro) (r : List EnvAnswer) :
    ({ s with env := r } : State).okStep m = { s.okStep m with env := r } := by
  obtain ⟨act, post⟩ := m
  obtain ⟨cfg, fb, dstate, rst, seq, opc, A, B, resp, trace, requests, env, draws, panelIn, panel⟩ := s
  cases act <;> cases seq <;> cases post <;> rfl

theorem foldl_okStep_env (ms : List Micro) (s : State) (r : List EnvAnswer) :
    ms.foldl State.okStep { s with env := r } = { ms.foldl State.okStep s with env := r } := by
  induction ms generalizing s with
  | nil => rfl
  | cons m ms ih => rw [List.foldl_cons, okStep_env, ih, List.foldl_cons]

theorem okEvents_env (ms : List Micro) (s : State) (r : List EnvAnswer) :
    okEvents ms { s with env := r } = okEvents ms s := by
  induction ms generalizing s with
  | nil => rfl
  | cons m ms ih =>
    have hev : m.act.event ({ s with env := r } : State) = m.act.event s := event_congr _ _ _ rfl rfl
    rw [okEvents, okEvents, okStep_env, ih, hev]

/-- An event answered `ok` from the laid-down answers is one `okStep`. -/
theorem run_cons_ok (m : Micro) (ms : List Micro) (s : State) (rest : List EnvAnswer)
    (h : s.env = .ok :: rest) : run (m :: ms) s = run ms (({ s with env := rest } : State).okStep m) := by
  rw [run_cons_done m ms s _ (emit_done _ _ (by rw [nextAnswer_cons s _ _ h]; rfl)),
    useAnswer_env_cons s _ _ h]
  rfl

/-- A run over `ok` answers goes through its events. -/
theorem run_append_ok (ms ns : List Micro) (s : State) (rest : List EnvAnswer)
    (h : s.env = List.replicate ms.length .ok ++ rest) :
    run (ms ++ ns) s = run ns { ms.foldl State.okStep s with env := rest } := by
  induction ms generalizing s with
  | nil =>
    have he : s = { s with env := rest } := by simpa using congrArg (fun e => { s with env := e }) h
    simpa using congrArg (run ns) he
  | cons m ms ih =>
    rw [List.cons_append, run_cons_ok m _ s (List.replicate ms.length .ok ++ rest) (by
      simpa [List.replicate_succ] using h), ih _ (by simp [State.okStep]), okStep_env,
      foldl_okStep_env, List.foldl_cons]

/-- A run whose events are all answered `ok` responds `OK`. -/
theorem run_ok (ms : List Micro) (s : State) (rest : List EnvAnswer)
    (h : s.env = List.replicate ms.length .ok ++ rest) :
    run ms s = ({ ms.foldl State.okStep s with env := rest } : State).respond 0 := by
  simpa using run_append_ok ms [] s rest h

@[simp] theorem okStep_cfg (s : State) (m : Micro) : (s.okStep m).cfg = s.cfg := by
  simp [State.okStep]

theorem okStep_fb (s : State) (m : Micro) :
    (s.okStep m).fb = if m.post = .clear then [] else s.fb := by
  simp [State.okStep, after_fb]

theorem okStep_trace (s : State) (m : Micro) :
    (s.okStep m).trace = s.trace ++ [(m.act.event s, .ok)] := by
  simp [State.okStep]

/-- The trace after a list of `ok` events. -/
theorem foldl_okStep_trace (ms : List Micro) (s : State) :
    (ms.foldl State.okStep s).trace = s.trace ++ (okEvents ms s).map fun e => (e, .ok) := by
  induction ms generalizing s with
  | nil => simp [okEvents]
  | cons m ms ih => rw [List.foldl_cons, ih, okStep_trace]; simp [okEvents]

@[simp] theorem foldl_okStep_cfg (ms : List Micro) (s : State) :
    (ms.foldl State.okStep s).cfg = s.cfg := by
  induction ms generalizing s with
  | nil => rfl
  | cons m ms ih => rw [List.foldl_cons, ih, okStep_cfg]

/-- Without a CLEAR among them, events leave the framebuffer alone. -/
theorem foldl_okStep_fb (ms : List Micro) (s : State) (h : ∀ m ∈ ms, m.post ≠ .clear) :
    (ms.foldl State.okStep s).fb = s.fb := by
  induction ms generalizing s with
  | nil => rfl
  | cons m ms ih =>
    rw [List.foldl_cons, ih _ fun n hn => h n (List.mem_cons_of_mem _ hn), okStep_fb,
      if_neg (h m (by simp))]

/-- Without a CLEAR among them, every event is the one its action emits in the first state. -/
theorem okEvents_eq_map (ms : List Micro) (s : State) (h : ∀ m ∈ ms, m.post ≠ .clear) :
    okEvents ms s = ms.map fun m => m.act.event s := by
  induction ms generalizing s with
  | nil => rfl
  | cons m ms ih =>
    rw [okEvents, ih _ fun n hn => h n (List.mem_cons_of_mem _ hn), List.map_cons]
    congr 1
    refine List.map_congr_left fun n _ => event_congr _ _ _ (okStep_cfg s m) ?_
    rw [okStep_fb, if_neg (h m (by simp))]

theorem okEvents_append (ms ns : List Micro) (s : State) :
    okEvents (ms ++ ns) s = okEvents ms s ++ okEvents ns (ms.foldl State.okStep s) := by
  induction ms generalizing s with
  | nil => rfl
  | cons m ms ih => simp [okEvents, ih]

@[simp] theorem okEvents_length (ms : List Micro) (s : State) :
    (okEvents ms s).length = ms.length := by
  induction ms generalizing s with
  | nil => rfl
  | cons m ms ih => simp [okEvents, ih]

/-- Fields no event touches. -/
theorem foldl_okStep_frame (ms : List Micro) (s : State) :
    (ms.foldl State.okStep s).opc = s.opc ∧ (ms.foldl State.okStep s).A = s.A ∧
    (ms.foldl State.okStep s).B = s.B ∧ (ms.foldl State.okStep s).resp = s.resp ∧
    (ms.foldl State.okStep s).requests = s.requests ∧
    (ms.foldl State.okStep s).draws = s.draws ∧ (ms.foldl State.okStep s).panelIn = s.panelIn := by
  induction ms generalizing s with
  | nil => simp
  | cons m ms ih => rw [List.foldl_cons]; simpa [State.okStep] using ih (s.okStep m)

/-- The line register after a list of events answered `ok`. -/
def lineAfter (ms : List Micro) (l : ResetLine) : ResetLine :=
  ms.foldl (fun l m => match m.act with
    | .pinHigh => .high
    | .pinLow => .low
    | _ => l) l

/-- `dstate` after a list of events answered `ok`. -/
def dstateAfter (ms : List Micro) (d : DriverState) : DriverState :=
  ms.foldl (fun d m => m.post.dstate d) d

/-- The framebuffer after a list of events answered `ok`. -/
def fbAfter (ms : List Micro) (fb : Memory) : Memory :=
  ms.foldl (fun fb m => if m.post = .clear then [] else fb) fb

/-- The sequencer after `n` events answered `ok`. -/
def SeqPos.plus : SeqPos → Nat → SeqPos
  | .idle, _ => .idle
  | .busy k, n => .busy (k + n)

theorem okStep_eq (s : State) (m : Micro) :
    s.okStep m = { s with
      fb := fbAfter [m] s.fb, dstate := dstateAfter [m] s.dstate, rst := lineAfter [m] s.rst
      seq := s.seq.plus 1, trace := s.trace ++ [(m.act.event s, .ok)]
      panel := m.act.onPanel (m.act.event s) .ok s.cfg.pinPresent s.panel } := by
  obtain ⟨act, post⟩ := m
  obtain ⟨cfg, fb, dstate, rst, seq, opc, A, B, resp, trace, requests, env, draws, panelIn, panel⟩ := s
  cases act <;> cases seq <;> cases post <;> rfl

/-- The whole state after a list of events answered `ok`, but for the panel. -/
theorem foldl_okStep_eq (ms : List Micro) (s : State) :
    ∃ p, ms.foldl State.okStep s = { s with
      fb := fbAfter ms s.fb, dstate := dstateAfter ms s.dstate, rst := lineAfter ms s.rst
      seq := s.seq.plus ms.length
      trace := s.trace ++ (okEvents ms s).map fun e => (e, .ok)
      panel := p } := by
  induction ms generalizing s with
  | nil =>
    refine ⟨s.panel, ?_⟩
    cases h : s.seq <;>
      simp [okEvents, fbAfter, dstateAfter, lineAfter, SeqPos.plus, ← h]
  | cons m ms ih =>
    obtain ⟨p, hp⟩ := ih (s.okStep m)
    refine ⟨p, ?_⟩
    rw [List.foldl_cons, hp]
    simp only [okEvents]
    generalize okEvents ms (s.okStep m) = es
    rw [okStep_eq]
    cases s.seq <;>
      simp [fbAfter, dstateAfter, lineAfter, SeqPos.plus, Nat.add_comm, Nat.add_left_comm]

/-- A run that goes `ok` up to position `k` and fails there. -/
theorem run_fails_at (ms : List Micro) (s : State) (k : Nat) (m : Micro) (a : EnvAnswer)
    (rest : List EnvAnswer) (ans : Answer) (e : OpError) (hm : ms[k]? = some m)
    (h : s.env = List.replicate k .ok ++ a :: rest)
    (ha : ∀ ev, ev = m.act.event ((ms.take k).foldl State.okStep s) → ev.answer s.cfg a = some ans)
    (he : ans.error? = some e) :
    run ms s = (({ (ms.take k).foldl State.okStep s with env := rest } : State).answered
      m.act ans).raise e := by
  obtain ⟨hk, hm⟩ := List.getElem?_eq_some_iff.1 hm
  have hs : ms = ms.take k ++ m :: ms.drop (k + 1) := by
    rw [← hm, ← List.drop_eq_getElem_cons hk, List.take_append_drop]
  have hl : (ms.take k).length = k := by rw [List.length_take]; omega
  rw [hs, run_append_ok _ _ s (a :: rest) (by rw [hl, h]), ← hs]
  refine run_cons_raised _ _ _ _ e ?_
  rw [emit_raised _ _ ans e ?_ he, useAnswer_env_cons _ a rest rfl]
  rw [nextAnswer_cons _ a rest rfl]
  exact (foldl_okStep_cfg _ s).symm ▸ ha _ (event_congr _ _ _ rfl rfl)

/-- A run that goes `ok` up to position `k` and is not answered there. -/
theorem run_waits_at (ms : List Micro) (s : State) (k : Nat) (rest : List EnvAnswer)
    (hk : k < ms.length) (h : s.env = List.replicate k .ok ++ .pending :: rest) :
    run ms s = { (ms.take k).foldl State.okStep s with env := rest } := by
  have hs : ms = ms.take k ++ ms[k] :: ms.drop (k + 1) := by
    rw [← List.drop_eq_getElem_cons hk, List.take_append_drop]
  have hl : (ms.take k).length = k := by rw [List.length_take]; omega
  conv_lhs => rw [hs]
  rw [run_append_ok _ _ s (.pending :: rest) (by rw [hl, h])]
  rw [run_cons_waiting _ _ _ _ (emit_waiting _ _ (nextAnswer_cons _ _ rest rfl)),
    useAnswer_env_cons _ _ rest rfl]

/-! ## Starting -/

theorem hostOp_next (op : Byte) (a b : Word) (body : State → State) (s : State)
    (hw : s.cfg.wf = true) (hs : s.seq = .idle) :
    hostOp op a b body s = .next (body (s.accept op a b)) := by
  simp [hostOp, hw, hs]

/-- Everything starting a host operation can do. -/
theorem hostOp_cases (op : Byte) (a b : Word) (body : State → State) (s : State) :
    (s.cfg.wf = true ∧ s.seq = .idle ∧ hostOp op a b body s = .next (body (s.accept op a b))) ∨
    (∃ k, s.seq = .busy k ∧ hostOp op a b body s = .refused .busy) ∨
    (s.cfg.wf = false ∧ hostOp op a b body s = .refused .illFormedConfig) := by
  cases hw : s.cfg.wf with
  | false => simp [hostOp, hw]
  | true => cases hs : s.seq <;> simp [hostOp, hw, hs]

@[simp] theorem panelOp_eq (f : Panel → Panel) (s : State) :
    panelOp f s = .next { s with panel := f s.panel } := rfl

end Sys2Proof.Machine
end

