-- ==== Sys2Proof/Laws/Events.lean ====
section
/-! SUPPORT. The events of each operation: their kinds, their closed forms, and what the block's
registers are after a number of them. -/

namespace Sys2Proof.Machine

/-! ## The bytes of the addressing and breathing commands -/

theorem lowerColumn_bytes {t : OpTable} (h : t.wf = true) (c : Nat) :
    encodeCommand t (.opSetLowerColumn (columnLow c)) =
      [t.setLowerColumn.value ||| BitVec.ofNat 8 (c % 16)] := by
  simp [encodeCommand, Instr.opName?, OpTable.entry, OpEntry.assemble, (OpTable.wf_forms h).1,
    Format.fit, columnLow]

theorem higherColumn_bytes {t : OpTable} (h : t.wf = true) (c : Nat) (hc : c ≤ 127) :
    encodeCommand t (.opSetHigherColumn (columnHigh c)) =
      [t.setHigherColumn.value ||| BitVec.ofNat 8 (c / 16)] := by
  simp [encodeCommand, Instr.opName?, OpTable.entry, OpEntry.assemble, (OpTable.wf_forms h).2.1,
    Format.fit, columnHigh]
  congr 1; apply BitVec.eq_of_toNat_eq; simp; omega

theorem page_bytes {t : OpTable} (h : t.wf = true) (p : Nat) (hp : p ≤ 7) :
    encodeCommand t (.opSetPageAddress (pageArg p)) =
      [t.setPageAddress.value ||| BitVec.ofNat 8 p] := by
  simp [encodeCommand, Instr.opName?, OpTable.entry, OpEntry.assemble, (OpTable.wf_forms h).2.2.1,
    Format.fit, pageArg]
  congr 1; apply BitVec.eq_of_toNat_eq; simp; omega

theorem breathing_bytes {t : OpTable} (h : t.wf = true) (v : Byte) :
    encodeCommand t (.opSetBreathingLight v) = [t.setBreathingLight.value, v] := by
  simp [encodeCommand, Instr.opName?, OpTable.entry, OpEntry.assemble, (OpTable.wf_forms h).2.2.2.1]

/-! ## Kinds of events -/

/-- A bus event with nothing after it. -/
def Micro.plainBus (m : Micro) : Prop :=
  m.post = .nothing ∧ ((∃ i, m.act = .command i) ∨ ∃ pg, m.act = .pageData pg)

theorem flushEvents_plainBus (c : Config) : ∀ m ∈ flushEvents c, m.plainBus := by
  intro m hm
  simp only [flushEvents, List.mem_flatMap, flushPageEvents, setPageEvents, setColumnEvents,
    List.mem_append] at hm
  obtain ⟨pg, _, (hm | hm) | hm⟩ := hm
  · split at hm <;> simp at hm; subst hm; exact ⟨rfl, .inl ⟨_, rfl⟩⟩
  · split at hm <;> simp at hm; rcases hm with rfl | rfl <;> exact ⟨rfl, .inl ⟨_, rfl⟩⟩
  · simp at hm; subst hm; exact ⟨rfl, .inr ⟨_, rfl⟩⟩

/-- Every event of an operation other than HARD_RESET and INIT is a plain bus event. -/
theorem operationEvents_plainBus (c : Config) (i : Instr) (h1 : i ≠ .hardReset) (h2 : i ≠ .init) :
    ∀ m ∈ operationEvents c i, m.plainBus := by
  intro m hm
  cases i <;> simp only [operationEvents, List.not_mem_nil] at hm
  case hardReset => exact absurd rfl h1
  case init => exact absurd rfl h2
  case flush => exact flushEvents_plainBus c m hm
  case setColumnAddress x =>
    unfold setColumnEvents at hm
    split at hm <;> simp at hm; rcases hm with rfl | rfl <;> exact ⟨rfl, .inl ⟨_, rfl⟩⟩
  case setPage x =>
    unfold setPageEvents at hm
    split at hm <;> simp at hm; subst hm; exact ⟨rfl, .inl ⟨_, rfl⟩⟩
  case setBreathingEffect on sel frames =>
    unfold breathingEvents at hm
    split at hm <;> simp at hm; subst hm; exact ⟨rfl, .inl ⟨_, rfl⟩⟩

/-- Plain bus events leave the line, `dstate` and the framebuffer alone. -/
theorem plainBus_after (ms : List Micro) (h : ∀ m ∈ ms, m.plainBus) (l : ResetLine)
    (d : DriverState) (fb : Memory) :
    lineAfter ms l = l ∧ dstateAfter ms d = d ∧ fbAfter ms fb = fb := by
  induction ms with
  | nil => exact ⟨rfl, rfl, rfl⟩
  | cons m ms ih =>
    have := ih fun n hn => h n (List.mem_cons_of_mem _ hn)
    obtain ⟨hp, ha⟩ := h m (by simp)
    simp only [lineAfter, dstateAfter, fbAfter, List.foldl_cons, hp] at *
    rcases ha with ⟨i, ha⟩ | ⟨i, ha⟩ <;> simpa [ha, Post.dstate] using this

/-- From INIT's seventh event on, every event is a bus event. -/
theorem initEvents_bus (c : Config) (k : Nat) (m : Micro) (h : (initEvents c)[k]? = some m)
    (hk : 6 ≤ k) : (∃ i, m.act = .command i) ∨ ∃ pg, m.act = .pageData pg := by
  have hm : m ∈ (initEvents c).drop 6 := by
    refine List.mem_of_getElem? (i := k - 6) ?_
    rw [List.getElem?_drop, show 6 + (k - 6) = k by omega, h]
  have e : (initEvents c).drop 6 = initConfigEvents c ++ flushEvents c ++ initShowEvents := by
    simp [initEvents, hardResetEvents]
  rw [e] at hm
  simp only [List.mem_append] at hm
  rcases hm with (hm | hm) | hm
  · simp [initConfigEvents, Action.only] at hm
    rcases hm with rfl|rfl|rfl|rfl|rfl|rfl|rfl|rfl|rfl|rfl|rfl|rfl|rfl <;> exact .inl ⟨_, rfl⟩
  · exact (flushEvents_plainBus c m hm).2
  · simp [initShowEvents, Action.only] at hm
    rcases hm with rfl|rfl|rfl <;> exact .inl ⟨_, rfl⟩

/-- Every command an operation sends is a controller command whose operand fits (R76, R83). -/
theorem operationEvents_wfIn (c : Config) (hw : c.wf = true) (i : Instr) (m : Micro)
    (hm : m ∈ operationEvents c i) (j : Instr) (hj : m.act = .command j) :
    j.wfIn c.ops = true ∧ encodeRequest j = none := by
  have hc := Config.wf_parts hw
  have hg := Geometry.wf_parts hc.1
  have ho := OpTable.wf_forms hc.2.1
  have column (x : Nat) (n : Micro) (hn : n ∈ setColumnEvents x) (hj : n.act = .command j) :
      j.wfIn c.ops = true ∧ encodeRequest j = none := by
    unfold setColumnEvents at hn
    split at hn <;> simp at hn
    rcases hn with rfl | rfl <;> cases hj <;>
      simp [Instr.wfIn, ho, Format.fits, columnLow, columnHigh, encodeRequest] <;> omega
  have page (x : Nat) (n : Micro) (hn : n ∈ setPageEvents x) (hj : n.act = .command j) :
      j.wfIn c.ops = true ∧ encodeRequest j = none := by
    unfold setPageEvents at hn
    split at hn <;> simp at hn
    subst hn; cases hj
    simp [Instr.wfIn, ho, Format.fits, pageArg, encodeRequest]; omega
  have flush (n : Micro) (hn : n ∈ flushEvents c) (hj : n.act = .command j) :
      j.wfIn c.ops = true ∧ encodeRequest j = none := by
    simp only [flushEvents, List.mem_flatMap, flushPageEvents, List.mem_append] at hn
    obtain ⟨pg, _, (hn | hn) | hn⟩ := hn
    · exact page pg n hn hj
    · exact column _ n hn hj
    · simp at hn; subst hn; cases hj
  have reset (n : Micro) (hn : n ∈ hardResetEvents c) (hj : n.act = .command j) :
      j.wfIn c.ops = true ∧ encodeRequest j = none := by
    simp [hardResetEvents, Action.only] at hn
    rcases hn with rfl|rfl|rfl|rfl|rfl|rfl <;> cases hj
  cases i <;> simp only [operationEvents, List.not_mem_nil] at hm
  case hardReset => exact reset m hm hj
  case flush => exact flush m hm hj
  case setColumnAddress x => exact column _ m hm hj
  case setPage x => exact page _ m hm hj
  case setBreathingEffect on sel frames =>
    unfold breathingEvents at hm
    split at hm <;> simp at hm
    subst hm; cases hj
    simp [Instr.wfIn, ho, Format.fits, encodeRequest]
  case init =>
    simp only [initEvents, List.mem_append] at hm
    rcases hm with ((hm | hm) | hm) | hm
    · exact reset m hm hj
    · simp [initConfigEvents, Action.only] at hm
      rcases hm with rfl|rfl|rfl|rfl|rfl|rfl|rfl|rfl|rfl|rfl|rfl|rfl|rfl <;> cases hj <;>
        simp [Instr.wfIn, fits_fit, encodeRequest]
    · exact flush m hm hj
    · simp [initShowEvents, Action.only] at hm
      rcases hm with rfl|rfl|rfl <;> cases hj <;> simp [Instr.wfIn, encodeRequest]

/-! ## Closed forms -/

/-- FLUSH's events are R113's list. -/
theorem flushEvents_map (s : State) (c : Config) (fb : Memory) (hc : s.cfg = c) (hf : s.fb = fb)
    (hw : c.wf = true) :
    (flushEvents c).map (fun m => m.act.event s) = flushEventList c fb := by
  subst hc hf
  have hg := Config.wf_parts hw
  have gf := Geometry.wf_parts hg.1
  rw [flushEvents, flushEventList, List.map_flatMap]
  refine List.flatMap_congr fun pg hpg => ?_
  rw [List.mem_range, Geometry.pages] at hpg
  have h1 : ¬ 7 < pg := by omega
  have h2 : ¬ 127 < s.cfg.geom.offsetX.toNat := by omega
  simp [flushPageEvents, setPageEvents, setColumnEvents, h1, h2, Action.only, Action.event,
    lowerColumn_bytes hg.2.1, higherColumn_bytes hg.2.1 _ (Nat.le_of_not_lt h2),
    page_bytes hg.2.1 _ (Nat.le_of_not_lt h1), State.pageSlice]

@[simp] theorem flushEventList_length (c : Config) (fb : Memory) :
    (flushEventList c fb).length = 4 * c.geom.pages := by
  simp [flushEventList, List.length_flatMap, Nat.mul_comm]

theorem flushEvents_length (c : Config) (hw : c.wf = true) :
    (flushEvents c).length = 4 * c.geom.pages := by
  have := congrArg List.length (flushEvents_map (State.construct c) c [] rfl rfl hw)
  rw [List.length_map] at this
  exact this.trans (flushEventList_length _ _)

theorem initEvents_length (c : Config) (hw : c.wf = true) :
    (initEvents c).length = 6 + 13 + 4 * c.geom.pages + 3 := by
  simp [initEvents, flushEvents_length c hw, hardResetEvents, initConfigEvents, initShowEvents]
  omega

theorem initEventList_length (c : Config) :
    (initEventList c).length = 6 + 13 + 4 * c.geom.pages + 3 := by
  simp [initEventList, hardResetEventList, initConfigEventList, initShowEventList]
  omega

theorem multiplexParam_eq (g : Geometry) (h : g.wf = true) :
    multiplexParam g = BitVec.ofNat 8 (g.height.toNat - 1) := by
  have := Geometry.wf_parts h
  apply BitVec.eq_of_toNat_eq
  simp [multiplexParam, BitVec.toNat_sub]; omega

/-- INIT's events, each answered `ok`, are R124's list. -/
theorem initEvents_okEvents (s : State) (c : Config) (hc : s.cfg = c) (hw : c.wf = true) :
    okEvents (initEvents c) s = initEventList c := by
  subst hc
  have hg := Config.wf_parts hw
  have ho := OpTable.wf_forms hg.2.1
  have hm := multiplexParam_eq _ hg.1
  have hpre : okEvents (hardResetEvents s.cfg ++ initConfigEvents s.cfg) s =
      hardResetEventList s.cfg ++ initConfigEventList s.cfg := by
    have c1 := assemble_cf1 s.cfg.ops.displayOff 0 ho.2.2.2.2.1
    have c2 := assemble_cf1 s.cfg.ops.segRemapReversed 0 ho.2.2.2.2.2.2.1
    have c3 := assemble_cf1 s.cfg.ops.comScanReversed 0 ho.2.2.2.2.2.2.2.1
    rw [show (0 : Byte) = 0#8 from rfl] at c1 c2 c3
    simp [hardResetEvents, initConfigEvents, hardResetEventList, initConfigEventList, okEvents,
      Action.only, Action.event, encodeCommand, Instr.opName?, OpTable.entry, c1, c2, c3, hm]
  have hshow (t : State) (ht : t.cfg = s.cfg) : okEvents initShowEvents t = initShowEventList s.cfg := by
    have c1 := assemble_cf1 s.cfg.ops.displayOn 0 ho.2.2.2.2.2.1
    have c2 := assemble_cf1 s.cfg.ops.resumeFromRam 0 ho.2.2.2.2.2.2.2.2.1
    have c3 := assemble_cf1 s.cfg.ops.normalDisplay 0 ho.2.2.2.2.2.2.2.2.2
    rw [show (0 : Byte) = 0#8 from rfl] at c1 c2 c3
    simp [initShowEvents, initShowEventList, okEvents, Action.only, Action.event, encodeCommand,
      Instr.opName?, OpTable.entry, c1, c2, c3, ht]
  have hne : ∀ m ∈ flushEvents s.cfg, m.post ≠ .clear := fun m hm => by
    rw [(flushEvents_plainBus s.cfg m hm).1]; decide
  rw [initEvents, okEvents_append, okEvents_append, hpre, okEvents_eq_map _ _ hne,
    flushEvents_map _ s.cfg [] (by simp) ?_ hw, hshow _ (by simp)]
  · simp [initEventList]
  · obtain ⟨p, hp⟩ := foldl_okStep_eq (hardResetEvents s.cfg ++ initConfigEvents s.cfg) s
    rw [hp]; simp [hardResetEvents, initConfigEvents, fbAfter, Action.only]

theorem okEvents_take (ms : List Micro) (s : State) (k : Nat) :
    okEvents (ms.take k) s = (okEvents ms s).take k := by
  induction ms generalizing s k with
  | nil => simp [okEvents]
  | cons m ms ih => cases k <;> simp [okEvents, ih]

theorem okEvents_getElem? (ms : List Micro) (s : State) (k : Nat) :
    (okEvents ms s)[k]? =
      (ms[k]?).map fun m => m.act.event ((ms.take k).foldl State.okStep s) := by
  induction ms generalizing s k with
  | nil => simp [okEvents]
  | cons m ms ih => cases k <;> simp [okEvents, ih]

/-- The block's registers when the first `k` of INIT's events have been answered `ok` (R123). -/
theorem initEvents_after (c : Config) (k : Nat) (l : ResetLine) (d : DriverState) (fb : Memory) :
    (dstateAfter ((initEvents c).take k) d =
      if k ≤ 5 then d else if k = 6 then .reset
      else if k < (initEvents c).length then .initializing else .displaying) ∧
    (lineAfter ((initEvents c).take k) l =
      if k = 0 then l else if k ≤ 2 then .high else if k ≤ 4 then .low else .high) ∧
    (fbAfter ((initEvents c).take k) fb = if k ≤ 18 then fb else []) := by
  have hq := fun k l d fb => plainBus_after ((flushEvents c).take k)
    (fun m hm => flushEvents_plainBus c m (List.mem_of_mem_take hm)) l d fb
  have e0 : initEvents c =
      hardResetEvents c ++ initConfigEvents c ++ (flushEvents c ++ initShowEvents) := by
    simp [initEvents]
  have hl : (hardResetEvents c ++ initConfigEvents c).length = 19 := rfl
  have hl2 : (initEvents c).length = 19 + ((flushEvents c).length + 3) := by
    rw [e0, List.length_append, hl, List.length_append]; rfl
  by_cases h : k < 19
  · rw [hl2, e0, List.take_append_of_le_length (by omega)]
    interval_cases k <;> refine ⟨?_, ?_, ?_⟩ <;>
      simp [hardResetEvents, initConfigEvents, dstateAfter, lineAfter, fbAfter, Action.only,
        Post.dstate] <;> omega
  · obtain ⟨j, rfl⟩ : ∃ j, k = 19 + j := ⟨k - 19, by omega⟩
    have h0 : ∀ l d fb, lineAfter (hardResetEvents c ++ initConfigEvents c) l = .high ∧
        dstateAfter (hardResetEvents c ++ initConfigEvents c) d = .initializing ∧
        fbAfter (hardResetEvents c ++ initConfigEvents c) fb = [] := fun _ _ _ => ⟨rfl, rfl, rfl⟩
    have happ : ∀ (xs ys : List Micro) l d fb,
        lineAfter (xs ++ ys) l = lineAfter ys (lineAfter xs l) ∧
        dstateAfter (xs ++ ys) d = dstateAfter ys (dstateAfter xs d) ∧
        fbAfter (xs ++ ys) fb = fbAfter ys (fbAfter xs fb) := by
      intro xs ys l d fb
      simp [lineAfter, dstateAfter, fbAfter, List.foldl_append]
    have hsh : ∀ n, lineAfter (initShowEvents.take n) .high = .high ∧
        fbAfter (initShowEvents.take n) [] = [] ∧
        dstateAfter (initShowEvents.take n) .initializing =
          if n < 3 then .initializing else .displaying := by
      intro n
      rcases n with _ | _ | _ | n <;>
        simp [initShowEvents, lineAfter, fbAfter, dstateAfter, Post.dstate, Action.only]
    rw [hl2, e0, List.take_append, hl, show 19 + j - 19 = j by omega,
      List.take_of_length_le (by rw [hl]; omega), List.take_append]
    rw [(happ _ _ l d fb).2.1, (happ _ _ l d fb).1, (happ _ _ l d fb).2.2, (h0 l d fb).1,
      (h0 l d fb).2.1, (h0 l d fb).2.2]
    rw [(happ _ _ .high .initializing []).2.1, (happ _ _ .high .initializing []).1,
      (happ _ _ .high .initializing []).2.2, (hq j .high .initializing []).1,
      (hq j .high .initializing []).2.1, (hq j .high .initializing []).2.2,
      (hsh _).1, (hsh _).2.1, (hsh _).2.2]
    refine ⟨?_, ?_, ?_⟩
    · rw [if_neg (show ¬ 19 + j ≤ 5 by omega), if_neg (show ¬ 19 + j = 6 by omega)]
      split <;> split <;> first | rfl | omega
    · rw [if_neg (by omega), if_neg (by omega), if_neg (by omega)]
    · rw [if_neg (by omega)]
end Sys2Proof.Machine
end

