-- ==== Sys2Proof/Laws/Memory.lean ====
section
/-! SUPPORT. The laws of memory: reading after a write, keeping the canonical form, and that two
canonical memories that read alike are equal. -/

namespace Sys2Proof.Machine

@[simp] theorem cellAt_nil (a : Nat) : Memory.cellAt [] a = none := rfl

theorem cellAt_cons (c : Host.Cell) (m : Memory) (a : Nat) :
    Memory.cellAt (c :: m) a = if c.1 = a then some c.2 else m.cellAt a := rfl

theorem rising_iff (m : Memory) : m.rising = true ↔ m.Pairwise fun c d => c.1 < d.1 := by
  simp [Memory.rising]

/-- An address below every listed one is not listed. -/
theorem cellAt_eq_none_of_lt (m : Memory) (a : Nat) (h : ∀ c ∈ m, a < c.1) : m.cellAt a = none := by
  induction m with
  | nil => rfl
  | cons c m ih =>
    rw [cellAt_cons, if_neg (Nat.ne_of_gt (h c (by simp))), ih fun d hd => h d (by simp [hd])]

theorem cellAt_setCell (m : Memory) (a b : Nat) (v : Byte) :
    (m.setCell a v).cellAt b = if a = b then some v else m.cellAt b := by
  induction m with
  | nil => simp [Memory.setCell, cellAt_cons]
  | cons c m ih =>
    obtain ⟨k, w⟩ := c
    simp only [Memory.setCell]
    split
    · simp [cellAt_cons]
    · split
      · subst a; simp only [cellAt_cons]; split <;> simp_all
      · rename_i h1 h2
        simp only [cellAt_cons, ih]
        by_cases hk : k = b <;> by_cases ha : a = b <;> simp_all

theorem cellAt_dropCell (m : Memory) (a b : Nat) :
    (m.dropCell a).cellAt b = if a = b then none else m.cellAt b := by
  induction m with
  | nil => simp [Memory.dropCell]
  | cons c m ih =>
    obtain ⟨k, w⟩ := c
    have e : Memory.dropCell ((k, w) :: m) a =
        if k = a then Memory.dropCell m a else (k, w) :: Memory.dropCell m a := by
      by_cases h : k = a <;> simp [Memory.dropCell, h]
    rw [e]
    by_cases h1 : k = a <;> by_cases h2 : a = b <;> by_cases h3 : k = b <;> simp_all [cellAt_cons]

theorem mem_setCell (m : Memory) (a : Nat) (v : Byte) (c : Host.Cell) (h : c ∈ m.setCell a v) :
    c = (a, v) ∨ c ∈ m := by
  induction m with
  | nil => simpa [Memory.setCell] using h
  | cons d m ih =>
    obtain ⟨k, w⟩ := d
    simp only [Memory.setCell] at h
    split at h
    · simpa using h
    · split at h
      · simp only [List.mem_cons] at h ⊢; tauto
      · simp only [List.mem_cons] at h ⊢
        rcases h with h | h
        · tauto
        · rcases ih h with h | h <;> tauto

theorem rising_setCell (m : Memory) (a : Nat) (v : Byte) (h : m.rising = true) :
    (m.setCell a v).rising = true := by
  rw [rising_iff] at *
  induction m with
  | nil => simp [Memory.setCell]
  | cons d m ih =>
    obtain ⟨k, w⟩ := d
    rw [List.pairwise_cons] at h
    simp only [Memory.setCell]
    split
    · rename_i hk
      refine List.pairwise_cons.2 ⟨?_, List.pairwise_cons.2 h⟩
      intro c hc
      rcases List.mem_cons.1 hc with rfl | hc
      · exact hk
      · exact Nat.lt_trans hk (h.1 c hc)
    · split
      · subst a
        exact List.pairwise_cons.2 ⟨h.1, h.2⟩
      · rename_i h1 h2
        refine List.pairwise_cons.2 ⟨?_, ih h.2⟩
        intro c hc
        rcases mem_setCell m a v c hc with rfl | hc
        · show k < a; omega
        · exact h.1 c hc

theorem rising_dropCell (m : Memory) (a : Nat) (h : m.rising = true) : (m.dropCell a).rising = true := by
  rw [rising_iff] at *
  exact h.sublist List.filter_sublist

theorem wf_iff (m : Memory) :
    m.wf = true ↔ (m.Pairwise fun c d => c.1 < d.1) ∧ ∀ c ∈ m, c.2 ≠ 0 := by
  simp [Memory.wf, Memory.rising]

@[simp] theorem wf_nil : Memory.wf [] = true := rfl

/-- A write keeps the canonical form. -/
theorem wf_write (m : Memory) (a : Nat) (b : Byte) (h : m.wf = true) : (m.write a b).wf = true := by
  rw [wf_iff] at *
  unfold Memory.write
  split
  · exact ⟨(rising_iff _).1 (rising_dropCell m a ((rising_iff _).2 h.1)),
      fun c hc => h.2 c (List.mem_filter.1 hc).1⟩
  · rename_i hb
    refine ⟨(rising_iff _).1 (rising_setCell m a b ((rising_iff _).2 h.1)), fun c hc => ?_⟩
    rcases mem_setCell m a b c hc with rfl | hc
    · exact hb
    · exact h.2 c hc

/-- Every address a write lists is the one written or was listed before. -/
theorem mem_write (m : Memory) (a : Nat) (b : Byte) (c : Host.Cell) (h : c ∈ m.write a b) :
    c.1 = a ∨ c ∈ m := by
  unfold Memory.write at h
  split at h
  · exact .inr (List.mem_filter.1 h).1
  · rcases mem_setCell m a b c h with rfl | h
    · exact .inl rfl
    · exact .inr h

@[simp] theorem read_nil (a : Nat) : Memory.read [] a = 0 := rfl

/-- A read after a write: the byte written, and every other address as before. -/
theorem read_write (m : Memory) (a b : Nat) (v : Byte) :
    (m.write a v).read b = if a = b then v else m.read b := by
  unfold Memory.write Memory.read
  split
  · rw [cellAt_dropCell]; split <;> simp_all
  · rw [cellAt_setCell]; split <;> simp

@[simp] theorem read_write_same (m : Memory) (a : Nat) (v : Byte) : (m.write a v).read a = v := by
  simp [read_write]

theorem read_write_other (m : Memory) (a b : Nat) (v : Byte) (h : a ≠ b) :
    (m.write a v).read b = m.read b := by
  simp [read_write, h]

/-- Every listed cell is what a read of its address finds. -/
theorem cellAt_of_mem (m : Memory) (h : m.Pairwise fun c d => c.1 < d.1) (c : Host.Cell)
    (hc : c ∈ m) : m.cellAt c.1 = some c.2 := by
  induction m with
  | nil => cases hc
  | cons d m ih =>
    rw [List.pairwise_cons] at h
    rcases List.mem_cons.1 hc with rfl | hc
    · simp [cellAt_cons]
    · rw [cellAt_cons, if_neg (Nat.ne_of_lt (h.1 c hc)), ih h.2 hc]

/-- Rising memories that list the same bytes are the same list. -/
theorem eq_of_cellAt (m n : Memory) (hm : m.Pairwise fun c d => c.1 < d.1)
    (hn : n.Pairwise fun c d => c.1 < d.1) (h : ∀ a, m.cellAt a = n.cellAt a) : m = n := by
  induction m generalizing n with
  | nil =>
    cases n with
    | nil => rfl
    | cons d n => have := h d.1; simp [cellAt_cons] at this
  | cons c m ih =>
    cases n with
    | nil => have := h c.1; simp [cellAt_cons] at this
    | cons d n =>
      rw [List.pairwise_cons] at hm hn
      have hcd : c.1 = d.1 := by
        by_contra hne
        rcases Nat.lt_or_gt_of_ne hne with hlt | hlt
        · have := h c.1
          rw [cellAt_cons, if_pos rfl, cellAt_cons, if_neg (Nat.ne_of_gt hlt),
            cellAt_eq_none_of_lt n c.1 fun e he => Nat.lt_trans hlt (hn.1 e he)] at this
          cases this
        · have := h d.1
          rw [cellAt_cons, if_neg (Nat.ne_of_gt hlt), cellAt_cons, if_pos rfl,
            cellAt_eq_none_of_lt m d.1 fun e he => Nat.lt_trans hlt (hm.1 e he)] at this
          cases this
      have h2 : c.2 = d.2 := by
        have := h c.1
        rw [cellAt_cons, if_pos rfl, cellAt_cons, if_pos hcd.symm] at this
        exact Option.some.inj this
      have htl : m = n := by
        refine ih n hm.2 hn.2 fun a => ?_
        by_cases ha : a = c.1
        · subst ha
          rw [cellAt_eq_none_of_lt m _ hm.1, cellAt_eq_none_of_lt n _ (hcd ▸ hn.1)]
        · have := h a
          rwa [cellAt_cons, if_neg (Ne.symm ha), cellAt_cons, if_neg (hcd ▸ Ne.symm ha)] at this
      rw [htl, Prod.ext hcd h2]

/-- Canonical framebuffers that read alike at every address are equal. -/
theorem eq_of_read (m n : Memory) (hm : m.wf = true) (hn : n.wf = true)
    (h : ∀ a, m.read a = n.read a) : m = n := by
  rw [wf_iff] at hm hn
  have key (p : Memory) (hp : (p.Pairwise fun c d => c.1 < d.1) ∧ ∀ c ∈ p, c.2 ≠ 0) (a : Nat) :
      p.cellAt a = if p.read a = 0 then none else some (p.read a) := by
    cases hf : p.cellAt a with
    | none => simp [Memory.read, hf]
    | some v =>
      have hv : v ≠ 0 := by
        have mem : (a, v) ∈ p := by
          clear hp
          induction p with
          | nil => cases hf
          | cons c p ih =>
            rw [cellAt_cons] at hf
            split at hf
            · rename_i hc; cases hf; subst hc; simp
            · exact List.mem_cons_of_mem _ (ih hf)
        exact hp.2 _ mem
      rw [Memory.read, hf, Option.getD_some, if_neg hv]
  exact eq_of_cellAt m n hm.1 hn.1 fun a => by rw [key m hm, key n hn, h a]

@[simp] theorem slice_length (m : Memory) (a n : Nat) : (m.slice a n).length = n := by
  simp [Memory.slice]

theorem slice_getElem (m : Memory) (a n j : Nat) (h : j < n) :
    (m.slice a n)[j]'(by simpa using h) = m.read (a + j) := by
  simp [Memory.slice]

/-- A slice of the cleared framebuffer is zeros. -/
theorem slice_nil (a n : Nat) : Memory.slice [] a n = List.replicate n 0 := by
  simp [Memory.slice, List.map_const']

end Sys2Proof.Machine
end

