-- ==== Sys2Proof/Laws/Panel.lean ====
section
/-! SUPPORT. The panel controller: every operation keeps its RAM's form, and what a data burst
leaves in it. -/

namespace Sys2Proof.Machine

/-- The RAM's form: rising addresses inside the 8 × 128 cells. -/
def Panel.ramWf (p : Panel) : Prop := p.ram.rising = true ∧ ∀ c ∈ p.ram, c.1 < 8 * 128

theorem cell_lt (r : PanelRegs) : r.cell < 8 * 128 := by
  have h1 := r.pp.isLt; have h2 := r.cp.isLt
  simp only [PanelRegs.cell]; omega

@[simp] theorem forgetRegs_ram (p : Panel) : p.forgetRegs.ram = p.ram := rfl
@[simp] theorem forgetRegs_lost (p : Panel) : p.forgetRegs.lost = p.lost := rfl
@[simp] theorem forgetRegs_pulsing (p : Panel) : p.forgetRegs.pulsing = p.pulsing := rfl
@[simp] theorem forget_ram (p : Panel) : p.forget.ram = [] := rfl
@[simp] theorem forget_lost (p : Panel) : p.forget.lost = p.lost := rfl
@[simp] theorem forget_pulsing (p : Panel) : p.forget.pulsing = p.pulsing := rfl

theorem ramWf_nil (p : Panel) (h : p.ram = []) : p.ramWf := by
  simp [Panel.ramWf, h, Memory.rising]

theorem onCommand_known (f : PanelRegs → PanelRegs) (p : Panel) (h : p.lost = false) :
    p.onCommand f = { p with regs := f p.regs } := by
  simp [Panel.onCommand, h]

theorem onCommand_lost (f : PanelRegs → PanelRegs) (p : Panel) (h : p.lost = true) :
    p.onCommand f = p.forget := by
  simp [Panel.onCommand, h]

theorem onCommand_ramWf (f : PanelRegs → PanelRegs) (p : Panel) (h : p.ramWf) :
    (p.onCommand f).ramWf := by
  unfold Panel.onCommand
  split
  · exact ramWf_nil _ rfl
  · exact h

/-- Every controller command is `onCommand` of some change of the registers. -/
theorem command_onCommand (i : Instr) (p : Panel) (hi : encodeRequest i = none) :
    ∃ f, p.command i = p.onCommand f := by
  cases i <;> first
    | (simp only [Panel.command, Panel.opSetLowerColumn, Panel.opSetHigherColumn,
         Panel.opSetBreathingLight, Panel.opSetPumpVoltage, Panel.opSetStartLine,
         Panel.opSetContrast, Panel.opSegRemapReversed, Panel.opSegPadsConfig,
         Panel.opResumeFromRam, Panel.opNormalDisplay, Panel.opSetMultiplex, Panel.opSetDcdc,
         Panel.opDisplayOff, Panel.opDisplayOn, Panel.opSetPageAddress, Panel.opComScanReversed,
         Panel.opSetDisplayOffset, Panel.opSetClockDiv, Panel.opSetPrecharge,
         Panel.opSetVcomDeselect]
       exact ⟨_, rfl⟩)
    | cases hi

/-- An instruction is `onCommand` of some change of the panel's registers, or nothing to the panel. -/
theorem command_eq (i : Instr) (p : Panel) :
    p.command i = p ∨ ∃ f, p.command i = p.onCommand f := by
  cases i <;> first
    | exact .inl rfl
    | exact .inr (command_onCommand _ p rfl)

/-- In an unknown state every controller command leaves nothing of the panel known. -/
theorem command_lost (i : Instr) (p : Panel) (hi : encodeRequest i = none) (h : p.lost = true) :
    p.command i = p.forget := by
  obtain ⟨f, e⟩ := command_onCommand i p hi
  rw [e, onCommand_lost f p h]

/-- In an unknown state a data burst leaves nothing of the panel known. -/
theorem data_lost (bs : List Byte) (p : Panel) (h : p.lost = true) : p.data bs = p.forget := by
  simp [Panel.data, h]

theorem command_ramWf (i : Instr) (p : Panel) (h : p.ramWf) : (p.command i).ramWf := by
  rcases command_eq i p with e | ⟨f, e⟩ <;> rw [e]
  · exact h
  · exact onCommand_ramWf f p h

/-- A command leaves the RAM as it was, in a known state. -/
theorem command_known (i : Instr) (p : Panel) (h : p.lost = false) :
    (p.command i).ram = p.ram ∧ (p.command i).lost = false ∧ (p.command i).pulsing = p.pulsing := by
  rcases command_eq i p with e | ⟨f, e⟩ <;> rw [e]
  · exact ⟨rfl, h, rfl⟩
  · rw [onCommand_known f p h]; exact ⟨rfl, h, rfl⟩

@[simp] theorem pastColumn_ram (p : Panel) : p.pastColumn.ram = p.ram := rfl
@[simp] theorem pastColumn_lost (p : Panel) : p.pastColumn.lost = p.lost := rfl
@[simp] theorem pastColumn_pulsing (p : Panel) : p.pastColumn.pulsing = p.pulsing := rfl
@[simp] theorem pastColumn_pp (p : Panel) : p.pastColumn.regs.pp = p.regs.pp := rfl

@[simp] theorem stepColumn_ram (p : Panel) : p.stepColumn.ram = p.ram := by
  unfold Panel.stepColumn; split <;> rfl
@[simp] theorem stepColumn_lost (p : Panel) : p.stepColumn.lost = p.lost := by
  unfold Panel.stepColumn; split <;> rfl
@[simp] theorem stepColumn_pulsing (p : Panel) : p.stepColumn.pulsing = p.pulsing := by
  unfold Panel.stepColumn; split <;> rfl
@[simp] theorem stepColumn_pp (p : Panel) : p.stepColumn.regs.pp = p.regs.pp := by
  unfold Panel.stepColumn; split <;> rfl

@[simp] theorem dataByte_lost (p : Panel) (d : Byte) : (p.dataByte d).lost = p.lost := by
  unfold Panel.dataByte; split <;> simp
@[simp] theorem dataByte_pulsing (p : Panel) (d : Byte) : (p.dataByte d).pulsing = p.pulsing := by
  unfold Panel.dataByte; split <;> simp

theorem dataByte_ramWf (p : Panel) (d : Byte) (h : p.ramWf) : (p.dataByte d).ramWf := by
  unfold Panel.dataByte
  split
  · exact ramWf_nil _ rfl
  · refine ⟨?_, fun c hc => ?_⟩
    · rw [stepColumn_ram]; exact rising_setCell _ _ _ h.1
    · rw [stepColumn_ram] at hc
      rcases mem_setCell _ _ _ c hc with rfl | hc
      · exact cell_lt p.regs
      · exact h.2 c hc

theorem foldl_dataByte_ramWf (bs : List Byte) (p : Panel) (h : p.ramWf) :
    (bs.foldl Panel.dataByte p).ramWf := by
  induction bs generalizing p with
  | nil => exact h
  | cons b bs ih => exact ih _ (dataByte_ramWf p b h)

theorem foldl_dataByte_lost (bs : List Byte) (p : Panel) :
    (bs.foldl Panel.dataByte p).lost = p.lost ∧ (bs.foldl Panel.dataByte p).pulsing = p.pulsing := by
  induction bs generalizing p with
  | nil => exact ⟨rfl, rfl⟩
  | cons b bs ih => simpa using ih (p.dataByte b)

theorem data_ramWf (bs : List Byte) (p : Panel) (h : p.ramWf) : (p.data bs).ramWf := by
  unfold Panel.data
  split
  · exact ramWf_nil _ rfl
  · exact foldl_dataByte_ramWf bs p h

theorem failedData_ramWf (n : Nat) (p : Panel) (h : p.ramWf) : (p.failedData n).ramWf := by
  unfold Panel.failedData
  split
  · exact ramWf_nil _ rfl
  · have key (l : List Nat) (m : Memory) (hm : m.rising = true ∧ ∀ c ∈ m, c.1 < 8 * 128) :
        (l.foldl (fun m j => Memory.dropCell m (p.regs.cell + j)) m).rising = true ∧
        ∀ c ∈ l.foldl (fun m j => Memory.dropCell m (p.regs.cell + j)) m, c.1 < 8 * 128 := by
      induction l generalizing m with
      | nil => exact hm
      | cons j l ih =>
        exact ih _ ⟨rising_dropCell _ _ hm.1, fun c hc => hm.2 c (List.mem_filter.1 hc).1⟩
    exact key _ _ h

theorem failedCommand_ramWf (p : Panel) (h : p.ramWf) : p.failedCommand.ramWf := by
  unfold Panel.failedCommand
  split
  · exact ramWf_nil _ rfl
  · exact h

/-- A burst that stays within the page writes its bytes at successive columns, first byte first, and
no other cell (R45, R58). -/
theorem foldl_dataByte_cellAt (bs : List Byte) (p : Panel) (hp : p.regs.cpPast = false)
    (hn : p.regs.cp.toNat + bs.length ≤ 128) (a : Nat) :
    (bs.foldl Panel.dataByte p).ram.cellAt a =
      if p.regs.cell ≤ a ∧ a < p.regs.cell + bs.length then bs[a - p.regs.cell]?
      else p.ram.cellAt a := by
  induction bs generalizing p with
  | nil => simp [show ¬ (p.regs.cell ≤ a ∧ a < p.regs.cell) by omega]
  | cons b bs ih =>
    have e : p.dataByte b = Panel.stepColumn { p with ram := p.ram.setCell p.regs.cell b } := by
      simp [Panel.dataByte, hp]
    rw [List.foldl_cons]
    by_cases hb : bs = []
    · subst hb
      rw [List.foldl_nil, e, stepColumn_ram, cellAt_setCell]
      by_cases ha : p.regs.cell = a
      · simp [ha]
      · rw [if_neg ha, if_neg (by simp; omega)]
    · have hl : 0 < bs.length := List.length_pos_iff.2 hb
      simp only [List.length_cons] at hn
      have hcp : p.regs.cp ≠ 127#7 := by
        intro h; rw [h] at hn; simp at hn; omega
      have hq : p.dataByte b =
          { p with ram := p.ram.setCell p.regs.cell b, regs := { p.regs with cp := p.regs.cp + 1 } } := by
        rw [e]; simp [Panel.stepColumn, hcp]
      have hcp1 : (p.regs.cp + 1).toNat = p.regs.cp.toNat + 1 := by
        rw [BitVec.toNat_add]; simp; omega
      have hcell : (p.dataByte b).regs.cell = p.regs.cell + 1 := by
        rw [hq]; simp only [PanelRegs.cell, hcp1]; omega
      have hram : (p.dataByte b).ram = p.ram.setCell p.regs.cell b := by rw [hq]
      rw [ih (p.dataByte b) (by rw [hq]; exact hp) (by rw [hq]; simp only [hcp1]; omega), hcell, hram,
        cellAt_setCell, List.length_cons]
      by_cases h1 : p.regs.cell = a
      · subst h1; simp
      · by_cases h2 : p.regs.cell + 1 ≤ a ∧ a < p.regs.cell + 1 + bs.length
        · rw [if_pos h2, if_pos (by omega), show a - p.regs.cell = (a - (p.regs.cell + 1)) + 1 by omega,
            List.getElem?_cons_succ]
        · rw [if_neg h2, if_neg h1, if_neg (by omega)]

theorem foldl_dataByte_pp (bs : List Byte) (p : Panel) :
    (bs.foldl Panel.dataByte p).regs.pp = p.regs.pp := by
  induction bs generalizing p with
  | nil => rfl
  | cons b bs ih =>
    rw [List.foldl_cons, ih]
    unfold Panel.dataByte
    split <;> simp

/-- The two column commands together set the column pointer, whatever it was (R58, R78). -/
theorem column_commands (c : Nat) (p : Panel) (h : p.lost = false) (hc : c < 128) :
    (p.opSetLowerColumn (BitVec.ofNat 8 (c % 16))).opSetHigherColumn (BitVec.ofNat 8 (c / 16 % 8)) =
      { p with regs := { p.regs with cp := BitVec.ofNat 7 c, cpPast := false } } := by
  rw [Panel.opSetLowerColumn, onCommand_known _ _ h, Panel.opSetHigherColumn,
    onCommand_known _ _ (by exact h)]
  congr 2
  apply BitVec.eq_of_toNat_eq
  have h4 : ((p.regs.cp.extractLsb' 4 3 ++ (BitVec.ofNat 8 (c % 16)).setWidth 4 : BitVec 7).extractLsb'
      0 4) = BitVec.ofNat 4 (c % 16) := by
    ext i hi
    simp only [BitVec.getElem_extractLsb', BitVec.getLsbD_append]
    simp [hi]
  simp only [h4, BitVec.toNat_append, BitVec.toNat_setWidth, BitVec.toNat_ofNat]
  rw [← Nat.shiftLeft_add_eq_or_of_lt (by omega), Nat.shiftLeft_eq]
  omega

end Sys2Proof.Machine
end

