-- ==== Sys2Proof/Laws/PerInstr.lean ====
section
/-! SUPPORT. Laws stated per instruction: the family `EncodedInWidth`. -/

namespace Sys2Proof

/-- The encoding of `i` in the opcode table's numbering takes 8, 16 or 72 bits (R70, R76, R84), and
the word fits in them. -/
def Laws.EncodedInWidth.Statement (i : Instr) : Prop :=
  ((encode i).1 = 8 ∨ (encode i).1 = 16 ∨ (encode i).1 = 72) ∧ (encode i).2 < 2 ^ (encode i).1

/-- A host operation's encoding is its 72-bit request word. -/
theorem encodedInWidth_request (i : Instr) (w : Request) (h : encodeRequest i = some w) :
    Laws.EncodedInWidth.Statement i := by
  simp only [Laws.EncodedInWidth.Statement, encode, h]
  exact ⟨by simp, w.isLt⟩

/-- A controller command's encoding is its one or two bytes. -/
theorem encodedInWidth_command (i : Instr) (h : encodeRequest i = none) :
    Laws.EncodedInWidth.Statement i := by
  have hl := encodeCommand_length OpTable.default i h
  simp only [Laws.EncodedInWidth.Statement, encode, h]
  match hb : encodeCommand OpTable.default i, hl with
  | [b], _ => exact ⟨.inl rfl, b.isLt⟩
  | [b, p], _ =>
    refine ⟨.inr (.inl rfl), ?_⟩
    have h1 := b.isLt
    have h2 := p.isLt
    show b.toNat + 256 * p.toNat < 2 ^ 16
    omega
  | [], hl => simp at hl
  | _ :: _ :: _ :: _, hl => simp at hl

theorem Laws.EncodedInWidth.hardReset : Laws.EncodedInWidth.Statement .hardReset :=
  encodedInWidth_request _ _ rfl

theorem Laws.EncodedInWidth.init : Laws.EncodedInWidth.Statement .init :=
  encodedInWidth_request _ _ rfl

theorem Laws.EncodedInWidth.clear : Laws.EncodedInWidth.Statement .clear :=
  encodedInWidth_request _ _ rfl

theorem Laws.EncodedInWidth.flush : Laws.EncodedInWidth.Statement .flush :=
  encodedInWidth_request _ _ rfl

theorem Laws.EncodedInWidth.setColumnAddress (c : Word) : Laws.EncodedInWidth.Statement (.setColumnAddress c) :=
  encodedInWidth_request _ _ rfl

theorem Laws.EncodedInWidth.setPage (p : Word) : Laws.EncodedInWidth.Statement (.setPage p) :=
  encodedInWidth_request _ _ rfl

theorem Laws.EncodedInWidth.setBreathingEffect (on : Bool) (sel : BitVec 2) (frames : Byte) : Laws.EncodedInWidth.Statement (.setBreathingEffect on sel frames) :=
  encodedInWidth_request _ _ rfl

theorem Laws.EncodedInWidth.getDimensions : Laws.EncodedInWidth.Statement .getDimensions :=
  encodedInWidth_request _ _ rfl

theorem Laws.EncodedInWidth.setPixelOff (x y : Word) : Laws.EncodedInWidth.Statement (.setPixelOff x y) :=
  encodedInWidth_request _ _ rfl

theorem Laws.EncodedInWidth.setPixelOn (x y : Word) : Laws.EncodedInWidth.Statement (.setPixelOn x y) :=
  encodedInWidth_request _ _ rfl

theorem Laws.EncodedInWidth.opSetLowerColumn (v : Byte) : Laws.EncodedInWidth.Statement (.opSetLowerColumn v) :=
  encodedInWidth_command _ rfl

theorem Laws.EncodedInWidth.opSetHigherColumn (v : Byte) : Laws.EncodedInWidth.Statement (.opSetHigherColumn v) :=
  encodedInWidth_command _ rfl

theorem Laws.EncodedInWidth.opSetBreathingLight (v : Byte) : Laws.EncodedInWidth.Statement (.opSetBreathingLight v) :=
  encodedInWidth_command _ rfl

theorem Laws.EncodedInWidth.opSetPumpVoltage (v : Byte) : Laws.EncodedInWidth.Statement (.opSetPumpVoltage v) :=
  encodedInWidth_command _ rfl

theorem Laws.EncodedInWidth.opSetStartLine (v : Byte) : Laws.EncodedInWidth.Statement (.opSetStartLine v) :=
  encodedInWidth_command _ rfl

theorem Laws.EncodedInWidth.opSetContrast (v : Byte) : Laws.EncodedInWidth.Statement (.opSetContrast v) :=
  encodedInWidth_command _ rfl

theorem Laws.EncodedInWidth.opSegRemapReversed : Laws.EncodedInWidth.Statement .opSegRemapReversed :=
  encodedInWidth_command _ rfl

theorem Laws.EncodedInWidth.opSegPadsConfig (v : Byte) : Laws.EncodedInWidth.Statement (.opSegPadsConfig v) :=
  encodedInWidth_command _ rfl

theorem Laws.EncodedInWidth.opResumeFromRam : Laws.EncodedInWidth.Statement .opResumeFromRam :=
  encodedInWidth_command _ rfl

theorem Laws.EncodedInWidth.opNormalDisplay : Laws.EncodedInWidth.Statement .opNormalDisplay :=
  encodedInWidth_command _ rfl

theorem Laws.EncodedInWidth.opSetMultiplex (v : Byte) : Laws.EncodedInWidth.Statement (.opSetMultiplex v) :=
  encodedInWidth_command _ rfl

theorem Laws.EncodedInWidth.opSetDcdc (v : Byte) : Laws.EncodedInWidth.Statement (.opSetDcdc v) :=
  encodedInWidth_command _ rfl

theorem Laws.EncodedInWidth.opDisplayOff : Laws.EncodedInWidth.Statement .opDisplayOff :=
  encodedInWidth_command _ rfl

theorem Laws.EncodedInWidth.opDisplayOn : Laws.EncodedInWidth.Statement .opDisplayOn :=
  encodedInWidth_command _ rfl

theorem Laws.EncodedInWidth.opSetPageAddress (v : Byte) : Laws.EncodedInWidth.Statement (.opSetPageAddress v) :=
  encodedInWidth_command _ rfl

theorem Laws.EncodedInWidth.opComScanReversed : Laws.EncodedInWidth.Statement .opComScanReversed :=
  encodedInWidth_command _ rfl

theorem Laws.EncodedInWidth.opSetDisplayOffset (v : Byte) : Laws.EncodedInWidth.Statement (.opSetDisplayOffset v) :=
  encodedInWidth_command _ rfl

theorem Laws.EncodedInWidth.opSetClockDiv (v : Byte) : Laws.EncodedInWidth.Statement (.opSetClockDiv v) :=
  encodedInWidth_command _ rfl

theorem Laws.EncodedInWidth.opSetPrecharge (v : Byte) : Laws.EncodedInWidth.Statement (.opSetPrecharge v) :=
  encodedInWidth_command _ rfl

theorem Laws.EncodedInWidth.opSetVcomDeselect (v : Byte) : Laws.EncodedInWidth.Statement (.opSetVcomDeselect v) :=
  encodedInWidth_command _ rfl

end Sys2Proof
end

