-- ==== Sys2Proof/Laws/Step.lean ====
section
/-! SUPPORT. What a run under any answers, a host operation, a controller command and a step can do,
each said once. -/

namespace Sys2Proof.Machine

/-! ## Runs under any answers -/

theorem okStep_answers (s : State) (m : Micro) (r : List EnvAnswer) (d : Nat) :
    ({ s with env := r, draws := d } : State).okStep m =
      { s.okStep m with env := r, draws := d } := by
  obtain ⟨act, post⟩ := m
  obtain ⟨cfg, fb, dstate, rst, seq, opc, A, B, resp, trace, requests, env, draws, panelIn, panel⟩ := s
  cases act <;> cases seq <;> cases post <;> rfl

theorem foldl_okStep_answers (ms : List Micro) (s : State) (r : List EnvAnswer) (d : Nat) :
    ms.foldl State.okStep { s with env := r, draws := d } =
      { ms.foldl State.okStep s with env := r, draws := d } := by
  induction ms generalizing s with
  | nil => rfl
  | cons m ms ih => rw [List.foldl_cons, okStep_answers, ih, List.foldl_cons]

theorem useAnswer_eq (s : State) : ∃ r d, s.useAnswer = { s with env := r, draws := d } := by
  cases h : s.env with
  | nil => exact ⟨s.env, s.draws + 1, by simp [State.useAnswer, h]⟩
  | cons a r => exact ⟨r, s.draws, by simp [State.useAnswer, h]⟩

/-- Everything a run can do: `k` events are answered `ok`, and then it ends, or event `k` fails, or
event `k` is not answered. -/
theorem run_cases (ms : List Micro) (s : State) : ∃ k r d,
    (k = ms.length ∧
      run ms s = ({ ms.foldl State.okStep s with env := r, draws := d } : State).respond 0) ∨
    (∃ m x ans err, ms[k]? = some m ∧
      (m.act.event ((ms.take k).foldl State.okStep s)).answer s.cfg x = some ans ∧
      ans.error? = some err ∧
      run ms s = (({ (ms.take k).foldl State.okStep s with env := r, draws := d } : State).answered
        m.act ans).raise err) ∨
    (k < ms.length ∧
      run ms s = { (ms.take k).foldl State.okStep s with env := r, draws := d }) := by
  induction ms generalizing s with
  | nil => exact ⟨0, s.env, s.draws, .inl ⟨rfl, rfl⟩⟩
  | cons m ms ih =>
    obtain ⟨r, d, hu⟩ := useAnswer_eq s
    rcases emit_cases m.act s with ⟨ha, he⟩ | ⟨ha, he⟩ | ⟨ans, e, ha, hr, he⟩
    · exact ⟨0, r, d, .inr (.inr ⟨by simp, by rw [run_cons_waiting _ _ _ _ he, hu]; rfl⟩)⟩
    · have hrun : run (m :: ms) s = run ms (State.okStep { s with env := r, draws := d } m) := by
        rw [run_cons_done _ _ _ _ he, hu]; rfl
      obtain ⟨k, r', d', h⟩ := ih (State.okStep { s with env := r, draws := d } m)
      refine ⟨k + 1, r', d', ?_⟩
      rw [hrun]
      rw [okStep_answers] at h ⊢
      simp only [foldl_okStep_answers] at h
      rcases h with ⟨h1, h2⟩ | ⟨m', x, ans, err, h1, h2, h3, h4⟩ | ⟨h1, h2⟩
      · exact .inl ⟨by simp [h1], h2⟩
      · refine .inr (.inl ⟨m', x, ans, err, by simpa using h1, ?_, h3, h4⟩)
        have hev : ∀ t : State,
            m'.act.event ({ t with env := r, draws := d } : State) = m'.act.event t :=
          fun t => event_congr _ _ _ rfl rfl
        rw [hev] at h2
        simpa using h2
      · exact .inr (.inr ⟨by simpa using h1, h2⟩)
    · refine ⟨0, r, d, .inr (.inl ⟨m, s.nextAnswer, ans, e, rfl, ha, hr, ?_⟩)⟩
      rw [run_cons_raised _ _ _ _ _ he, hu]; rfl

/-- What a failed answer says of its event (R14, R15). -/
theorem answer_error (ev : Event) (c : Config) (x : EnvAnswer) (ans : Answer) (err : OpError)
    (h : ev.answer c x = some ans) (he : ans.error? = some err) :
    (ans = .fail ∧ err = .displayTransport ∧
      ((∃ bs, ev = .busCmd bs) ∨ ∃ bs, ev = .busData bs)) ∨
    ∃ e, ans = .failPin e ∧ err = .pin e ∧ c.pinPresent = true ∧ (ev = .pinHigh ∨ ev = .pinLow) := by
  cases ev <;> cases x <;> simp [Event.answer] at h <;> (try subst h) <;>
    (try (simp [Answer.error?] at he; done))
  all_goals first
    | (left; simp [Answer.error?] at he; exact ⟨rfl, he.symm, by simp⟩)
    | (split at h <;> simp at h <;> subst h <;> simp [Answer.error?] at he
       right; exact ⟨_, rfl, he.symm, by assumption, by simp⟩)

/-! ## Instructions -/

/-- A controller command acts on the panel alone. -/
theorem exec_command (i : Instr) (s : State) (h : encodeRequest i = none) :
    exec i s = .next { s with panel := s.panel.command i } := by
  cases i <;> simp [encodeRequest] at h <;> rfl

/-- A host operation with events latches its request and runs them. -/
theorem exec_events (i : Instr) (c : Config) (h : operationEvents c i ≠ []) :
    ∃ op a b, decodeFields op a b = some i ∧
      ∀ s : State, s.cfg = c → exec i s = hostOp op a b (run (operationEvents c i)) s := by
  cases i <;> simp only [operationEvents, ne_eq, not_true_eq_false] at h
  case hardReset => exact ⟨Opcode.hardReset, 0, 0, by decide, fun s hs => by subst hs; rfl⟩
  case init => exact ⟨Opcode.init, 0, 0, by decide, fun s hs => by subst hs; rfl⟩
  case flush => exact ⟨Opcode.flush, 0, 0, by decide, fun s hs => by subst hs; rfl⟩
  case setColumnAddress c =>
    exact ⟨_, _, _, decodeFields_setColumnAddress c, fun s hs => by subst hs; rfl⟩
  case setPage c => exact ⟨_, _, _, decodeFields_setPage c, fun s hs => by subst hs; rfl⟩
  case setBreathingEffect on sel fr =>
    exact ⟨_, _, _, decodeFields_breathing on sel fr, fun s hs => by subst hs; rfl⟩

theorem exec_setPixelOn (x y : Word) (s : State) (hw : s.cfg.wf = true) (hs : s.seq = .idle) :
    exec (.setPixelOn x y) s = .next { s with
      opc := 0x11, A := x, B := y, resp := ⟨0, 0⟩, fb := (s.paint true x y).fb } := by
  rw [exec, execSetPixelOn, hostOp_next _ _ _ _ _ hw hs, paint_eq]
  simp [State.respond, State.accept, paint_fb, hs, statusOk, Opcode.setPixelOn]

theorem exec_setPixelOff (x y : Word) (s : State) (hw : s.cfg.wf = true) (hs : s.seq = .idle) :
    exec (.setPixelOff x y) s = .next { s with
      opc := 0x10, A := x, B := y, resp := ⟨0, 0⟩, fb := (s.paint false x y).fb } := by
  rw [exec, execSetPixelOff, hostOp_next _ _ _ _ _ hw hs, paint_eq]
  simp [State.respond, State.accept, paint_fb, hs, statusOk, Opcode.setPixelOff]

/-- Everything a host operation that answers a next state does: it runs its events from the latched
request, or it has none and writes at most the framebuffer and the response. -/
theorem exec_host_cases (i : Instr) (s t : State) (hi : (encodeRequest i).isSome = true)
    (h : exec i s = .next t) :
    s.cfg.wf = true ∧ s.seq = .idle ∧
    ((∃ op a b, decodeFields op a b = some i ∧
        t = run (operationEvents s.cfg i) (s.accept op a b)) ∨
      ∃ op a b fb pl, (fb = [] ∨ (∃ on x y, fb = (s.paint on x y).fb) ∨ fb = s.fb) ∧
        t = { s with opc := op, A := a, B := b, fb := fb, resp := ⟨0, pl⟩ }) := by
  have key : ∀ op a b body, hostOp op a b body s = .next t →
      s.cfg.wf = true ∧ s.seq = .idle ∧ t = body (s.accept op a b) := by
    intro op a b body h
    rcases hostOp_cases op a b body s with ⟨h1, h2, h3⟩ | ⟨k, h1, h2⟩ | ⟨h1, h2⟩
    · rw [h3] at h; exact ⟨h1, h2, by cases h; rfl⟩
    · rw [h2] at h; cases h
    · rw [h2] at h; cases h
  cases i <;> simp [encodeRequest] at hi
  case clear =>
    obtain ⟨h1, h2, h3⟩ := key Opcode.clear 0 0 _ (show execClear s = _ from h)
    exact ⟨h1, h2, .inr ⟨Opcode.clear, 0, 0, [], 0, .inl rfl, by
      rw [h3]; simp [State.respond, State.clearFb, State.accept, h2, statusOk]⟩⟩
  case getDimensions =>
    obtain ⟨h1, h2, h3⟩ := key Opcode.getDimensions 0 0 _ (show execGetDimensions s = _ from h)
    exact ⟨h1, h2, .inr ⟨Opcode.getDimensions, 0, 0, s.fb, dimensionsPayload s.cfg.geom,
      .inr (.inr rfl), by rw [h3]; simp [State.respond, State.accept, h2, statusOk]⟩⟩
  case setPixelOff x y =>
    obtain ⟨h1, h2, -⟩ := key _ _ _ _ (show execSetPixelOff x y s = _ from h)
    refine ⟨h1, h2, .inr ⟨Opcode.setPixelOff, x, y, (s.paint false x y).fb, 0,
      .inr (.inl ⟨_, _, _, rfl⟩), ?_⟩⟩
    rw [exec_setPixelOff x y s h1 h2] at h; cases h; rfl
  case setPixelOn x y =>
    obtain ⟨h1, h2, -⟩ := key _ _ _ _ (show execSetPixelOn x y s = _ from h)
    refine ⟨h1, h2, .inr ⟨Opcode.setPixelOn, x, y, (s.paint true x y).fb, 0,
      .inr (.inl ⟨_, _, _, rfl⟩), ?_⟩⟩
    rw [exec_setPixelOn x y s h1 h2] at h; cases h; rfl
  all_goals
    obtain ⟨h1, h2, h3⟩ := key _ _ _ _ h
    refine ⟨h1, h2, .inl ⟨_, _, _, ?_, h3⟩⟩
    first
      | decide
      | exact decodeFields_setColumnAddress _
      | exact decodeFields_setPage _
      | exact decodeFields_breathing _ _ _

/-! ## Steps -/

/-- Everything a step that answers a next state does. -/
theorem step_cases (s t : State) (h : step s = .next t) :
    s.cfg.wf = true ∧
    ((∃ i rest, encodeRequest i = none ∧
        t = { s with panelIn := rest, panel := s.panel.command i }) ∨
      (s.panelIn = [] ∧ s.seq = .idle ∧ s.requests = [] ∧ t = s) ∨
      (∃ k, s.panelIn = [] ∧ s.seq = .busy k ∧ s.pendingEvents ≠ [] ∧
        t = run s.pendingEvents s) ∨
      ∃ i w ws, s.panelIn = [] ∧ s.seq = .idle ∧ s.requests = w :: ws ∧
        decodeRequest w = some i ∧ (encodeRequest i).isSome = true ∧
        exec i { s with requests := ws } = .next t) := by
  unfold step at h
  by_cases hw : s.cfg.wf = true
  swap
  · simp [fetch, hw] at h
  refine ⟨hw, ?_⟩
  cases hp : s.panelIn with
  | cons b bs =>
    cases hd : decodeCommand s.cfg.ops (b :: bs) with
    | none => simp [fetch, hw, hp, hd] at h
    | some q =>
      obtain ⟨i, rest⟩ := q
      simp [fetch, hw, hp, hd] at h
      have hn := encodeRequest_none_of_decodeCommand _ _ _ _ hd
      rw [exec_command i _ hn] at h
      cases h
      exact .inl ⟨i, rest, hn, rfl⟩
  | nil =>
    right
    cases hs : s.seq with
    | idle =>
      cases hr : s.requests with
      | nil => simp [fetch, hw, hp, hs, hr] at h; exact .inl ⟨rfl, rfl, rfl, h.symm⟩
      | cons w ws =>
        right; right
        cases hd : decodeRequest w with
        | none => simp [fetch, hw, hp, hs, hr, hd] at h
        | some i =>
          simp [fetch, hw, hp, hs, hr, hd] at h
          exact ⟨i, w, ws, rfl, rfl, rfl, hd, encodeRequest_isSome_of_decode w i hd, h⟩
    | busy k =>
      right; left
      simp [fetch, hw, hp, hs, resume] at h
      cases hpe : s.pendingEvents with
      | nil => rw [hpe] at h; simp at h
      | cons m ms => rw [hpe] at h; simp at h; exact ⟨k, rfl, rfl, by simp, h.symm⟩

/-- A run of the machine takes its first step. -/
theorem core_run_succ (k : Nat) (s t : State) (h : step s = .next t) :
    Sys2Proof.core.run (k + 1) s = Sys2Proof.core.run k t := by
  have key : ∀ (M : Host.Core) (a b : M.State), M.step a = .next b → M.run (k + 1) a = M.run k b := by
    intro M a b h; simp [Host.Core.run, h]
  exact key Sys2Proof.core s t h

end Sys2Proof.Machine
end

