-- ==== Sys2Proof/Tests/Slice0.lean ====
section
/-! SUPPORT. The model's own tests: ill-formed terms refused, every constructor decoded from a word
written out from the spec, the spec's test vectors (95_test_vectors.md), and for every statement
with hypotheses a concrete witness that meets them. -/

namespace Sys2Proof.Machine

/-- A panel whose registers are numbers. -/
def Panel.forTests : Panel where
  ram := []
  regs := ⟨0, 0, false, false, 0, 0, 0, 0, 0, 0, false, false, 0, 0, 0, 0, false, false, 0⟩
  lost := false
  pulsing := false
  draws := 0

/-- A state with the environment's answers laid down, and that panel. -/
def State.answering (s : State) (env : List EnvAnswer) : State :=
  { s with env := env, panel := Panel.forTests }

end Sys2Proof.Machine

namespace Sys2Proof.Tests

open Sys2Proof.Machine

/-! ## Small states -/

/-- Parameter bytes for the tests; the spec leaves them open. -/
def params : InitParams := ⟨0x11, 0x8B, 0xFE, 0xFF, 0x32, 0x22, 0x40⟩

/-- `G128x64`, `G88x48`, and a canvas of two columns and two pages at panel column 20. -/
def full : State := State.construct (Config.over Geometry.g128x64 params)
def offset : State := State.construct (Config.over (Geometry.g88x48 0) params)
def tiny : State := State.construct (Config.over ⟨2, 16, 20, 0, 4⟩ params)

/-- The next state of an outcome. -/
def after (o : Host.Outcome State Fault Refusal) : Option State :=
  match o with
  | .next t => some t
  | .fault _ => none
  | .refused _ => none

theorem next_of_after (o : Host.Outcome State Fault Refusal) (h : (after o).isSome = true) :
    ∃ t, o = .next t := by
  cases o with
  | next t => exact ⟨t, rfl⟩
  | fault _ => cases h
  | refused _ => cases h

theorem next_such (o : Host.Outcome State Fault Refusal) (p : State → Prop) [DecidablePred p]
    (h : (after o).any (fun t => decide (p t)) = true) : ∃ t, o = .next t ∧ p t := by
  cases o with
  | next t => exact ⟨t, rfl, by simpa [after] using h⟩
  | fault _ => cases h
  | refused _ => cases h

/-- `n` answers `ok`. -/
def oks (n : Nat) : List EnvAnswer := List.replicate n .ok

/-- The events an operation that responds `OK` sends, the first `n` answered `ok`. -/
def sent (i : Instr) (s : State) (n : Nat) : Option (List Event) :=
  match after (exec i (s.answering (oks n))) with
  | some t => if t.seq = .idle ∧ t.resp = ⟨0, 0⟩ then some (t.trace.map Prod.fst) else none
  | none => none

/-! ## Well-formedness: an ill-formed term for each check -/

/-- R76: an argument must fit its field; each row's largest is accepted, the next refused. -/
theorem test_wf_arguments :
    (Instr.opSetLowerColumn 15).WellFormed = true ∧ (Instr.opSetLowerColumn 16).WellFormed = false ∧
    (Instr.opSetHigherColumn 15).WellFormed = true ∧ (Instr.opSetHigherColumn 16).WellFormed = false ∧
    (Instr.opSetPumpVoltage 3).WellFormed = true ∧ (Instr.opSetPumpVoltage 4).WellFormed = false ∧
    (Instr.opSetStartLine 63).WellFormed = true ∧ (Instr.opSetStartLine 64).WellFormed = false ∧
    (Instr.opSegPadsConfig 1).WellFormed = true ∧ (Instr.opSegPadsConfig 2).WellFormed = false ∧
    (Instr.opSetPageAddress 7).WellFormed = true ∧ (Instr.opSetPageAddress 8).WellFormed = false := by
  decide

/-- R10 (1) to (5): heights 12, 0 and 72, width 0, a window past column 127, a wrong buffer size. -/
theorem test_wf_geometry :
    Geometry.g128x64.wf = true ∧ (Geometry.g88x48 7).wf = true ∧
    Geometry.wf ⟨8, 12, 0, 0, 12⟩ = false ∧ Geometry.wf ⟨8, 0, 0, 0, 0⟩ = false ∧
    Geometry.wf ⟨8, 72, 0, 0, 72⟩ = false ∧ Geometry.wf ⟨0, 8, 0, 0, 0⟩ = false ∧
    Geometry.wf ⟨8, 8, 121, 0, 8⟩ = false ∧ Geometry.wf ⟨8, 8, 120, 0, 9⟩ = false := by
  decide

/-- R10 (6) and R76: a misaligned opcode, a fixed form changed, a value row without a value, a row
without a value given one. -/
theorem test_wf_opcodes :
    OpTable.default.wf = true ∧
    OpTable.wf { OpTable.default with setStartLine := ⟨0x41, .cf1a 6⟩ } = false ∧
    OpTable.wf { OpTable.default with setLowerColumn := ⟨0x00, .cf2⟩ } = false ∧
    OpTable.wf { OpTable.default with setHigherColumn := ⟨0x10, .cf1a 3⟩ } = false ∧
    OpTable.wf { OpTable.default with setPageAddress := ⟨0xB0, .cf1a 4⟩ } = false ∧
    OpTable.wf { OpTable.default with setBreathingLight := ⟨0x20, .cf1a 2⟩ } = false ∧
    OpTable.wf { OpTable.default with setContrast := ⟨0x81, .cf1⟩ } = false ∧
    OpTable.wf { OpTable.default with displayOn := ⟨0xAF, .cf2⟩ } = false := by
  decide

/-- R7, R10 (7), R73: the waits, and the width of a pin error. -/
theorem test_wf_config :
    full.cfg.wf = true ∧ offset.cfg.wf = true ∧ tiny.cfg.wf = true ∧
    Config.wf { tiny.cfg with tRstLowUs := 50 } = true ∧
    Config.wf { tiny.cfg with tRstLowUs := 20 } = false ∧
    Config.wf { tiny.cfg with tRstPreMs := 2 } = false ∧
    Config.wf { tiny.cfg with tRstPostMs := 1 } = false ∧
    Config.wf { tiny.cfg with pinErrW := 33 } = false ∧
    Config.wf { tiny.cfg with geom := ⟨0, 8, 0, 0, 0⟩ } = false ∧
    Config.wf { tiny.cfg with
      ops := { OpTable.default with setStartLine := ⟨0x41, .cf1a 6⟩ } } = false := by
  decide

/-! ## Decoding -/

/-- The ten request words of R71: `op`, `A`, `B` in bits 71:64, 63:32, 31:0. -/
theorem test_decode_requests :
    decodeTableWord 72 0x01_00000000_00000000 = some .hardReset ∧
    decodeTableWord 72 0x02_00000000_00000000 = some .init ∧
    decodeTableWord 72 0x03_00000000_00000000 = some .clear ∧
    decodeTableWord 72 0x04_00000000_00000000 = some .flush ∧
    decodeTableWord 72 0x05_0000006B_00000000 = some (.setColumnAddress 107) ∧
    decodeTableWord 72 0x06_00000007_00000000 = some (.setPage 7) ∧
    decodeTableWord 72 0x07_00000001_00000308 = some (.setBreathingEffect true 3 8) ∧
    decodeTableWord 72 0x08_00000000_00000000 = some .getDimensions ∧
    decodeTableWord 72 0x10_7FFFFFFF_80000000 = some (.setPixelOff 0x7FFFFFFF 0x80000000) ∧
    decodeTableWord 72 0x11_00000057_0000002F = some (.setPixelOn 87 47) := by
  decide

/-- The twenty commands of R82, bit by bit; a second byte stands in bits 15:8. -/
theorem test_decode_commands :
    decodeTableWord 8 0b0000_1011 = some (.opSetLowerColumn 11) ∧
    decodeTableWord 8 0b0001_0110 = some (.opSetHigherColumn 6) ∧
    decodeTableWord 16 0b10010011_00100011 = some (.opSetBreathingLight 0x93) ∧
    decodeTableWord 8 0b001100_10 = some (.opSetPumpVoltage 2) ∧
    decodeTableWord 8 0b01_100001 = some (.opSetStartLine 33) ∧
    decodeTableWord 16 0b00110010_10000001 = some (.opSetContrast 0x32) ∧
    decodeTableWord 8 0b10100001 = some .opSegRemapReversed ∧
    decodeTableWord 8 0b1010001_1 = some (.opSegPadsConfig 1) ∧
    decodeTableWord 8 0b10100100 = some .opResumeFromRam ∧
    decodeTableWord 8 0b10100110 = some .opNormalDisplay ∧
    decodeTableWord 16 0b00111111_10101000 = some (.opSetMultiplex 63) ∧
    decodeTableWord 16 0b10001011_10101101 = some (.opSetDcdc 0x8B) ∧
    decodeTableWord 8 0b10101110 = some .opDisplayOff ∧
    decodeTableWord 8 0b10101111 = some .opDisplayOn ∧
    decodeTableWord 8 0b10110_101 = some (.opSetPageAddress 5) ∧
    decodeTableWord 8 0b11001000 = some .opComScanReversed ∧
    decodeTableWord 16 0b00000100_11010011 = some (.opSetDisplayOffset 4) ∧
    decodeTableWord 16 0b00010001_11010101 = some (.opSetClockDiv 0x11) ∧
    decodeTableWord 16 0b00100010_11011001 = some (.opSetPrecharge 0x22) ∧
    decodeTableWord 16 0b01000000_11011011 = some (.opSetVcomDeselect 0x40) := by
  decide

/-- V-RF: the refused request words, and bytes that open with no row of R82. -/
theorem test_decode_refuses :
    (∀ w ∈ [0x00_00000000_00000000, 0x09_00000000_00000000, 0x12_00000000_00000000,
      0xFF_00000000_00000000, 0x03_00000001_00000000, 0x05_00000014_00000001,
      0x07_00000002_00000204, 0x07_00000001_00000604], decodeTableWord 72 w = none) ∧
    (∀ w ∈ [0x20, 0x80, 0xA0, 0xA5, 0xB8, 0xFF], decodeTableWord 8 w = none) ∧
    decodeCommand OpTable.default [0x81] = none ∧ decodeCommand OpTable.default [] = none := by
  decide

/-- Assumption 27, the model's choice: under a table with two rows on one byte, the earlier row. -/
theorem test_decode_shared_byte :
    OpTable.wf { OpTable.default with displayOn := ⟨0xA1, .cf1⟩ } = true ∧
    OpTable.distinct { OpTable.default with displayOn := ⟨0xA1, .cf1⟩ } = false ∧
    decodeCommand { OpTable.default with displayOn := ⟨0xA1, .cf1⟩ } [0xA1] =
      some (.opSegRemapReversed, []) := by
  decide

/-- The encoder, against words of the spec: S6's request, R78's and R79's worked examples. -/
theorem test_encode :
    encode (.setBreathingEffect true 2 4) = (72, 0x07_00000001_00000204) ∧
    encode (.opSetLowerColumn 4) = (8, 0x04) ∧ encode (.opSetHigherColumn 1) = (8, 0x11) ∧
    encode (.opSetPageAddress 5) = (8, 0xB5) ∧ encode (.opSetBreathingLight 0x93) = (16, 0x9323) := by
  decide

/-! ## Pixels -/

/-- V-PX, on: the byte each request sets, from a zero buffer. -/
theorem test_setPixelOn :
    (after (exec (.setPixelOn 0 7) full)).map State.fb = some [(0, 0x80)] ∧
    (after (exec (.setPixelOn 5 10) full)).map State.fb = some [(133, 0x04)] ∧
    (after (exec (.setPixelOn 127 63) full)).map State.fb = some [(1023, 0x80)] ∧
    (after (exec (.setPixelOn 0 8) offset)).map State.fb = some [(88, 0x01)] ∧
    (after (exec (.setPixelOn 3 17) offset)).map State.fb = some [(179, 0x02)] ∧
    (after (exec (.setPixelOn 87 47) offset)).map State.fb = some [(527, 0x80)] := by
  decide

/-- V-PX, the no-ops: nothing changes and the response is `OK`. -/
theorem test_setPixel_clips :
    (∀ i ∈ [Instr.setPixelOn 0xFFFFFFFF 0, .setPixelOn 0 0xFFFFFFFF, .setPixelOn 128 0,
        .setPixelOn 0 64, .setPixelOn 0x80000000 0, .setPixelOff 0x7FFFFFFF 0x7FFFFFFF],
      (after (exec i { full with fb := [(0, 0xFF)] })).map State.fb = some [(0, 0xFF)] ∧
      (after (exec i full)).map State.resp = some ⟨0, 0⟩) ∧
    (after (exec (.setPixelOn 88 0) offset)).map State.fb = some [] ∧
    (after (exec (.setPixelOn 0 48) offset)).map State.fb = some [] := by
  decide

/-- V-PX, off, and S1's two instances. -/
theorem test_setPixelOff :
    (after (exec (.setPixelOff 5 10) { full with fb := [(133, 0xFF)] })).map State.fb =
      some [(133, 0xFB)] ∧
    (after (exec (.setPixelOff 127 63) { full with fb := [(1023, 0xFF)] })).map State.fb =
      some [(1023, 0x7F)] ∧
    (after (exec (.setPixelOff 0 0) { offset with fb := [(0, 0xFF)] })).map State.fb =
      some [(0, 0xFE)] ∧
    (after (exec (.setPixelOff 0 0) { offset with fb := [(0, 0x01)] })).map State.fb = some [] := by
  decide

/-- V-CL. -/
theorem test_clear :
    (after (exec .clear { tiny with fb := [(0, 1), (3, 0xFF)], dstate := .reset })).map
      (fun t => (t.fb, t.trace, t.dstate, t.resp.word)) =
    some ([], [], .reset, 0x00_00000000) := by
  decide

/-- V-CL: `G128x64` responds 0x00_00008040, `G88x48` 0x00_00005830. -/
theorem test_getDimensions :
    (after (exec .getDimensions full)).map (fun t => t.resp.word) = some 0x00_00008040 ∧
    (after (exec .getDimensions offset)).map (fun t => t.resp.word) = some 0x00_00005830 := by
  decide

/-! ## Addressing and flush -/

/-- V-COL. -/
theorem test_setColumnAddress :
    sent (.setColumnAddress 0) tiny 2 = some [.busCmd [0x00], .busCmd [0x10]] ∧
    sent (.setColumnAddress 15) tiny 2 = some [.busCmd [0x0F], .busCmd [0x10]] ∧
    sent (.setColumnAddress 16) tiny 2 = some [.busCmd [0x00], .busCmd [0x11]] ∧
    sent (.setColumnAddress 20) tiny 2 = some [.busCmd [0x04], .busCmd [0x11]] ∧
    sent (.setColumnAddress 107) tiny 2 = some [.busCmd [0x0B], .busCmd [0x16]] ∧
    sent (.setColumnAddress 127) tiny 2 = some [.busCmd [0x0F], .busCmd [0x17]] ∧
    sent (.setColumnAddress 128) tiny 0 = some [] ∧
    sent (.setColumnAddress 0xFFFFFFFF) tiny 0 = some [] := by
  decide

/-- V-COL, the second event failing. -/
theorem test_setColumnAddress_fails :
    (after (exec (.setColumnAddress 20) (tiny.answering [.ok, .fail 3]))).map
      (fun t => (t.trace, t.resp.word, t.dstate, t.seq)) =
    some ([(.busCmd [0x04], .ok), (.busCmd [0x11], .fail)], 0x01_00000000, .unpowered, .idle) := by
  decide

/-- V-PG. -/
theorem test_setPage :
    sent (.setPage 0) offset 1 = some [.busCmd [0xB0]] ∧
    sent (.setPage 5) offset 1 = some [.busCmd [0xB5]] ∧
    sent (.setPage 7) offset 1 = some [.busCmd [0xB7]] ∧ sent (.setPage 8) offset 0 = some [] := by
  decide

/-- R112 on two columns and two pages at panel column 20. -/
theorem test_flush :
    (after (exec .flush ({ tiny with fb := [(1, 0x06), (2, 0x80)] }.answering (oks 8)))).map
      (fun t => t.trace.map Prod.fst) =
    some [.busCmd [0xB0], .busCmd [0x04], .busCmd [0x11], .busData [0x00, 0x06],
      .busCmd [0xB1], .busCmd [0x04], .busCmd [0x11], .busData [0x80, 0x00]] := by
  decide

/-- R51, R58: where those bytes land. -/
theorem test_flush_panel :
    (after (exec .flush ({ tiny with fb := [(1, 0x06), (2, 0x80)] }.answering (oks 8)))).map
      (fun t => t.panel.ram) =
    some [(20, 0x00), (21, 0x06), (148, 0x80), (149, 0x00)] := by
  decide

/-- V-FL, V-IN: the counts of the two variants. -/
theorem test_event_counts :
    (flushEventList full.cfg []).length = 32 ∧ (flushEventList offset.cfg []).length = 24 ∧
    (initEventList full.cfg).length = 54 ∧ (initEventList offset.cfg).length = 46 ∧
    (initEventList full.cfg)[8]? = some (.busCmd [0xA8, 0x3F]) ∧
    (initEventList offset.cfg)[8]? = some (.busCmd [0xA8, 0x2F]) := by
  decide

/-! ## Hard reset and initialisation -/

/-- V-HR. -/
theorem test_hardReset :
    (after (exec .hardReset (tiny.answering (oks 6)))).map
      (fun t => (t.trace.map Prod.fst, t.rst, t.dstate, t.resp)) =
    some ([.pinHigh, .delayMs 1, .pinLow, .delayUs 10, .pinHigh, .delayMs 2], .high, .reset,
      ⟨0, 0⟩) := by
  decide

/-- V-HR, the release failing with `fail(7)`. -/
theorem test_hardReset_fails :
    (after (exec .hardReset (tiny.answering (oks 4 ++ [.fail 7])))).map
      (fun t => (t.resp.word, t.rst, t.dstate, t.trace.drop 4)) =
    some (0x02_00000007, .low, .unpowered, [(.pinHigh, .failPin 7)]) := by
  decide

/-- P1's list, on the small canvas: the parameter bytes are the test's. -/
theorem test_init :
    (after (exec .init ({ tiny with fb := [(0, 0xFF)] }.answering (oks 30)))).map
      (fun t => (t.trace.map Prod.fst, t.fb, t.dstate, t.rst)) =
    some ([.pinHigh, .delayMs 1, .pinLow, .delayUs 10, .pinHigh, .delayMs 2, .busCmd [0xAE],
      .busCmd [0xD5, 0x11], .busCmd [0xA8, 0x0F], .busCmd [0xD3, 0x00], .busCmd [0x40],
      .busCmd [0xAD, 0x8B], .busCmd [0x32], .busCmd [0xA1], .busCmd [0xC8], .busCmd [0xA3],
      .busCmd [0x81, 0x32], .busCmd [0xD9, 0x22], .busCmd [0xDB, 0x40],
      .busCmd [0xB0], .busCmd [0x04], .busCmd [0x11], .busData [0, 0],
      .busCmd [0xB1], .busCmd [0x04], .busCmd [0x11], .busData [0, 0],
      .busCmd [0xA4], .busCmd [0xA6], .busCmd [0xAF]], [], .displaying, .high) := by
  decide

/-- V-IN, failures at positions 18 (CLEAR not reached) and 19 (CLEAR done). -/
theorem test_init_fails :
    (after (exec .init ({ tiny with fb := [(0, 0xFF)] }.answering (oks 18 ++ [EnvAnswer.fail 1])))).map
      (fun t => (t.fb, t.dstate, t.resp.word)) = some ([(0, 0xFF)], .unpowered, 0x01_00000000) ∧
    (after (exec .init ({ tiny with fb := [(0, 0xFF)] }.answering (oks 19 ++ [EnvAnswer.fail 1])))).map
      (fun t => (t.fb, t.dstate, t.resp.word)) = some ([], .unpowered, 0x01_00000000) := by
  decide

/-! ## Breathing light -/

/-- V-BR. -/
theorem test_setBreathingEffect :
    sent (.setBreathingEffect true 2 4) tiny 1 = some [.busCmd [0x23, 0x93]] ∧
    sent (.setBreathingEffect false 0 1) tiny 1 = some [.busCmd [0x23, 0x00]] ∧
    sent (.setBreathingEffect true 3 8) tiny 1 = some [.busCmd [0x23, 0x9F]] ∧
    sent (.setBreathingEffect true 1 1) tiny 1 = some [.busCmd [0x23, 0x88]] ∧
    sent (.setBreathingEffect false 2 4) tiny 1 = some [.busCmd [0x23, 0x13]] ∧
    sent (.setBreathingEffect true 0 8) tiny 1 = some [.busCmd [0x23, 0x87]] ∧
    sent (.setBreathingEffect true 2 0) tiny 0 = some [] ∧
    sent (.setBreathingEffect true 2 9) tiny 0 = some [] ∧
    sent (.setBreathingEffect false 0 255) tiny 0 = some [] := by
  decide

/-! ## Commands at the panel's input -/

/-- The bytes of R78's worked example move the column pointer to 20, and a page command the page. -/
theorem test_panel_pointers :
    (after (Sys2Proof.core.run 3
      { tiny.answering [] with panelIn := [0x04, 0x11, 0xB5] })).map
      (fun t => (t.panel.regs.cp, t.panel.regs.pp, t.panelIn)) = some (20, 5, []) := by
  decide

/-- A two-byte command takes its parameter with it. -/
theorem test_panel_contrast :
    (after (step { tiny.answering [] with panelIn := [0x81, 0x32, 0xAF] })).map
      (fun t => (t.panel.regs.contrast, t.panelIn)) = some (0x32, [0xAF]) := by
  decide

/-- Placed where the next step takes it, an instruction runs. -/
theorem test_placed :
    (after (step (full.withFetchWord 72 0x11_00000005_0000000A))).map State.fb =
      some [(133, 0x04)] ∧
    (after (step ((tiny.answering []).withFetchWord 8 0xAF))).map
      (fun t => (t.panel.regs.displayOn, t.panelIn)) = some (true, []) := by
  decide

/-! ## Waiting -/

/-- A block whose second event is not answered waits at it and takes no request. -/
def waiting : State :=
  (after (exec .hardReset { tiny.answering [.ok, .pending] with requests := [0] })).getD tiny

theorem test_waits :
    waiting.seq = .busy 1 ∧ waiting.trace = [(.pinHigh, .ok)] ∧ waiting.rst = .high ∧
    (after (step { waiting with env := oks 5 })).map (fun t => (t.seq, t.dstate, t.requests)) =
      some (.idle, .reset, [0]) := by
  decide

/-! ## Witnesses: a state and operands that meet each statement's hypotheses -/

/-- Whatever answers are laid down, `tiny.answering env` is a well-formed idle block with a panel in
a known state: the witnesses below that give one `env` per clause rest on it. -/
theorem witness_answering (env : List EnvAnswer) :
    (tiny.answering env).cfg.wf = true ∧ (tiny.answering env).seq = .idle ∧
    (tiny.answering env).panelIn = [] ∧ (tiny.answering env).panel.lost = false ∧
    (tiny.answering env).cfg = tiny.cfg ∧ (tiny.answering env).env = env :=
  ⟨show tiny.cfg.wf = true by decide, rfl, rfl, rfl, rfl, rfl⟩

theorem witness_ConstructionMeetsInvariants :
    full.cfg.wf = true ∧ offset.cfg.wf = true ∧ Config.default.wf = true := by
  decide

/-- An idle block with a request, and one that waits. -/
def idleWithRequest : State := { tiny with
  requests := [requestOf 0x03 0 0], trace := [(.delayMs 1, .ok)], fb := [(3, 1)] }

theorem witness_inv_idle : idleWithRequest.Inv :=
  ⟨by decide, by decide, by decide, by decide, by decide, (fun _ h => by cases h), by decide⟩

theorem witness_inv_waiting : waiting.Inv :=
  ⟨by decide, by decide, by decide, by decide, by decide, (fun k h => by
    rw [show waiting.seq = .busy 1 by decide] at h
    cases h
    decide), by decide⟩

theorem witness_StepKeepsStructuralInvariant :
    (idleWithRequest.Inv ∧ ∃ t, step idleWithRequest = .next t) ∧
    (waiting.Inv ∧ ∃ t, step { waiting with env := oks 5 } = .next t) :=
  ⟨⟨witness_inv_idle, next_of_after _ (by decide)⟩,
    ⟨witness_inv_waiting, next_of_after _ (by decide)⟩⟩

theorem witness_driverInv_idle : idleWithRequest.DriverInv :=
  ⟨by decide, (fun _ => by unfold State.lineLaw; decide), (fun _ _ h => by cases h)⟩

theorem witness_driverInv_waiting : waiting.DriverInv :=
  ⟨by decide, (fun h => by
    rw [show waiting.seq = .busy 1 by decide] at h
    cases h), (fun k i h hi => by
    rw [show waiting.seq = .busy 1 by decide] at h
    rw [show waiting.latched = some .hardReset by decide] at hi
    cases h
    cases hi
    unfold State.phaseLaw State.lineLaw
    decide)⟩

theorem witness_StepKeepsDriverStateInvariant :
    (idleWithRequest.Inv ∧ idleWithRequest.DriverInv ∧ ∃ t, step idleWithRequest = .next t) ∧
    (waiting.Inv ∧ waiting.DriverInv) :=
  ⟨⟨witness_inv_idle, witness_driverInv_idle, next_of_after _ (by decide)⟩,
    ⟨witness_inv_waiting, witness_driverInv_waiting⟩⟩

theorem witness_StepKeepsTraceLawful :
    idleWithRequest.Inv ∧ idleWithRequest.TraceLaw ∧ ∃ t, step idleWithRequest = .next t :=
  ⟨witness_inv_idle, (fun e he => by
    simp only [idleWithRequest, List.mem_singleton] at he
    subst he
    exact rfl), next_of_after _ (by decide)⟩

theorem witness_TraceGrowsAndConfigStays : ∃ t, step idleWithRequest = .next t :=
  next_of_after _ (by decide)

theorem witness_NoStepFaultsUnderInvariant : idleWithRequest.Inv ∧ waiting.Inv :=
  ⟨witness_inv_idle, witness_inv_waiting⟩

/-- Both pixel statements: off the canvas on each of its four sides, and its two corners. -/
theorem witness_SetPixelResults :
    full.cfg.wf = true ∧ full.seq = .idle ∧
    (BitVec.toInt (0xFFFFFFFF : Word) < 0 ∧ full.cfg.geom.width.toNat ≤ BitVec.toInt (128 : Word) ∧
      full.cfg.geom.height.toNat ≤ BitVec.toInt (64 : Word)) ∧
    (0 ≤ BitVec.toInt (0 : Word) ∧ BitVec.toInt (127 : Word) < full.cfg.geom.width.toNat ∧
      BitVec.toInt (63 : Word) < full.cfg.geom.height.toNat) := by
  decide

theorem witness_ClearResult : idleWithRequest.cfg.wf = true ∧ idleWithRequest.seq = .idle := by decide

theorem witness_GetDimensionsResult : offset.cfg.wf = true ∧ offset.seq = .idle := by decide

theorem witness_PixelMappingIsBijection :
    Geometry.g128x64.wf = true ∧ inCanvas Geometry.g128x64 0 0 = true ∧
    inCanvas Geometry.g128x64 127 63 = true ∧ 1023 < Geometry.g128x64.bufferSize := by
  decide

theorem witness_PixelOperationAlgebra :
    idleWithRequest.cfg.wf = true ∧ idleWithRequest.seq = .idle ∧ idleWithRequest.fb.wf = true ∧
    inCanvas idleWithRequest.cfg.geom 1 15 = true ∧ inCanvas idleWithRequest.cfg.geom 2 0 = false ∧
    ((0, 1) : Nat × Nat) ≠ ((BitVec.toNat (1 : Word), BitVec.toNat (15 : Word))) ∧
    ((1, 15) : Word × Word) ≠ (0, 0) := by
  decide

theorem witness_DrawBatchAppliesEveryPixel :
    ({ tiny with requests := drawRequests [⟨1, 2, true⟩, ⟨1, 2, false⟩] ++ [0] } : State).requests =
      drawRequests [⟨1, 2, true⟩, ⟨1, 2, false⟩] ++ [0] ∧
    tiny.cfg.wf = true ∧ tiny.seq = .idle ∧ tiny.panelIn = [] := by
  decide

/-- The clauses' boundaries: 127 and 128, and the three lists of answers. -/
theorem witness_SetColumnAddressResult :
    tiny.cfg.wf = true ∧ tiny.seq = .idle ∧ 127 < BitVec.toNat (128 : Word) ∧
    BitVec.toNat (127 : Word) ≤ 127 ∧ (tiny.answering [.ok, .ok]).env = .ok :: .ok :: [] ∧
    (tiny.answering [.fail 1]).env = .fail 1 :: [] ∧
    (tiny.answering [.ok, .fail 1]).env = .ok :: .fail 1 :: [] := by
  decide

theorem witness_SetPageResult :
    tiny.cfg.wf = true ∧ tiny.seq = .idle ∧ 7 < BitVec.toNat (8 : Word) ∧
    BitVec.toNat (7 : Word) ≤ 7 ∧ (tiny.answering [.ok]).env = .ok :: [] ∧
    (tiny.answering [.fail 1]).env = .fail 1 :: [] := by
  decide

theorem witness_FlushEmitsItsEventList :
    tiny.cfg.wf = true ∧ tiny.seq = .idle ∧
    (flushEventList tiny.cfg tiny.fb).length = 8 ∧
    (tiny.answering (oks 8)).env = List.replicate 8 .ok ++ [] ∧
    (flushEventList tiny.cfg tiny.fb)[7]? = some (Event.busData [0, 0]) ∧
    (tiny.answering (oks 7 ++ [.fail 1])).env = List.replicate 7 .ok ++ .fail 1 :: [] := by
  decide

theorem witness_CommandsReachThePanel :
    tiny.cfg.wf = true ∧ tiny.seq = .idle ∧ (tiny.answering (oks 2)).panel.lost = false ∧
    BitVec.toNat (127 : Word) ≤ 127 ∧ (tiny.answering (oks 2)).env = .ok :: .ok :: [] ∧
    BitVec.toNat (7 : Word) ≤ 7 ∧ 1 ≤ BitVec.toNat (1 : Byte) ∧ BitVec.toNat (8 : Byte) ≤ 8 := by
  decide

theorem witness_HardResetPulsesTheLine :
    tiny.cfg.wf = true ∧ tiny.seq = .idle ∧
    (tiny.answering (oks 6)).env = List.replicate 6 .ok ++ [] := by
  decide

theorem witness_HardResetPinFailure :
    tiny.cfg.wf = true ∧ tiny.seq = .idle ∧ tiny.cfg.pinPresent = true ∧
    (tiny.answering [.fail 7]).env = .fail 7 :: [] ∧
    (tiny.answering [.ok, .ok, .fail 7]).env = .ok :: .ok :: .fail 7 :: [] ∧
    (tiny.answering (oks 4 ++ [.fail 7])).env = .ok :: .ok :: .ok :: .ok :: .fail 7 :: [] := by
  decide

theorem witness_HardResetWithoutPinSucceeds :
    let c : Config := { tiny.cfg with pinPresent := false }
    let answers : List EnvAnswer := [.fail 1, .ok, .fail 2, .ok, .fail 3, .ok]
    c.wf = true ∧ c.pinPresent = false ∧ answers.length = 6 ∧ .pending ∉ answers := by
  decide

theorem witness_InitEmitsItsEventList :
    tiny.cfg.wf = true ∧ tiny.seq = .idle ∧
    (initEventList tiny.cfg).length = 30 ∧
    (tiny.answering (oks 30)).env = List.replicate 30 .ok ++ [] := by
  decide

/-- The pin events, the first bus event, the events on both sides of CLEAR, and the last. -/
theorem witness_InitFirstFailure :
    tiny.cfg.wf = true ∧ tiny.seq = .idle ∧ tiny.cfg.pinPresent = true ∧
    (∀ q ∈ [(0, Event.pinHigh), (2, .pinLow), (4, .pinHigh), (6, .busCmd [0xAE]),
        (18, .busCmd [0xDB, 0x40]), (19, .busCmd [0xB0]), (29, .busCmd [0xAF])],
      (initEventList tiny.cfg)[q.1]? = some q.2) ∧
    (tiny.answering (oks 19 ++ [.fail 1])).env = List.replicate 19 .ok ++ .fail 1 :: [] := by
  decide

/-- Both sides of each change of `dstate` and of CLEAR, the first event and the last. -/
theorem witness_InitWaitsAtEachEvent :
    tiny.cfg.wf = true ∧ tiny.seq = .idle ∧
    ∀ k ∈ [0, 5, 6, 7, 18, 19, 29], k < (initEventList tiny.cfg).length ∧
      (tiny.answering (oks k ++ [.pending])).env = List.replicate k .ok ++ .pending :: [] := by
  decide

theorem witness_InitOrderIsKept :
    tiny.cfg.wf = true ∧ tiny.seq = .idle ∧ tiny.cfg.ops.distinct = true ∧
    (after (exec .init (tiny.answering (oks 30)))).map (fun t => (t.seq, t.resp.status)) =
      some (.idle, 0x00) := by
  decide

theorem witness_SetBreathingEffectResult :
    tiny.cfg.wf = true ∧ tiny.seq = .idle ∧
    (BitVec.toNat (0 : Byte) = 0 ∧ 8 < BitVec.toNat (9 : Byte)) ∧
    (1 ≤ BitVec.toNat (1 : Byte) ∧ BitVec.toNat (8 : Byte) ≤ 8) ∧
    (tiny.answering [.ok]).env = .ok :: [] ∧ (tiny.answering [.fail 1]).env = .fail 1 :: [] := by
  decide

/-- Statements about an operation that ended: with `OK`, with each error. -/
theorem witness_ended_operations :
    (encodeRequest .hardReset).isSome = true ∧ (encodeRequest .flush).isSome = true ∧
    (after (exec .flush (tiny.answering (oks 8)))).map (fun t => (t.seq, t.resp.status)) =
      some (.idle, 0x00) ∧
    (after (exec .flush (tiny.answering [.fail 1]))).map (fun t => (t.seq, t.resp.status)) =
      some (.idle, 0x01) ∧
    (after (exec .hardReset (tiny.answering [.fail 1]))).map (fun t => (t.seq, t.resp.status)) =
      some (.idle, 0x02) := by
  decide

theorem witness_ErrorsByOperation : (encodeRequest .hardReset).isSome = true ∧
    ∃ t, exec .hardReset (tiny.answering [.fail 1]) = .next t ∧ t.seq = .idle :=
  ⟨rfl, next_such _ (fun t => t.seq = .idle) (by decide)⟩

theorem witness_AbortIsPrecise : (encodeRequest .hardReset).isSome = true ∧
    ∃ t, exec .hardReset (tiny.answering [.fail 1]) = .next t ∧
      (t.seq = .idle ∧ t.resp.status ≠ 0x00) :=
  ⟨rfl, next_such _ (fun t => t.seq = .idle ∧ t.resp.status ≠ 0x00) (by decide)⟩

theorem witness_ErrorLeavesUnpowered : (encodeRequest .init).isSome = true ∧
    ∃ t, exec .init (tiny.answering [.fail 1]) = .next t ∧
      (t.seq = .idle ∧ t.resp.status ≠ 0x00) :=
  ⟨rfl, next_such _ (fun t => t.seq = .idle ∧ t.resp.status ≠ 0x00) (by decide)⟩

theorem witness_panel_known : (tiny.answering []).panel.lost = false := by decide

/-- A panel in an unknown state, with its registers and a RAM cell known all the same. -/
def tinyLost : State := { tiny.answering (oks 8) with
  panel := { Panel.forTests with lost := true, ram := [(20, 1)] } }

theorem witness_PanelCommandInUnknownState :
    encodeRequest .opDisplayOn = none ∧ (tiny.answering []).panel.lost = false ∧
    tinyLost.panel.lost = true ∧ tinyLost.panel.known 0 20 = some 1 ∧
    (after (exec .flush (tiny.answering [.fail 1]))).map (fun t => t.panel.lost) = some true := by
  decide

theorem witness_FlushMirrorsFramebuffer :
    tiny.cfg.wf = true ∧ tiny.seq = .idle ∧ (tiny.answering (oks 8)).panel.lost = false ∧
    (tiny.answering (oks 8)).env = List.replicate (4 * tiny.cfg.geom.pages) .ok ++ [] ∧
    1 < tiny.cfg.geom.pages ∧ 1 < tiny.cfg.geom.width.toNat ∧
    ¬(1 < tiny.cfg.geom.pages ∧ tiny.cfg.geom.offsetX.toNat ≤ 22 ∧
      22 < tiny.cfg.geom.offsetX.toNat + tiny.cfg.geom.width.toNat) := by
  decide

/-- The clause about a panel in an unknown state. -/
theorem witness_FlushMirrorsFramebuffer_lost :
    tinyLost.cfg.wf = true ∧ tinyLost.seq = .idle ∧ tinyLost.panel.lost = true ∧
    tinyLost.env = List.replicate (4 * tinyLost.cfg.geom.pages) .ok ++ [] := by
  decide

theorem witness_InitBlanksThePanel :
    tiny.cfg.wf = true ∧ tiny.seq = .idle ∧ tiny.cfg.pinPresent = true ∧
    (tiny.answering (oks 30)).panel.lost = false ∧
    (tiny.answering (oks 30)).env =
      List.replicate (6 + 13 + 4 * tiny.cfg.geom.pages + 3) .ok ++ [] := by
  decide

/-- The small block without a wired reset line. -/
def tinyUnwired : State := { tiny.answering (oks 30) with cfg := { tiny.cfg with pinPresent := false } }

/-- The unwired case; and the wired one from an unknown state. -/
theorem witness_InitBlanksThePanel_cases :
    tinyUnwired.cfg.wf = true ∧ tinyUnwired.seq = .idle ∧ tinyUnwired.cfg.pinPresent = false ∧
    tinyUnwired.panel.lost = false ∧
    tinyUnwired.env = List.replicate (6 + 13 + 4 * tinyUnwired.cfg.geom.pages + 3) .ok ++ [] ∧
    tinyLost.cfg.pinPresent = true ∧ tinyLost.panel.lost = true := by
  decide

theorem witness_StepRunsDecodedRequest :
    idleWithRequest.cfg.wf = true ∧ idleWithRequest.panelIn = [] ∧ idleWithRequest.seq = .idle ∧
    idleWithRequest.requests = requestOf 0x03 0 0 :: [] ∧
    decodeRequest (requestOf 0x03 0 0) = some .clear := by
  decide

theorem witness_StepRunsPanelCommand :
    tiny.cfg.wf = true ∧ ([0x81, 0x32, 0xAF] : List Byte) ≠ [] ∧
    decodeCommand tiny.cfg.ops [0x81, 0x32, 0xAF] = some (.opSetContrast 0x32, [0xAF]) := by
  decide

theorem witness_PlacedInstructionRunsNext :
    tiny.cfg.wf = true ∧ 16 < 72 ∧
    decodeRequest (BitVec.ofNat 72 0x04_00000000_00000000) = some .flush ∧
    decodeCommand tiny.cfg.ops (commandBytes 0x93_23) = some (.opSetBreathingLight 0x93, []) := by
  decide

theorem witness_HostOperationFrame :
    (encodeRequest (.setPage 5)).isSome = true ∧ tiny.cfg.wf = true ∧ tiny.seq = .idle ∧
    operationEvents tiny.cfg (.setPage 8) = [] ∧ (.setPage 5 : Instr) ≠ .init ∧
    (.setPage 5 : Instr) ≠ .clear ∧ (.setPage 5 : Instr) ≠ .hardReset := by
  decide

theorem witness_ReservedRequestsAreRefused :
    tiny.cfg.wf = true ∧ tiny.panelIn = [] ∧ tiny.seq = .idle ∧
    ({ tiny with requests := [0x09_00000000_00000000] } : State).requests =
      0x09_00000000_00000000 :: [] ∧
    decodeRequest 0x09_00000000_00000000 = none := by
  decide

theorem witness_BusyHoldsRequests :
    waiting.cfg.wf = true ∧ waiting.seq = .busy 1 ∧ waiting.panelIn = [] ∧
    (encodeRequest .clear).isSome = true ∧
    (after (step { waiting with env := oks 5 })).isSome = true := by
  decide

theorem witness_UnansweredEventWaits : ({ waiting with env := [.pending] } : State).Inv ∧
    waiting.panelIn = [] ∧ waiting.seq = .busy 1 :=
  ⟨⟨by decide, by decide, by decide, by decide, by decide, (fun k h => by
    rw [show ({ waiting with env := [.pending] } : State).seq = .busy 1 by decide] at h
    cases h
    decide), by decide⟩, by decide, by decide⟩

theorem witness_SuspendedOperationResumes :
    tiny.cfg.wf = true ∧ tiny.seq = .idle ∧ tiny.panelIn = [] ∧
    29 < (operationEvents tiny.cfg .init).length := by
  decide

theorem witness_IdleBlockDoesNothing :
    tiny.cfg.wf = true ∧ tiny.panelIn = [] ∧ tiny.seq = .idle ∧ tiny.requests = [] := by
  decide

theorem witness_IllFormedConfigIsRefused :
    ({ tiny.cfg with tRstLowUs := 20 } : Config).wf = false ∧
    ({ tiny.cfg with tRstPreMs := 5 } : Config).wf = false ∧
    ({ tiny.cfg with pinErrW := 33 } : Config).wf = false ∧
    ({ tiny.cfg with ops := { OpTable.default with setContrast := ⟨0x81, .cf1⟩ } } : Config).wf = false ∧
    (encodeRequest .flush).isSome = true := by
  decide

theorem witness_step_next_and_refused : (∃ t, step idleWithRequest = .next t) ∧
    step { tiny with requests := [0] } = .refused (.reservedRequest 0) :=
  ⟨next_of_after _ (by decide), rfl⟩

theorem witness_CommandRoundTrip :
    OpTable.default.wf = true ∧ OpTable.default.distinct = true ∧
    (Instr.opSetStartLine 63).wfIn OpTable.default = true ∧
    encodeRequest (.opSetStartLine 63) = none := by
  decide

end Sys2Proof.Tests
end

section
/-! PROOFS. The pixel-to-byte mapping (20_memory.md R42): the canvas test in unsigned coordinates, the
bits of the mask, the byte index as quotient and remainder by the width, and the pixel of a bit of
`FB`. -/

namespace Sys2Proof.Machine

/-- A word is a coordinate of a byte-sized range, read as a signed integer, exactly when its unsigned
value is: a negative word's unsigned value is past every byte (R13, R40). -/
theorem toInt_inRange_iff (a : Word) (n : Byte) :
    (0 ≤ a.toInt ∧ a.toInt < n.toNat) ↔ a.toNat < n.toNat := by
  have hn := n.isLt
  rw [BitVec.toInt_eq_toNat_cond]
  split <;> omega

/-- The canvas test in unsigned coordinates (R40). -/
theorem inCanvas_iff {g : Geometry} {x y : Word} :
    inCanvas g x y = true ↔ x.toNat < g.width.toNat ∧ y.toNat < g.height.toNat := by
  simp only [inCanvas, Bool.and_eq_true, decide_eq_true_eq, ← toInt_inRange_iff, and_assoc]

/-- A word below a byte's value is non-negative, so both readings of it agree (R13). -/
theorem toInt_eq_toNat_of_lt_byte {a : Word} {n : Byte} (h : a.toNat < n.toNat) :
    a.toInt = a.toNat := by
  have hn := n.isLt
  exact BitVec.toInt_eq_toNat_of_lt (by omega)

/-- The mask has exactly the pixel's bit (R42). -/
theorem pixelMask_getLsbD (y : Word) {b : Nat} (hb : b < 8) :
    (pixelMask y).getLsbD b = decide (b = y.toNat % 8) := by
  rw [pixelMask, BitVec.getLsbD_shiftLeft, BitVec.getLsbD_one, Bool.eq_iff_iff]
  simp only [Bool.and_eq_true, Bool.not_eq_true', decide_eq_true_eq, decide_eq_false_iff_not]
  omega

/-- The byte index modulo the width is the column. -/
theorem byteIndex_mod_width {g : Geometry} {x y : Word} (hx : x.toNat < g.width.toNat) :
    byteIndex g x y % g.width.toNat = x.toNat := by
  rw [byteIndex, Nat.add_mul_mod_self_right, Nat.mod_eq_of_lt hx]

/-- The byte index divided by the width is the page. -/
theorem byteIndex_div_width {g : Geometry} {x y : Word} (hx : x.toNat < g.width.toNat) :
    byteIndex g x y / g.width.toNat = y.toNat / 8 := by
  rw [byteIndex, Nat.add_mul_div_right _ _ (by omega), Nat.div_eq_of_lt hx, Nat.zero_add]

/-- A byte is in `FB` exactly when its page is one of the canvas (R41). -/
theorem lt_bufferSize_iff {g : Geometry} (hg : g.wf = true) {i : Nat} :
    i < g.bufferSize ↔ i / g.width.toNat < g.pages := by
  obtain ⟨-, -, -, hwidth, -, -⟩ := Geometry.wf_parts hg
  rw [← Geometry.pages_mul_width hg, Nat.div_lt_iff_lt_mul hwidth]

/-- A row is on the canvas exactly when its page is (R10 (1): the height is whole pages). -/
theorem div_eight_lt_pages_iff {g : Geometry} (hg : g.wf = true) {v : Nat} :
    v / 8 < g.pages ↔ v < g.height.toNat := by
  obtain ⟨hheight, -, -, -, -, -⟩ := Geometry.wf_parts hg
  rw [Geometry.pages]
  omega

/-- R42's bound: the byte of a canvas pixel is inside `FB`. -/
theorem byteIndex_lt_bufferSize {g : Geometry} {x y : Word} (hg : g.wf = true)
    (hc : inCanvas g x y = true) : byteIndex g x y < g.bufferSize := by
  obtain ⟨hx, hy⟩ := inCanvas_iff.mp hc
  rw [lt_bufferSize_iff hg, byteIndex_div_width hx]
  exact (div_eight_lt_pages_iff hg).mpr hy

/-- On the canvas the signed reading of R42's formula is the unsigned one. -/
theorem byteIndex_eq_signed {g : Geometry} {x y : Word} (hc : inCanvas g x y = true) :
    (byteIndex g x y : Int) = x.toInt + y.toInt / 8 * g.width.toNat := by
  obtain ⟨hx, hy⟩ := inCanvas_iff.mp hc
  rw [toInt_eq_toNat_of_lt_byte hx, toInt_eq_toNat_of_lt_byte hy, byteIndex]
  push_cast
  rfl

/-- R42's inverse: the column of byte `i`. -/
def columnOfByte (g : Geometry) (i : Nat) : Word := BitVec.ofNat 32 (i % g.width.toNat)

/-- R42's inverse: the row of bit `b` of byte `i`. -/
def rowOfBit (g : Geometry) (i b : Nat) : Word := BitVec.ofNat 32 (8 * (i / g.width.toNat) + b)

section
variable {g : Geometry} {i b : Nat} (hg : g.wf = true) (hi : i < g.bufferSize) (hb : b < 8)
include hg

/-- The remainder by the width is a column (R10 (4): the width is positive). -/
theorem mod_width_lt_width : i % g.width.toNat < g.width.toNat := by
  obtain ⟨-, -, -, hwidth, -, -⟩ := Geometry.wf_parts hg
  exact Nat.mod_lt _ hwidth

theorem columnOfByte_toNat : (columnOfByte g i).toNat = i % g.width.toNat := by
  have hlt := mod_width_lt_width (i := i) hg
  have hbyte := g.width.isLt
  rw [columnOfByte, BitVec.toNat_ofNat]
  exact Nat.mod_eq_of_lt (by omega)

include hi hb

/-- The row of a bit of `FB` is on the canvas. -/
theorem rowIndex_lt_height : 8 * (i / g.width.toNat) + b < g.height.toNat := by
  have hpage := (lt_bufferSize_iff hg).mp hi
  rw [← div_eight_lt_pages_iff hg]
  omega

theorem rowOfBit_toNat : (rowOfBit g i b).toNat = 8 * (i / g.width.toNat) + b := by
  have hlt := rowIndex_lt_height hg hi hb
  have hbyte := g.height.isLt
  rw [rowOfBit, BitVec.toNat_ofNat]
  exact Nat.mod_eq_of_lt (by omega)

/-- The inverse answers a canvas pixel for every bit of `FB`. -/
theorem inCanvas_columnOfByte_rowOfBit :
    inCanvas g (columnOfByte g i) (rowOfBit g i b) = true := by
  rw [inCanvas_iff, columnOfByte_toNat hg, rowOfBit_toNat hg hi hb]
  exact ⟨mod_width_lt_width hg, rowIndex_lt_height hg hi hb⟩

/-- The mapping takes the inverse's pixel back to its byte. -/
theorem byteIndex_columnOfByte_rowOfBit :
    byteIndex g (columnOfByte g i) (rowOfBit g i b) = i := by
  have hpage : (8 * (i / g.width.toNat) + b) / 8 = i / g.width.toNat := by omega
  rw [byteIndex, columnOfByte_toNat hg, rowOfBit_toNat hg hi hb, hpage, Nat.mod_add_div']

/-- The mapping takes the inverse's pixel back to its bit. -/
theorem rowOfBit_mod_eight : (rowOfBit g i b).toNat % 8 = b := by
  rw [rowOfBit_toNat hg hi hb]
  omega

end

/-- Settles O12: remainder and quotient of the byte index by the width are the column and the page,
and the inverse's pixel is on the canvas because `FB` is whole pages. -/
theorem pixelMappingIsBijection : Obligations.PixelMappingIsBijection := by
  intro g hg
  refine ⟨fun x y hc => ?_, fun i b hi hb => ?_⟩
  · obtain ⟨hx, -⟩ := inCanvas_iff.mp hc
    refine ⟨byteIndex_lt_bufferSize hg hc, byteIndex_eq_signed hc, fun b => pixelMask_getLsbD y,
      (byteIndex_mod_width hx).symm, ?_⟩
    rw [byteIndex_div_width hx, Nat.div_add_mod]
  · exact ⟨columnOfByte g i, rowOfBit g i b, inCanvas_columnOfByte_rowOfBit hg hi hb,
      byteIndex_columnOfByte_rowOfBit hg hi hb, rowOfBit_mod_eight hg hi hb,
      columnOfByte_toNat hg, rowOfBit_toNat hg hi hb⟩

end Sys2Proof.Machine
end

section
/-! PROOFS. The pixel and framebuffer operations (40_pixel_ops.md R100 to R102, R104): a drawn point as
a function on framebuffers, what it does to each bit, and the operations as that function. -/

namespace Sys2Proof.Machine

/-! ## One byte, one bit -/

/-- The read-modify-write of R100 (OR with the mask) and R101 (AND with its complement) on a byte. -/
def pixelByte (on : Bool) (y : Word) (old : Byte) : Byte :=
  if on then old ||| pixelMask y else old &&& ~~~(pixelMask y)

/-- The pixel's bit takes the colour, the seven siblings stay. -/
theorem pixelByte_getLsbD (on : Bool) (y : Word) (old : Byte) {b : Nat} (hb : b < 8) :
    (pixelByte on y old).getLsbD b = if b = y.toNat % 8 then on else old.getLsbD b := by
  cases on with
  | true =>
    simp only [pixelByte, if_true, BitVec.getLsbD_or, pixelMask_getLsbD y hb]
    by_cases h : b = y.toNat % 8 <;> simp [h]
  | false =>
    simp only [pixelByte, Bool.false_eq_true, if_false, BitVec.getLsbD_and, BitVec.getLsbD_not,
      pixelMask_getLsbD y hb]
    by_cases h : b = y.toNat % 8 <;> simp [h, hb]

/-- Bit `b` of byte `a` is that of the pixel `(x, y)`, which is on the canvas (R42). -/
def coversBit (g : Geometry) (x y : Word) (a b : Nat) : Bool :=
  inCanvas g x y && a == byteIndex g x y && b == y.toNat % 8

theorem coversBit_iff {g : Geometry} {x y : Word} {a b : Nat} :
    coversBit g x y a b = true ↔
      inCanvas g x y = true ∧ a = byteIndex g x y ∧ b = y.toNat % 8 := by
  simp [coversBit, and_assoc]

/-- A canvas pixel covers the bit that `pixelAt g.width u v` reads only when it is `(u, v)`. -/
theorem coversBit_pixel_iff {g : Geometry} {x y : Word} {u v : Nat} (hu : u < g.width.toNat)
    (hv : v < g.height.toNat) :
    coversBit g x y (u + v / 8 * g.width.toNat) (v % 8) = true ↔ x.toNat = u ∧ y.toNat = v := by
  rw [coversBit_iff]
  constructor
  · rintro ⟨hc, hbyte, hbit⟩
    obtain ⟨hx, -⟩ := inCanvas_iff.mp hc
    have hcol : u = x.toNat := by
      rw [← byteIndex_mod_width hx, ← hbyte, Nat.add_mul_mod_self_right, Nat.mod_eq_of_lt hu]
    have hpage : v / 8 = y.toNat / 8 := by
      rw [← byteIndex_div_width hx, ← hbyte, Nat.add_mul_div_right _ _ (by omega),
        Nat.div_eq_of_lt hu, Nat.zero_add]
    omega
  · rintro ⟨rfl, rfl⟩
    exact ⟨inCanvas_iff.mpr ⟨hu, hv⟩, rfl, rfl⟩

/-- A bit of `FB` is covered by one pixel only. -/
theorem coversBit_unique {g : Geometry} {x y x' y' : Word} {a b : Nat}
    (h : coversBit g x y a b = true) (h' : coversBit g x' y' a b = true) : (x, y) = (x', y') := by
  obtain ⟨hc, rfl, rfl⟩ := coversBit_iff.mp h'
  obtain ⟨hx', hy'⟩ := inCanvas_iff.mp hc
  obtain ⟨hx, hy⟩ := (coversBit_pixel_iff hx' hy').mp h
  rw [BitVec.eq_of_toNat_eq hx, BitVec.eq_of_toNat_eq hy]

/-- Canonical framebuffers that agree on every bit are equal. -/
theorem eq_of_bits {m n : Memory} (hm : m.wf = true) (hn : n.wf = true)
    (h : ∀ a b, b < 8 → (m.read a).getLsbD b = (n.read a).getLsbD b) : m = n :=
  eq_of_read m n hm hn fun a => BitVec.eq_of_getLsbD_eq fun b hb => h a b hb

/-! ## A drawn point as a function on framebuffers -/

/-- What SET_PIXEL does to the framebuffer of a canvas (R100, R101). -/
def DrawPoint.paint (p : DrawPoint) (g : Geometry) (m : Memory) : Memory :=
  if inCanvas g p.x p.y then
    m.write (byteIndex g p.x p.y) (pixelByte p.on p.y (m.read (byteIndex g p.x p.y)))
  else m

/-- The model's SET_PIXEL on a state is the drawn point on its framebuffer. -/
theorem State.paint_fb_eq (p : DrawPoint) (s : State) :
    (s.paint p.on p.x p.y).fb = p.paint s.cfg.geom s.fb :=
  paint_fb p.on p.x p.y s

namespace DrawPoint

variable {g : Geometry} {m : Memory} (p : DrawPoint)

/-- R104 (3). -/
theorem paint_off_canvas (hc : inCanvas g p.x p.y = false) : p.paint g m = m := by
  simp [paint, hc]

theorem read_paint_byteIndex (hc : inCanvas g p.x p.y = true) :
    (p.paint g m).read (byteIndex g p.x p.y) =
      pixelByte p.on p.y (m.read (byteIndex g p.x p.y)) := by
  simp [paint, hc]

theorem read_paint_other {a : Nat} (ha : a ≠ byteIndex g p.x p.y) :
    (p.paint g m).read a = m.read a := by
  rw [paint]
  split
  · exact read_write_other _ _ _ _ ha.symm
  · rfl

theorem paint_wf (hm : m.wf = true) : (p.paint g m).wf = true := by
  rw [paint]
  split
  · exact wf_write _ _ _ hm
  · exact hm

/-- The covered bit takes the point's colour, every other bit of `FB` stays. -/
theorem paint_getLsbD {a b : Nat} (hb : b < 8) :
    ((p.paint g m).read a).getLsbD b =
      if coversBit g p.x p.y a b then p.on else (m.read a).getLsbD b := by
  cases hc : inCanvas g p.x p.y with
  | false => simp [coversBit, hc, paint_off_canvas]
  | true =>
    by_cases ha : a = byteIndex g p.x p.y
    · subst ha
      simp [coversBit, hc, read_paint_byteIndex, pixelByte_getLsbD _ _ _ hb]
    · simp [coversBit, hc, ha, read_paint_other]

/-- R104 (1): the point's pixel takes its colour, every other pixel of the canvas stays. -/
theorem pixelAt_paint {u v : Nat} (hu : u < g.width.toNat) (hv : v < g.height.toNat) :
    pixelAt (p.paint g m) g.width.toNat u v =
      if p.x.toNat = u ∧ p.y.toNat = v then p.on else pixelAt m g.width.toNat u v := by
  simp only [pixelAt, p.paint_getLsbD (Nat.mod_lt v (by decide)), coversBit_pixel_iff hu hv]

/-- Of two points at one coordinate the later wins. -/
theorem paint_paint_same_pixel (x y : Word) (on on' : Bool) (hm : m.wf = true) :
    (mk x y on).paint g ((mk x y on').paint g m) = (mk x y on).paint g m := by
  refine eq_of_bits (paint_wf _ (paint_wf _ hm)) (paint_wf _ hm) fun a b hb => ?_
  simp only [paint_getLsbD _ hb]
  split <;> rfl

/-- R104 (5): points at different coordinates commute, because no bit is covered by both. -/
theorem paint_comm {q : DrawPoint} (hm : m.wf = true) (hne : (p.x, p.y) ≠ (q.x, q.y)) :
    q.paint g (p.paint g m) = p.paint g (q.paint g m) := by
  refine eq_of_bits (paint_wf _ (paint_wf _ hm)) (paint_wf _ (paint_wf _ hm)) fun a b hb => ?_
  simp only [paint_getLsbD _ hb]
  by_cases hp : coversBit g p.x p.y a b = true
  · have hq : ¬ coversBit g q.x q.y a b = true := fun hq => hne (coversBit_unique hp hq)
    simp only [hp, hq, if_true, if_false, Bool.false_eq_true]
  · simp only [hp, if_false, Bool.false_eq_true]

/-- A canvas point leaves the framebuffer exactly when its pixel has its colour already. -/
theorem paint_eq_self_iff (hm : m.wf = true) (hc : inCanvas g p.x p.y = true) :
    p.paint g m = m ↔ pixelAt m g.width.toNat p.x.toNat p.y.toNat = p.on := by
  obtain ⟨hx, hy⟩ := inCanvas_iff.mp hc
  constructor
  · intro h
    have hpix := p.pixelAt_paint (m := m) hx hy
    rwa [h, if_pos ⟨rfl, rfl⟩] at hpix
  · intro h
    refine eq_of_bits (p.paint_wf hm) hm fun a b hb => ?_
    rw [p.paint_getLsbD hb]
    split
    · rename_i hcov
      obtain ⟨-, rfl, rfl⟩ := coversBit_iff.mp hcov
      exact h.symm
    · rfl

end DrawPoint

/-! ## The operations -/

/-- The state after SET_PIXEL_ON or SET_PIXEL_OFF of a point (R100, R101). -/
def State.drawn (p : DrawPoint) (s : State) : State :=
  { s with
    opc := if p.on then Opcode.setPixelOn else Opcode.setPixelOff
    A := p.x, B := p.y, resp := ⟨statusOk, 0⟩, fb := p.paint s.cfg.geom s.fb }

@[simp] theorem drawn_cfg (p : DrawPoint) (s : State) : (s.drawn p).cfg = s.cfg := rfl
@[simp] theorem drawn_seq (p : DrawPoint) (s : State) : (s.drawn p).seq = s.seq := rfl
@[simp] theorem drawn_fb (p : DrawPoint) (s : State) :
    (s.drawn p).fb = p.paint s.cfg.geom s.fb := rfl

section
variable {s : State} (hw : s.cfg.wf = true) (hs : s.seq = .idle)
include hw hs

/-- A point's operation always succeeds on an idle block, in one step and without an event. -/
theorem exec_drawPoint (p : DrawPoint) : exec p.instr s = .next (s.drawn p) := by
  obtain ⟨x, y, on⟩ := p
  rw [State.drawn, ← State.paint_fb_eq]
  cases on with
  | false => exact exec_setPixelOff x y s hw hs
  | true => exact exec_setPixelOn x y s hw hs

/-- Two points' operations, one after the other. -/
theorem exec_drawPoint_drawn (p q : DrawPoint) :
    exec q.instr (s.drawn p) = .next ((s.drawn p).drawn q) :=
  exec_drawPoint (s := s.drawn p) hw hs q

theorem exec_clear :
    exec .clear s = .next { s with opc := 0x03, A := 0, B := 0, resp := ⟨0x00, 0⟩, fb := [] } := by
  rw [exec, execClear, hostOp_next _ _ _ _ _ hw hs]
  simp [State.respond, State.clearFb, State.accept, hs, statusOk, Opcode.clear]

end

/-- R100's bounds test on the signed coordinates. -/
theorem inCanvas_of_signed {g : Geometry} {x y : Word}
    (h : 0 ≤ x.toInt ∧ x.toInt < g.width.toNat ∧ 0 ≤ y.toInt ∧ y.toInt < g.height.toNat) :
    inCanvas g x y = true := by
  simpa [inCanvas, and_assoc] using h

/-- R100's bounds test, failed on one of the four sides. -/
theorem not_inCanvas_of_signed {g : Geometry} {x y : Word}
    (h : x.toInt < 0 ∨ x.toInt ≥ g.width.toNat ∨ y.toInt < 0 ∨ y.toInt ≥ g.height.toNat) :
    inCanvas g x y = false := by
  simp only [inCanvas, Bool.and_eq_false_iff, decide_eq_false_iff_not]
  omega

/-- R100 and R101, whole: off the canvas the framebuffer stays, on it the pixel's byte is rewritten
and every other byte stays. -/
theorem exec_drawPoint_bytes {s : State} (hw : s.cfg.wf = true) (hs : s.seq = .idle)
    (p : DrawPoint) :
    ∃ fb : Memory, exec p.instr s = .next { s.drawn p with fb := fb } ∧
      ((p.x.toInt < 0 ∨ p.x.toInt ≥ s.cfg.geom.width.toNat ∨ p.y.toInt < 0 ∨
          p.y.toInt ≥ s.cfg.geom.height.toNat) → fb = s.fb) ∧
      ((0 ≤ p.x.toInt ∧ p.x.toInt < s.cfg.geom.width.toNat ∧ 0 ≤ p.y.toInt ∧
          p.y.toInt < s.cfg.geom.height.toNat) →
        fb.read (byteIndex s.cfg.geom p.x p.y) =
          pixelByte p.on p.y (s.fb.read (byteIndex s.cfg.geom p.x p.y)) ∧
        ∀ a, a ≠ byteIndex s.cfg.geom p.x p.y → fb.read a = s.fb.read a) :=
  ⟨p.paint s.cfg.geom s.fb, exec_drawPoint hw hs p,
    fun hoff => p.paint_off_canvas (not_inCanvas_of_signed hoff),
    fun hon => ⟨p.read_paint_byteIndex (inCanvas_of_signed hon), fun _ => p.read_paint_other⟩⟩

/-- Settles O8: an `on` point's operation, whose byte is ORed with the mask. -/
theorem setPixelOnResult : Obligations.SetPixelOnResult := by
  refine ⟨fun x y s hw hs => exec_drawPoint_bytes hw hs ⟨x, y, true⟩, fun x y => ?_⟩
  rw [decodeRequest_requestOf]
  exact decodeFields_setPixelOn x y

/-- Settles O9: an `off` point's operation, whose byte is ANDed with the mask's 8-bit complement. -/
theorem setPixelOffResult : Obligations.SetPixelOffResult := by
  refine ⟨fun x y s hw hs => exec_drawPoint_bytes hw hs ⟨x, y, false⟩, fun x y => ?_⟩
  rw [decodeRequest_requestOf]
  exact decodeFields_setPixelOff x y

/-- Settles O10: CLEAR leaves the empty list, which reads 0x00 everywhere. -/
theorem clearResult : Obligations.ClearResult := by
  refine ⟨fun s hw hs => ⟨[], exec_clear hw hs, read_nil⟩, ?_⟩
  rw [decodeRequest_requestOf]
  exact decodeFields_clear

/-- Settles O13: the laws of the drawn points as functions on framebuffers, read off the states the
operations answer. On then off at one pixel is off alone, since the later of two points wins. -/
theorem pixelOperationAlgebra : Obligations.PixelOperationAlgebra := by
  intro s hw hs hfb
  refine ⟨fun p hc => ?_, fun x y hc => ?_, fun p hc => ?_, ?_, fun p q hne => ?_, fun p => ?_⟩
  -- R104 (1)
  · obtain ⟨hx, hy⟩ := inCanvas_iff.mp hc
    refine ⟨s.drawn p, exec_drawPoint hw hs p, ?_, fun u v hu hv hne => ?_⟩
    · rw [drawn_fb, p.pixelAt_paint hx hy, if_pos ⟨rfl, rfl⟩]
    · have hother : ¬ (p.x.toNat = u ∧ p.y.toNat = v) := fun h => hne (by rw [h.1, h.2])
      rw [drawn_fb, p.pixelAt_paint hu hv, if_neg hother]
  -- R104 (2)
  · let pOn : DrawPoint := ⟨x, y, true⟩
    let pOff : DrawPoint := ⟨x, y, false⟩
    have hlast : ((s.drawn pOn).drawn pOff).fb = pOff.paint s.cfg.geom s.fb :=
      DrawPoint.paint_paint_same_pixel x y false true hfb
    refine ⟨s.drawn pOn, (s.drawn pOn).drawn pOff, exec_drawPoint hw hs pOn,
      exec_drawPoint_drawn hw hs pOn pOff, ?_, fun b hb hne => ?_⟩
    · rw [hlast, pOff.paint_eq_self_iff hfb hc]
    · rw [hlast, pOff.read_paint_byteIndex hc, pixelByte_getLsbD _ _ _ hb, if_neg hne]
  -- R104 (3)
  · exact ⟨s.drawn p, exec_drawPoint hw hs p, p.paint_off_canvas hc⟩
  -- R104 (4)
  · exact ⟨_, exec_clear hw hs, fun u v _ _ => by simp [pixelAt]⟩
  -- R104 (5)
  · exact ⟨s.drawn p, (s.drawn p).drawn q, s.drawn q, (s.drawn q).drawn p,
      exec_drawPoint hw hs p, exec_drawPoint_drawn hw hs p q, exec_drawPoint hw hs q,
      exec_drawPoint_drawn hw hs q p, p.paint_comm hfb hne⟩
  · exact ⟨s.drawn p, (s.drawn p).drawn p, exec_drawPoint hw hs p, exec_drawPoint_drawn hw hs p p,
      DrawPoint.paint_paint_same_pixel p.x p.y p.on p.on hfb⟩

end Sys2Proof.Machine
end

section
/-! PROOFS. The addressing and flush operations (41_addressing_ops.md R110, R111, R113): a host
operation whose events are all plain bus events, as its list of events and their answers. -/

namespace Sys2Proof.Machine

/-! ## Runs of plain bus events -/

/-- A plain bus event loses the reason of its failure (R14). -/
theorem Micro.plainBus.answer_fail {m : Micro} (h : m.plainBus) (c : Config) (s : State)
    (v : Word) : (m.act.event s).answer c (.fail v) = some .fail := by
  obtain ⟨-, ⟨i, ha⟩ | ⟨pg, ha⟩⟩ := h
  · rw [ha]; rfl
  · rw [ha]; rfl

@[simp] theorem drivenLine_fail (ev : Event) (line : ResetLine) :
    ev.drivenLine .fail line = line := by
  cases ev <;> rfl

section
variable {ms : List Micro} {s : State} (hms : ∀ m ∈ ms, m.plainBus)
include hms

/-- Plain bus events answered `ok` move the position, the trace and the panel alone. -/
theorem foldl_okStep_plainBus : ∃ p, ms.foldl State.okStep s = { s with
    seq := s.seq.plus ms.length
    trace := s.trace ++ allOk (ms.map fun m => m.act.event s), panel := p } := by
  have hclear : ∀ m ∈ ms, m.post ≠ .clear := fun m hm hc => by
    obtain ⟨hpost, -⟩ := hms m hm
    cases hpost.symm.trans hc
  obtain ⟨hline, hdstate, hfb⟩ := plainBus_after ms hms s.rst s.dstate s.fb
  obtain ⟨p, hp⟩ := foldl_okStep_eq ms s
  rw [hline, hdstate, hfb, okEvents_eq_map ms s hclear] at hp
  exact ⟨p, hp⟩

theorem run_plainBus_ok {rest : List EnvAnswer}
    (henv : s.env = List.replicate ms.length .ok ++ rest) :
    ∃ p, run ms s = { s with
      seq := .idle, resp := ⟨statusOk, 0⟩, env := rest
      trace := s.trace ++ allOk (ms.map fun m => m.act.event s), panel := p } := by
  obtain ⟨p, hp⟩ := foldl_okStep_plainBus (s := s) hms
  exact ⟨p, by rw [run_ok ms s rest henv, hp]; rfl⟩

/-- The first failure ends a run of plain bus events with `DisplayTransportError` (R15, R147). -/
theorem run_plainBus_fails_at {k : Nat} {ev : Event} {v : Word} {rest : List EnvAnswer}
    (hev : (ms.map fun m => m.act.event s)[k]? = some ev)
    (henv : s.env = List.replicate k .ok ++ .fail v :: rest) :
    ∃ p, run ms s = { s with
      seq := .idle, resp := OpError.displayTransport.response, dstate := .unpowered, env := rest
      trace := s.trace ++ (allOk ((ms.map fun m => m.act.event s).take k) ++ [(ev, .fail)])
      panel := p } := by
  rw [List.getElem?_map, Option.map_eq_some_iff] at hev
  obtain ⟨m, hm, rfl⟩ := hev
  have hbus := hms m (List.mem_of_getElem? hm)
  obtain ⟨p, hp⟩ := foldl_okStep_plainBus (s := s)
    fun n hn => hms n (List.mem_of_mem_take hn)
  have hrun := run_fails_at ms s k m (.fail v) rest .fail .displayTransport hm henv
    (fun ev' he => he ▸ hbus.answer_fail _ _ v) rfl
  rw [hrun, hp, List.map_take, State.answered, event_congr m.act _ s rfl rfl, drivenLine_fail,
    List.append_assoc]
  exact ⟨_, rfl⟩

end

/-! ## Host operations of plain bus events -/

/-- A host operation without events ends at its acceptance. -/
theorem hostOp_run_nil (op : Byte) (a b : Word) {s : State} (hw : s.cfg.wf = true)
    (hs : s.seq = .idle) : hostOp op a b (run []) s =
      .next { s with opc := op, A := a, B := b, resp := ⟨statusOk, 0⟩ } := by
  rw [hostOp_next _ _ _ _ _ hw hs, run_nil]
  simp [State.respond, State.accept, hs]

/-- Acceptance changes no event, since an event reads the configuration and the framebuffer alone. -/
theorem map_event_accept (op : Byte) (a b : Word) (ms : List Micro) (s : State) :
    (ms.map fun m => m.act.event (s.accept op a b)) = ms.map fun m => m.act.event s :=
  List.map_congr_left fun _ _ => event_congr _ _ _ rfl rfl

section
variable (op : Byte) (a b : Word) {ms : List Micro} {es : List Event} {s : State}
  (hw : s.cfg.wf = true) (hs : s.seq = .idle) (hms : ∀ m ∈ ms, m.plainBus)
  (hes : (ms.map fun m => m.act.event s) = es)
include hw hs hms hes

/-- With every event answered `ok` the operation emits exactly its events and responds `OK`. -/
theorem hostOp_plainBus_ok {rest : List EnvAnswer}
    (henv : s.env = List.replicate es.length .ok ++ rest) :
    ∃ p, hostOp op a b (run ms) s = .next { s with
      opc := op, A := a, B := b, resp := ⟨statusOk, 0⟩, env := rest
      trace := s.trace ++ allOk es, panel := p } := by
  have hev := (map_event_accept op a b ms s).trans hes
  obtain ⟨p, hp⟩ := run_plainBus_ok (s := s.accept op a b) (rest := rest) hms
    (by rw [accept_env, henv, ← hes, List.length_map])
  refine ⟨p, ?_⟩
  rw [hostOp_next _ _ _ _ _ hw hs, hp, hev]
  simp [State.accept, hs]

/-- With the first failure at position `k` the operation emits its first `k + 1` events and responds
`DisplayTransportError`. -/
theorem hostOp_plainBus_fails_at {k : Nat} {ev : Event} {v : Word} {rest : List EnvAnswer}
    (hk : es[k]? = some ev) (henv : s.env = List.replicate k .ok ++ .fail v :: rest) :
    ∃ p, hostOp op a b (run ms) s = .next { s with
      opc := op, A := a, B := b, resp := OpError.displayTransport.response, dstate := .unpowered
      env := rest, trace := s.trace ++ (allOk (es.take k) ++ [(ev, .fail)]), panel := p } := by
  have hev := (map_event_accept op a b ms s).trans hes
  obtain ⟨p, hp⟩ := run_plainBus_fails_at (s := s.accept op a b) hms (hev ▸ hk) henv
  refine ⟨p, ?_⟩
  rw [hostOp_next _ _ _ _ _ hw hs, hp, hev]
  simp [State.accept, hs]

end

/-! ## The events of the addressing operations -/

theorem setColumnEvents_eq_nil {c : Nat} (hc : 127 < c) : setColumnEvents c = [] := if_pos hc

theorem setPageEvents_eq_nil {p : Nat} (hp : 7 < p) : setPageEvents p = [] := if_pos hp

/-- R110's two commands. -/
theorem setColumnEvents_map {s : State} (hw : s.cfg.wf = true) {c : Nat} (hc : c ≤ 127) :
    (setColumnEvents c).map (fun m => m.act.event s) =
      [.busCmd [s.cfg.ops.setLowerColumn.value ||| BitVec.ofNat 8 (c % 16)],
       .busCmd [s.cfg.ops.setHigherColumn.value ||| BitVec.ofNat 8 (c / 16)]] := by
  obtain ⟨-, hops, -⟩ := Config.wf_parts hw
  rw [setColumnEvents, if_neg (Nat.not_lt.mpr hc)]
  simp [Action.only, Action.event, lowerColumn_bytes hops, higherColumn_bytes hops c hc]

/-- R111's command. -/
theorem setPageEvents_map {s : State} (hw : s.cfg.wf = true) {p : Nat} (hp : p ≤ 7) :
    (setPageEvents p).map (fun m => m.act.event s) =
      [.busCmd [s.cfg.ops.setPageAddress.value ||| BitVec.ofNat 8 p]] := by
  obtain ⟨-, hops, -⟩ := Config.wf_parts hw
  rw [setPageEvents, if_neg (Nat.not_lt.mpr hp)]
  simp [Action.only, Action.event, page_bytes hops p hp]

/-! ## The statements -/

/-- Settles O15: the two column commands are plain bus events, failing at position 0 or 1. -/
theorem setColumnAddressResult : Obligations.SetColumnAddressResult := by
  refine ⟨fun c s hw hs => ⟨fun hc => ?_, fun hc => ?_⟩, fun c => ?_⟩
  · rw [exec, execSetColumnAddress, unsignedOperand, setColumnEvents_eq_nil hc]
    exact hostOp_run_nil _ c 0 hw hs
  · have hbus := operationEvents_plainBus s.cfg (.setColumnAddress c) (by simp) (by simp)
    have hev := setColumnEvents_map hw hc
    refine ⟨fun rest henv => ?_, fun v rest henv => ?_, fun v rest henv => ?_⟩
    · exact hostOp_plainBus_ok _ c 0 hw hs hbus hev henv
    · exact hostOp_plainBus_fails_at _ c 0 hw hs hbus hev (k := 0) rfl henv
    · exact hostOp_plainBus_fails_at _ c 0 hw hs hbus hev (k := 1) rfl henv
  · rw [decodeRequest_requestOf]
    exact decodeFields_setColumnAddress c

/-- Settles O16: the page command is a plain bus event, failing at position 0. -/
theorem setPageResult : Obligations.SetPageResult := by
  refine ⟨fun p s hw hs => ⟨fun hp => ?_, fun hp => ?_⟩, fun p => ?_⟩
  · rw [exec, execSetPage, unsignedOperand, setPageEvents_eq_nil hp]
    exact hostOp_run_nil _ p 0 hw hs
  · have hbus := operationEvents_plainBus s.cfg (.setPage p) (by simp) (by simp)
    have hev := setPageEvents_map hw hp
    refine ⟨fun rest henv => ?_, fun v rest henv => ?_⟩
    · exact hostOp_plainBus_ok _ p 0 hw hs hbus hev henv
    · exact hostOp_plainBus_fails_at _ p 0 hw hs hbus hev (k := 0) rfl henv
  · rw [decodeRequest_requestOf]
    exact decodeFields_setPage p

/-- Three command bytes per page. -/
theorem flushEventList_commandBytes_length (c : Config) (fb : Memory) :
    ((flushEventList c fb).flatMap Event.commandBytes).length = 3 * c.geom.pages := by
  simp [flushEventList, List.flatMap_assoc, List.length_flatMap, Event.commandBytes, Nat.mul_comm]

/-- One byte per column and page: the whole buffer. -/
theorem flushEventList_dataBytes_length {c : Config} (hg : c.geom.wf = true) (fb : Memory) :
    ((flushEventList c fb).flatMap Event.dataBytes).length = c.geom.bufferSize := by
  rw [← Geometry.pages_mul_width hg]
  simp [flushEventList, List.flatMap_assoc, List.length_flatMap, Event.dataBytes]

/-- Settles O17: FLUSH's events are plain bus events, and R113's list is what they emit. -/
theorem flushEmitsItsEventList : Obligations.FlushEmitsItsEventList := by
  intro s hw hs
  obtain ⟨hg, -⟩ := Config.wf_parts hw
  have hbus := flushEvents_plainBus s.cfg
  have hev := flushEvents_map s s.cfg s.fb rfl rfl hw
  refine ⟨flushEventList_length _ _, flushEventList_commandBytes_length _ _,
    flushEventList_dataBytes_length hg _, fun rest henv => ?_, fun k ev v rest hk henv => ?_⟩
  · exact hostOp_plainBus_ok _ 0 0 hw hs hbus hev henv
  · simp only [List.append_assoc]
    exact hostOp_plainBus_fails_at _ 0 0 hw hs hbus hev hk henv

end Sys2Proof.Machine
end

section
/-! PROOFS. The order of INIT (42_reset_init_ops.md R125): what a run that ended with `OK` emitted,
rows of the opcode table told apart by their first byte, and the events before display-on. -/

namespace Sys2Proof

/-! ## Rows told apart -/

/-- The opening bytes of an aligned row are the `span` bytes from its opcode on (R82). -/
theorem span_of_opens {e : OpEntry} {b : Byte} (ha : e.aligned = true) (ho : e.opens b = true) :
    e.value.toNat ≤ b.toNat ∧ b.toNat < e.value.toNat + e.span := by
  obtain ⟨val, form⟩ := e
  cases form with
  | cf1 => simp_all [OpEntry.opens, OpEntry.span]
  | cf2 => simp_all [OpEntry.opens, OpEntry.span]
  | cf1a w =>
    simp only [OpEntry.aligned, Bool.and_eq_true, decide_eq_true_eq, beq_iff_eq] at ha
    simp only [OpEntry.opens, beq_iff_eq] at ho
    have hval := Nat.div_add_mod val.toNat (2 ^ w)
    have hb := Nat.div_add_mod b.toNat (2 ^ w)
    have hlt := Nat.mod_lt b.toNat (Nat.two_pow_pos w)
    rw [ho] at hb
    simp only [OpEntry.span]
    omega

theorem opens_value (e : OpEntry) : e.opens e.value = true := by
  obtain ⟨val, form⟩ := e
  cases form <;> simp [OpEntry.opens]

theorem not_opens_of_apart {e f : OpEntry} {b : Byte} (he : e.aligned = true)
    (hf : f.aligned = true) (hef : e.apart f = true) (hb : e.opens b = true) :
    ¬ f.opens b = true := by
  intro hfb
  have hspan := span_of_opens he hb
  have hspan' := span_of_opens hf hfb
  simp only [OpEntry.apart, Bool.or_eq_true, decide_eq_true_eq] at hef
  omega

theorem OpEntry.apart_comm (e f : OpEntry) : e.apart f = f.apart e := Bool.or_comm ..

theorem OpTable.distinct_apart {t : OpTable} (hd : t.distinct = true) {m n : OpName} (h : m ≠ n) :
    (t.entry m).apart (t.entry n) = true := by
  have hsymm : Std.Symm fun m n => (t.entry m).apart (t.entry n) = true :=
    ⟨fun m n hmn => (OpEntry.apart_comm (t.entry n) (t.entry m)).trans hmn⟩
  exact (of_decide_eq_true hd).forall (mem_all m) (mem_all n) h

/-- The bytes of every command of an aligned row begin with a byte that opens the row, whether or not
its operand fits (R81). -/
theorem opens_of_assemble_eq_cons {e : OpEntry} {v b : Byte} {tail : List Byte}
    (ha : e.aligned = true) (h : e.assemble v = b :: tail) : e.opens b = true := by
  obtain ⟨b', tail', hbytes, hopens, -⟩ := assemble_opens e (e.form.fit v) [] ha (fits_fit _ _)
  rw [List.append_nil, assemble_fit, h, List.cons_eq_cons] at hbytes
  exact hbytes.1 ▸ hopens

/-- The bytes are a command of another row than `n`. -/
def OpTable.otherCommand (t : OpTable) (n : OpName) (bs : List Byte) : Prop :=
  ∃ m v, m ≠ n ∧ bs = (t.entry m).assemble v

/-- Under a table without overlap no other row's command is the opcode byte of `n`. -/
theorem OpTable.otherCommand_ne_value {t : OpTable} (ht : t.wf = true) (hd : t.distinct = true)
    {n : OpName} {bs : List Byte} (h : t.otherCommand n bs) : bs ≠ [(t.entry n).value] := by
  obtain ⟨m, v, hmn, rfl⟩ := h
  intro heq
  obtain ⟨hm, -⟩ := entry_wf t ht m
  obtain ⟨hn, -⟩ := entry_wf t ht n
  exact not_opens_of_apart hm hn (distinct_apart hd hmn) (opens_of_assemble_eq_cons hm heq)
    (opens_value _)

end Sys2Proof

namespace Sys2Proof.Machine

/-! ## A run that ended with `OK` -/

theorem OpError.response_status_ne_ok (e : OpError) : e.response.status ≠ 0x00 := by
  cases e <;> simp [OpError.response, OpError.status]

/-- Whatever the environment answers, a run that started at position 0 and ended with `OK` emitted
exactly its events, each answered `ok`. -/
theorem run_trace_of_status_ok {ms : List Micro} {s : State} (hs : s.seq = .busy 0)
    (hidle : (run ms s).seq = .idle) (hok : (run ms s).resp.status = 0x00) :
    (run ms s).trace = s.trace ++ allOk (okEvents ms s) := by
  obtain ⟨k, r, d, ⟨-, hrun⟩ | ⟨m, x, ans, err, -, -, -, hrun⟩ | ⟨-, hrun⟩⟩ := run_cases ms s
  · rw [hrun, respond_trace]
    exact foldl_okStep_trace ms s
  · rw [hrun, raise_resp] at hok
    exact absurd hok err.response_status_ne_ok
  · obtain ⟨p, hp⟩ := foldl_okStep_eq (ms.take k) s
    rw [hrun, hp, hs] at hidle
    cases hidle

/-- A successful INIT emits R124's list. -/
theorem exec_init_trace {s t : State} (hw : s.cfg.wf = true) (hs : s.seq = .idle)
    (ht : exec .init s = .next t) (hidle : t.seq = .idle) (hok : t.resp.status = 0x00) :
    t.trace = s.trace ++ allOk (initEventList s.cfg) := by
  rw [exec, execInit, hostOp_next _ _ _ _ _ hw hs] at ht
  cases ht
  rw [run_trace_of_status_ok (accept_seq ..) hidle hok, accept_trace,
    initEvents_okEvents (s.accept Opcode.init 0 0) s.cfg rfl hw]

/-! ## INIT's events before display-on -/

/-- R124's list without its last event. -/
def initEventsBeforeOn (c : Config) : List Event :=
  hardResetEventList c ++ initConfigEventList c ++ flushEventList c [] ++
    [.busCmd [c.ops.resumeFromRam.value], .busCmd [c.ops.normalDisplay.value]]

theorem initEventList_eq_append_displayOn (c : Config) :
    initEventList c = initEventsBeforeOn c ++ [.busCmd [c.ops.displayOn.value]] := by
  simp [initEventList, initEventsBeforeOn, initShowEventList]

theorem mem_initEventsBeforeOn {c : Config} {ev : Event} : ev ∈ initEventsBeforeOn c ↔
    ev ∈ hardResetEventList c ∨ ev ∈ initConfigEventList c ∨ ev ∈ flushEventList c [] ∨
      ev = .busCmd [c.ops.resumeFromRam.value] ∨ ev = .busCmd [c.ops.normalDisplay.value] := by
  simp [initEventsBeforeOn]

/-- A flush of the cleared framebuffer sends zeros only (R125). -/
theorem flushEventList_nil_data {c : Config} {bs : List Byte}
    (h : .busData bs ∈ flushEventList c []) : ∀ b ∈ bs, b = 0x00 := by
  simp only [flushEventList, List.mem_flatMap, List.mem_cons, reduceCtorEq, Event.busData.injEq,
    List.not_mem_nil, or_false, false_or] at h
  obtain ⟨pg, -, rfl⟩ := h
  rw [slice_nil]
  exact fun b hb => List.eq_of_mem_replicate hb

theorem initEventsBeforeOn_data {c : Config} {bs : List Byte}
    (h : .busData bs ∈ initEventsBeforeOn c) : ∀ b ∈ bs, b = 0x00 := by
  obtain hreset | hconfig | hflush | hresume | hnormal := mem_initEventsBeforeOn.mp h
  · simp [hardResetEventList] at hreset
  · simp [initConfigEventList] at hconfig
  · exact flushEventList_nil_data hflush
  · cases hresume
  · cases hnormal

/-- A flush sends page and column commands only. -/
theorem flushEventList_otherCommand {c : Config} (hw : c.wf = true) {fb : Memory} {bs : List Byte}
    (h : .busCmd bs ∈ flushEventList c fb) : c.ops.otherCommand .displayOn bs := by
  obtain ⟨hg, hops, -⟩ := Config.wf_parts hw
  obtain ⟨-, -, hheight, hwidth, hpanel, -⟩ := Geometry.wf_parts hg
  simp only [flushEventList, List.mem_flatMap, List.mem_range, Geometry.pages, List.mem_cons,
    reduceCtorEq, Event.busCmd.injEq, List.not_mem_nil, or_false] at h
  obtain ⟨pg, hpg, rfl | rfl | rfl⟩ := h
  · exact ⟨.setPageAddress, _, by decide, (page_bytes hops pg (by omega)).symm⟩
  · exact ⟨.setLowerColumn, _, by decide, (lowerColumn_bytes hops _).symm⟩
  · exact ⟨.setHigherColumn, _, by decide, (higherColumn_bytes hops _ (by omega)).symm⟩

/-- The command of a row without a value is its opcode byte (R76). -/
theorem otherCommand_value {t : OpTable} {m n : OpName} (hform : (t.entry m).form = .cf1)
    (hmn : m ≠ n) : t.otherCommand n [(t.entry m).value] :=
  ⟨m, 0, hmn, (assemble_cf1 _ _ hform).symm⟩

theorem initConfigEventList_otherCommand {c : Config} (hw : c.wf = true) {bs : List Byte}
    (h : .busCmd bs ∈ initConfigEventList c) : c.ops.otherCommand .displayOn bs := by
  obtain ⟨-, hops, -⟩ := Config.wf_parts hw
  obtain ⟨-, -, -, -, hoff, -, hseg, hcom, -, -⟩ := OpTable.wf_forms hops
  simp only [initConfigEventList, List.mem_cons, Event.busCmd.injEq, List.not_mem_nil,
    or_false] at h
  obtain rfl | rfl | rfl | rfl | rfl | rfl | rfl | rfl | rfl | rfl | rfl | rfl | rfl := h
  · exact otherCommand_value (m := .displayOff) hoff (by decide)
  · exact ⟨.setClockDiv, _, by decide, rfl⟩
  · exact ⟨.setMultiplex, _, by decide, rfl⟩
  · exact ⟨.setDisplayOffset, _, by decide, rfl⟩
  · exact ⟨.setStartLine, _, by decide, rfl⟩
  · exact ⟨.setDcdc, _, by decide, rfl⟩
  · exact ⟨.setPumpVoltage, _, by decide, rfl⟩
  · exact otherCommand_value (m := .segRemapReversed) hseg (by decide)
  · exact otherCommand_value (m := .comScanReversed) hcom (by decide)
  · exact ⟨.segPadsConfig, _, by decide, rfl⟩
  · exact ⟨.setContrast, _, by decide, rfl⟩
  · exact ⟨.setPrecharge, _, by decide, rfl⟩
  · exact ⟨.setVcomDeselect, _, by decide, rfl⟩

/-- Every command before INIT's last event is one of another row than display-on's. -/
theorem initEventsBeforeOn_otherCommand {c : Config} (hw : c.wf = true) {bs : List Byte}
    (h : .busCmd bs ∈ initEventsBeforeOn c) : c.ops.otherCommand .displayOn bs := by
  obtain ⟨-, hops, -⟩ := Config.wf_parts hw
  obtain ⟨-, -, -, -, -, -, -, -, hresume, hnormal⟩ := OpTable.wf_forms hops
  obtain hm | hm | hm | hm | hm := mem_initEventsBeforeOn.mp h
  · simp [hardResetEventList] at hm
  · exact initConfigEventList_otherCommand hw hm
  · exact flushEventList_otherCommand hw hm
  · cases hm
    exact otherCommand_value (m := .resumeFromRam) hresume (by decide)
  · cases hm
    exact otherCommand_value (m := .normalDisplay) hnormal (by decide)

/-- The pulse sends no byte (R120). -/
theorem hardResetEventList_noBytes {c : Config} {ev : Event} (h : ev ∈ hardResetEventList c) :
    ev.commandBytes = [] ∧ ev.dataBytes = [] := by
  simp only [hardResetEventList, List.mem_cons, List.not_mem_nil, or_false] at h
  obtain rfl | rfl | rfl | rfl | rfl | rfl := h <;> exact ⟨rfl, rfl⟩

/-- Settles O24: only the last of the three ways a run can stop leaves an idle block with `OK`, and
the events before display-on are the pulse, the configuration, the flush of zeros and two commands,
none of them of display-on's row. -/
theorem initOrderIsKept : Obligations.InitOrderIsKept := by
  intro s t hw hs ht hidle hok
  obtain ⟨-, hops, -, -, hpost, -⟩ := Config.wf_parts hw
  refine ⟨exec_init_trace hw hs ht hidle hok, initEventsBeforeOn s.cfg,
    initEventList_eq_append_displayOn s.cfg, fun bs => initEventsBeforeOn_data, ?_, ?_, rfl, ?_⟩
  · intro hd hmem
    exact OpTable.otherCommand_ne_value hops hd (initEventsBeforeOn_otherCommand hw hmem) rfl
  · rw [← hpost]
    rfl
  · exact fun ev hev => hardResetEventList_noBytes hev

end Sys2Proof.Machine
end

section
/-! PROOFS. The breathing-light operation (43_effect_ops.md R130): the fields of its operand words and
of its parameter as sums, and its one two-byte command as a plain bus event. -/

namespace Sys2Proof.Machine

/-! ## The operand words and the parameter as sums of their fields -/

/-- Fields that share no bit add up (R72, R80). -/
theorem mul_two_pow_or_of_lt {k n i : Nat} (hi : i < 2 ^ n) : k * 2 ^ n ||| i = k * 2 ^ n + i := by
  rw [Nat.mul_comm, Nat.two_pow_add_eq_or_of_lt hi]

theorem breathingA_eq_ofNat (on : Bool) : breathingA on = BitVec.ofNat 32 on.toNat := by
  cases on <;> rfl

theorem breathingB_eq_ofNat (sel : BitVec 2) (frames : Byte) :
    breathingB sel frames = BitVec.ofNat 32 (sel.toNat * 256 + frames.toNat) := by
  have hsel := sel.isLt
  have hframes := frames.isLt
  apply BitVec.eq_of_toNat_eq
  rw [breathingB, BitVec.toNat_append, BitVec.toNat_append, Nat.shiftLeft_eq, Nat.shiftLeft_eq,
    mul_two_pow_or_of_lt hframes, mul_two_pow_or_of_lt hsel, BitVec.toNat_ofNat, BitVec.toNat_ofNat]
  omega

/-- The parameter's `on` stands in bit 7, `sel` in 4:3 and `frames - 1` in 2:0 (R80, C1). -/
theorem breathingParam_eq_ofNat (on : Bool) (sel : BitVec 2) {frames : Byte}
    (hpos : 1 ≤ frames.toNat) (hle : frames.toNat ≤ 8) :
    breathingParam on sel frames =
      BitVec.ofNat 8 (on.toNat * 128 + sel.toNat * 8 + (frames.toNat - 1)) := by
  have hsel := sel.isLt
  have honField : ((if on then 1#8 else 0#8) <<< 7).toNat = on.toNat * 2 ^ 7 := by
    cases on <;> rfl
  have hselField : (sel.setWidth 8 <<< 3).toNat = sel.toNat * 2 ^ 3 := by
    rw [BitVec.toNat_shiftLeft, BitVec.toNat_setWidth, Nat.shiftLeft_eq]
    omega
  have hframesField : (frames - 1).toNat = frames.toNat - 1 := BitVec.toNat_sub_of_le hpos
  have hlow : sel.toNat * 2 ^ 3 ||| (frames.toNat - 1) = sel.toNat * 2 ^ 3 + (frames.toNat - 1) :=
    mul_two_pow_or_of_lt (by omega)
  apply BitVec.eq_of_toNat_eq
  rw [breathingParam, BitVec.toNat_or, BitVec.toNat_or, honField, hselField, hframesField,
    Nat.or_assoc, hlow, mul_two_pow_or_of_lt (by omega), BitVec.toNat_ofNat]
  omega

/-- A breathing-light request with its operand words written as numbers decodes to it (R71). -/
theorem decodeRequest_breathing (on : Bool) (sel : BitVec 2) (frames : Byte) :
    decodeRequest (requestOf 0x07 (BitVec.ofNat 32 on.toNat)
      (BitVec.ofNat 32 (sel.toNat * 256 + frames.toNat))) =
      some (.setBreathingEffect on sel frames) := by
  rw [decodeRequest_requestOf, ← breathingA_eq_ofNat, ← breathingB_eq_ofNat]
  exact decodeFields_breathing on sel frames

/-! ## The events -/

theorem breathingEvents_eq_nil (on : Bool) (sel : BitVec 2) {frames : Byte}
    (h : frames.toNat = 0 ∨ 8 < frames.toNat) : breathingEvents on sel frames = [] := if_pos h

/-- R130's command. -/
theorem breathingEvents_map {s : State} (hw : s.cfg.wf = true) (on : Bool) (sel : BitVec 2)
    {frames : Byte} (hpos : 1 ≤ frames.toNat) (hle : frames.toNat ≤ 8) :
    (breathingEvents on sel frames).map (fun m => m.act.event s) =
      [.busCmd [s.cfg.ops.setBreathingLight.value,
        BitVec.ofNat 8 (on.toNat * 128 + sel.toNat * 8 + (frames.toNat - 1))]] := by
  obtain ⟨-, hops, -⟩ := Config.wf_parts hw
  rw [breathingEvents, if_neg (by omega), ← breathingParam_eq_ofNat on sel hpos hle]
  simp [Action.only, Action.event, breathing_bytes hops]

/-! ## The statement -/

/-- Settles O25: outside 1..8 frames there is no event; else the command is a plain bus event, failing
at position 0. -/
theorem setBreathingEffectResult : Obligations.SetBreathingEffectResult := by
  refine ⟨fun on sel frames s hw hs => ?_, decodeRequest_breathing⟩
  simp only [exec, execSetBreathingEffect, breathingA_eq_ofNat, breathingB_eq_ofNat]
  refine ⟨fun hout => ?_, fun ⟨hpos, hle⟩ => ?_⟩
  · rw [breathingEvents_eq_nil on sel hout]
    exact hostOp_run_nil _ _ _ hw hs
  · have hbus := operationEvents_plainBus s.cfg (.setBreathingEffect on sel frames)
      (by simp) (by simp)
    have hev := breathingEvents_map hw on sel hpos hle
    refine ⟨fun rest henv => ?_, fun v rest henv => ?_⟩
    · exact hostOp_plainBus_ok _ _ _ hw hs hbus hev henv
    · exact hostOp_plainBus_fails_at _ _ _ hw hs hbus hev (k := 0) rfl henv

end Sys2Proof.Machine
end

section
/-! PROOFS. The two encodings (30_encoding.md R70 to R76, R82): a request word as its three fields,
the words that decode, and the first command of a byte list. -/

namespace Sys2Proof

/-! ## Request words -/

theorem acceptIf_eq_some_iff {c : Bool} {i j : Instr} :
    acceptIf c j = some i ↔ c = true ∧ j = i := by
  cases c <;> simp

theorem acceptIf_eq_none_iff {c : Bool} {j : Instr} : acceptIf c j = none ↔ c = false := by
  cases c <;> simp

/-- The reserved bits of the `A` word of SET_BREATHING_EFFECT (R72). -/
theorem breathingA_reserved_iff {a : Word} : a.extractLsb' 1 31 = 0#31 ↔ a.toNat ≤ 1 := by
  rw [← BitVec.toNat_inj, BitVec.extractLsb'_toNat, Nat.shiftRight_eq_div_pow, BitVec.toNat_ofNat]
  omega

/-- The reserved bits of the `B` word of SET_BREATHING_EFFECT (R72). -/
theorem breathingB_reserved_iff {b : Word} : b.extractLsb' 10 22 = 0#22 ↔ b.toNat < 1024 := by
  rw [← BitVec.toNat_inj, BitVec.extractLsb'_toNat, Nat.shiftRight_eq_div_pow, BitVec.toNat_ofNat]
  omega

/-- The `A` word of SET_BREATHING_EFFECT is its bit 0 when the others are zero. -/
theorem breathingA_of_reserved {a : Word} (h : a.extractLsb' 1 31 = 0#31) :
    breathingA (a.getLsbD 0) = a := by
  have hbit : a.getLsbD 0 = decide (a.toNat % 2 = 1) := by
    simp [BitVec.getLsbD, Nat.testBit_zero]
  have hhigh := breathingA_reserved_iff.mp h
  apply BitVec.eq_of_toNat_eq
  rw [hbit, breathingA]
  split <;> simp_all <;> omega

/-- The `B` word of SET_BREATHING_EFFECT is its two fields when bits 31:10 are zero. -/
theorem breathingB_of_reserved {b : Word} (h : b.extractLsb' 10 22 = 0#22) :
    breathingB (b.extractLsb' 8 2) (b.extractLsb' 0 8) = b := by
  have hhigh := breathingB_reserved_iff.mp h
  apply BitVec.eq_of_toNat_eq
  rw [Machine.breathingB_eq_ofNat, BitVec.toNat_ofNat, BitVec.extractLsb'_toNat,
    BitVec.extractLsb'_toNat, Nat.shiftRight_eq_div_pow, Nat.shiftRight_eq_div_pow]
  omega

/-- Fields that decode are the fields of the operation's word. -/
theorem encodeRequest_of_decodeFields {op : Byte} {a b : Word} {i : Instr}
    (h : decodeFields op a b = some i) : encodeRequest i = some (requestOf op a b) := by
  unfold decodeFields at h
  split_ifs at h <;> subst op
  -- the last two codes, the pixel operations, reserve no bit; SET_BREATHING_EFFECT (the seventh)
  -- packs its operands; the others reserve whole words
  on_goal 10 => cases h; rfl
  on_goal 9 => cases h; rfl
  all_goals
    obtain ⟨hreserved, rfl⟩ := acceptIf_eq_some_iff.mp h
    simp only [Bool.and_eq_true, beq_iff_eq] at hreserved
  on_goal 7 =>
    obtain ⟨hA, hB⟩ := hreserved
    simp only [encodeRequest, breathingA_of_reserved hA, breathingB_of_reserved hB]
  all_goals simp only [encodeRequest, hreserved]

theorem decodeRequest_of_encodeRequest {i : Instr} {w : Request} (h : encodeRequest i = some w) :
    decodeRequest w = some i := by
  cases i <;> simp only [encodeRequest, Option.some.injEq, reduceCtorEq] at h <;> subst h <;>
    simp only [decodeRequest_requestOf, decodeFields_hardReset, decodeFields_init,
      decodeFields_clear, decodeFields_flush, decodeFields_setColumnAddress, decodeFields_setPage,
      decodeFields_breathing, decodeFields_getDimensions, decodeFields_setPixelOff,
      decodeFields_setPixelOn]

theorem request_op_toNat (w : Request) : w.op.toNat = w.toNat / 2 ^ 64 := by
  rw [Request.op, BitVec.extractLsb'_toNat, Nat.shiftRight_eq_div_pow]
  omega

theorem request_a_toNat (w : Request) : w.a.toNat = w.toNat / 2 ^ 32 % 2 ^ 32 := by
  rw [Request.a, BitVec.extractLsb'_toNat, Nat.shiftRight_eq_div_pow]

theorem request_b_toNat (w : Request) : w.b.toNat = w.toNat % 2 ^ 32 := by
  rw [Request.b, BitVec.extractLsb'_toNat, Nat.shiftRight_zero]

/-- R74, on the three fields: the code is unassigned or a reserved bit is set. -/
theorem decodeFields_eq_none_iff (op : Byte) (a b : Word) :
    decodeFields op a b = none ↔
      (op.toNat ∉ [1, 2, 3, 4, 5, 6, 7, 8, 16, 17]) ∨
      (op.toNat ∈ [1, 2, 3, 4, 8] ∧ (a.toNat ≠ 0 ∨ b.toNat ≠ 0)) ∨
      (op.toNat ∈ [5, 6] ∧ b.toNat ≠ 0) ∨
      (op.toNat = 7 ∧ (a.toNat / 2 ≠ 0 ∨ b.toNat / 2 ^ 10 ≠ 0)) := by
  have hword (x : Word) : x = 0#32 ↔ x.toNat = 0 := by simp [← BitVec.toNat_inj]
  unfold decodeFields
  split_ifs
  case neg =>
    simp_all [← BitVec.toNat_inj, Opcode.hardReset, Opcode.init, Opcode.clear, Opcode.flush,
      Opcode.setColumnAddress, Opcode.setPage, Opcode.setBreathingEffect, Opcode.getDimensions,
      Opcode.setPixelOff, Opcode.setPixelOn]
  all_goals
    subst op
    simp [acceptIf_eq_none_iff, breathingA_reserved_iff, breathingB_reserved_iff, ← hword,
      imp_iff_not_or, Opcode.hardReset, Opcode.init, Opcode.clear, Opcode.flush,
      Opcode.setColumnAddress, Opcode.setPage, Opcode.setBreathingEffect, Opcode.getDimensions,
      Opcode.setPixelOff, Opcode.setPixelOn]

/-- R74, on the request word. -/
theorem decodeRequest_eq_none_iff (w : Request) :
    decodeRequest w = none ↔
      let op := w.toNat / 2 ^ 64
      let a := w.toNat / 2 ^ 32 % 2 ^ 32
      let b := w.toNat % 2 ^ 32
      (op ∉ [1, 2, 3, 4, 5, 6, 7, 8, 16, 17]) ∨ (op ∈ [1, 2, 3, 4, 8] ∧ (a ≠ 0 ∨ b ≠ 0)) ∨
      (op ∈ [5, 6] ∧ b ≠ 0) ∨ (op = 7 ∧ (a / 2 ≠ 0 ∨ b / 2 ^ 10 ≠ 0)) := by
  rw [decodeRequest, decodeFields_eq_none_iff, request_op_toNat, request_a_toNat, request_b_toNat]

/-- Settles O47: the decoder looks at the fields, and fields that decode hold the operation's
operands in full, since every bit it does not keep is checked to be zero. -/
theorem requestRoundTrip : Obligations.RequestRoundTrip := by
  refine fun i w => ⟨decodeRequest_of_encodeRequest, fun h => ?_⟩
  rw [encodeRequest_of_decodeFields h, requestOf_fields]

/-! ## Command bytes -/

/-- A controller command is the command of a row, and its operand fits that row (R76, R82). -/
theorem exists_opName_of_command {t : OpTable} {i : Instr} (hi : encodeRequest i = none)
    (hfit : i.wfIn t = true) (ht : t.wf = true) :
    ∃ n v, i.opName? = some (n, v) ∧ n.command v = i ∧ (t.entry n).form.fits v = true := by
  have hvalueless (n : OpName) (hn : n.valued = false) : (t.entry n).form.fits 0 = true := by
    have hcf1 := (entry_wf t ht n).2
    rw [hn] at hcf1
    simp_all [Format.fits]
  cases i <;> simp only [encodeRequest, reduceCtorEq] at hi
  case opSegRemapReversed | opResumeFromRam | opNormalDisplay | opDisplayOff | opDisplayOn
      | opComScanReversed => exact ⟨_, _, rfl, rfl, hvalueless _ rfl⟩
  all_goals exact ⟨_, _, rfl, rfl, hfit⟩

/-- Under a table whose rows do not overlap, the row a byte opens is the one the decoder finds. -/
theorem find_opens {t : OpTable} (ht : t.wf = true) (hd : t.distinct = true) {n : OpName} {b : Byte}
    (hb : (t.entry n).opens b = true) :
    OpName.all.find? (fun m => (t.entry m).opens b) = some n := by
  cases hfind : OpName.all.find? (fun m => (t.entry m).opens b) with
  | none => exact absurd hb (List.find?_eq_none.mp hfind n (mem_all n))
  | some m =>
    have hm : (t.entry m).opens b = true :=
      List.find?_some (p := fun m => (t.entry m).opens b) hfind
    by_contra hne
    have hmn : m ≠ n := fun h => hne (by rw [h])
    exact not_opens_of_apart (entry_wf t ht m).1 (entry_wf t ht n).1 (OpTable.distinct_apart hd hmn)
      hm hb

/-- What the first command's bytes decode to does not depend on the bytes that follow them. -/
theorem decodeCommand_split {t : OpTable} {bs rest : List Byte} {i : Instr}
    (h : decodeCommand t bs = some (i, rest)) :
    ∃ front, bs = front ++ rest ∧ front ≠ [] ∧
      ∀ tail, decodeCommand t (front ++ tail) = some (i, tail) := by
  cases bs with
  | nil => cases h
  | cons b bs =>
    cases hfind : OpName.all.find? (fun m => (t.entry m).opens b) with
    | none => simp [decodeCommand, hfind] at h
    | some n =>
      cases hform : (t.entry n).form with
      | cf1 =>
        simp only [decodeCommand, hfind, OpEntry.operand, hform, Option.some.injEq,
          Prod.mk.injEq] at h
        obtain ⟨rfl, rfl⟩ := h
        exact ⟨[b], rfl, by simp, fun tail => by
          simp [decodeCommand, hfind, OpEntry.operand, hform]⟩
      | cf1a w =>
        simp only [decodeCommand, hfind, OpEntry.operand, hform, Option.some.injEq,
          Prod.mk.injEq] at h
        obtain ⟨rfl, rfl⟩ := h
        exact ⟨[b], rfl, by simp, fun tail => by
          simp [decodeCommand, hfind, OpEntry.operand, hform]⟩
      | cf2 =>
        cases bs with
        | nil => simp [decodeCommand, hfind, OpEntry.operand, hform] at h
        | cons p bs =>
          simp only [decodeCommand, hfind, OpEntry.operand, hform, Option.some.injEq,
            Prod.mk.injEq] at h
          obtain ⟨rfl, rfl⟩ := h
          exact ⟨[b, p], rfl, by simp, fun tail => by
            simp [decodeCommand, hfind, OpEntry.operand, hform]⟩

/-- `firstCommandBytes` cuts exactly the bytes of the first command. -/
theorem decodeCommand_firstCommandBytes {t : OpTable} {w : Nat} {rest : List Byte} {i : Instr}
    (h : decodeCommand t (commandBytes w) = some (i, rest)) (tail : List Byte) :
    firstCommandBytes t w ≠ [] ∧
      decodeCommand t (firstCommandBytes t w ++ tail) = some (i, tail) := by
  obtain ⟨front, hbytes, hne, hdecode⟩ := decodeCommand_split h
  have hlen : front.length + rest.length = 2 := by
    rw [← List.length_append, ← hbytes]
    rfl
  have hcut : firstCommandBytes t w = front := by
    simp only [firstCommandBytes, h]
    rw [hbytes, ← hlen, Nat.add_sub_cancel, List.take_left]
  rw [hcut]
  exact ⟨hne, hdecode tail⟩

/-- Settles O48: a command's first byte opens its own row and, as rows do not overlap, no other; its
operand comes back because it fits the row. -/
theorem commandRoundTrip : Obligations.CommandRoundTrip := by
  intro t i rest ht hd hfit hi
  obtain ⟨n, v, hname, rfl, hv⟩ := exists_opName_of_command hi hfit ht
  obtain ⟨b, tail, hbytes, hopens, hoperand⟩ := assemble_opens _ v rest (entry_wf t ht n).1 hv
  simp only [encodeCommand, hname, hbytes, decodeCommand, find_opens ht hd hopens, hoperand]

/-- Settles O49: the decoder evaluated on the written-out words. -/
theorem tableWordsDecode : Obligations.TableWordsDecode := by
  refine ⟨by decide, by decide, ?_, ?_, ?_, ?_, ?_, ?_⟩ <;> decide

end Sys2Proof
end

section
/-! PROOFS. What a step and an instruction do, case by case (10_state.md R24, R25; 60_exceptions.md
R155): the equations of `step`, a host operation as its request and its body, and the statements
read off them. -/

namespace Sys2Proof.Machine

/-! ## The equations of a step -/

section
variable {s : State}

theorem step_illFormed (hw : s.cfg.wf = false) : step s = .refused .illFormedConfig := by
  simp [step, fetch, hw]

theorem step_panelCommand {i : Instr} {rest : List Byte} (hw : s.cfg.wf = true)
    (hp : s.panelIn ≠ []) (hd : decodeCommand s.cfg.ops s.panelIn = some (i, rest)) :
    step s = exec i { s with panelIn := rest } := by
  cases hin : s.panelIn with
  | nil => exact absurd hin hp
  | cons b bs => simp [step, fetch, hw, hin, hin ▸ hd]

theorem step_unknownCommand (hw : s.cfg.wf = true) (hp : s.panelIn ≠ [])
    (hd : decodeCommand s.cfg.ops s.panelIn = none) :
    step s = .refused (.unknownCommand s.panelIn) := by
  cases hin : s.panelIn with
  | nil => exact absurd hin hp
  | cons b bs => simp [step, fetch, hw, hin, hin ▸ hd]

theorem step_busy {k : Nat} (hw : s.cfg.wf = true) (hp : s.panelIn = []) (hs : s.seq = .busy k) :
    step s = resume s := by
  simp [step, fetch, hw, hp, hs]

theorem step_idle_nil (hw : s.cfg.wf = true) (hp : s.panelIn = []) (hs : s.seq = .idle)
    (hr : s.requests = []) : step s = .next s := by
  simp [step, fetch, hw, hp, hs, hr]

theorem step_request {w : Request} {ws : List Request} {i : Instr} (hw : s.cfg.wf = true)
    (hp : s.panelIn = []) (hs : s.seq = .idle) (hr : s.requests = w :: ws)
    (hd : decodeRequest w = some i) : step s = exec i { s with requests := ws } := by
  simp [step, fetch, hw, hp, hs, hr, hd]

theorem step_reservedRequest {w : Request} {ws : List Request} (hw : s.cfg.wf = true)
    (hp : s.panelIn = []) (hs : s.seq = .idle) (hr : s.requests = w :: ws)
    (hd : decodeRequest w = none) : step s = .refused (.reservedRequest w) := by
  simp [step, fetch, hw, hp, hs, hr, hd]

theorem resume_nil (hw : s.cfg.wf = true) (hpend : s.pendingEvents = []) :
    resume s = .fault .latchesUnwritten := by
  simp [resume, hw, hpend]

theorem resume_eq_run (hw : s.cfg.wf = true) (hpend : s.pendingEvents ≠ []) :
    resume s = .next (run s.pendingEvents s) := by
  cases hp : s.pendingEvents with
  | nil => exact absurd hp hpend
  | cons m ms => simp [resume, hw, hp]

/-- A step of a waiting block goes on with its operation (R24). -/
theorem step_busy_run {k : Nat} (hw : s.cfg.wf = true) (hp : s.panelIn = []) (hs : s.seq = .busy k)
    (hpend : s.pendingEvents ≠ []) : step s = .next (run s.pendingEvents s) :=
  (step_busy hw hp hs).trans (resume_eq_run hw hpend)

theorem pendingEvents_eq {k : Nat} {i : Instr} (hs : s.seq = .busy k) (hi : s.latched = some i) :
    s.pendingEvents = (operationEvents s.cfg i).drop k := by
  simp [State.pendingEvents, hs, hi]

end

/-! ## A host operation as its request and its body -/

/-- What a host operation does once its request is accepted (R25): an operation with an event list
runs it, the four others write the framebuffer or the response alone. -/
def hostBody (c : Config) (i : Instr) (t : State) : State :=
  match i with
  | .clear => t.clearFb.respond 0
  | .getDimensions => t.respond (dimensionsPayload t.cfg.geom)
  | .setPixelOff x y => (t.paint false x y).respond 0
  | .setPixelOn x y => (t.paint true x y).respond 0
  | _ => run (operationEvents c i) t

/-- Every host operation is its accepted request and its body. -/
theorem exec_eq_hostOp {i : Instr} (hi : (encodeRequest i).isSome = true) :
    ∃ op a b, decodeFields op a b = some i ∧
      ∀ s : State, exec i s = hostOp op a b (hostBody s.cfg i) s := by
  cases i <;> simp only [encodeRequest, Option.isSome_none, Bool.false_eq_true] at hi
  case setColumnAddress c => exact ⟨_, c, 0, decodeFields_setColumnAddress c, fun _ => rfl⟩
  case setPage p => exact ⟨_, p, 0, decodeFields_setPage p, fun _ => rfl⟩
  case setBreathingEffect on sel frames =>
    exact ⟨_, _, _, decodeFields_breathing on sel frames, fun _ => rfl⟩
  case setPixelOff x y => exact ⟨_, x, y, decodeFields_setPixelOff x y, fun _ => rfl⟩
  case setPixelOn x y => exact ⟨_, x, y, decodeFields_setPixelOn x y, fun _ => rfl⟩
  case hardReset => exact ⟨_, 0, 0, decodeFields_hardReset, fun _ => rfl⟩
  case init => exact ⟨_, 0, 0, decodeFields_init, fun _ => rfl⟩
  case clear => exact ⟨_, 0, 0, decodeFields_clear, fun _ => rfl⟩
  case flush => exact ⟨_, 0, 0, decodeFields_flush, fun _ => rfl⟩
  case getDimensions => exact ⟨_, 0, 0, decodeFields_getDimensions, fun _ => rfl⟩

/-- What an operation without an event list may make of the framebuffer: nothing, CLEAR's empty
list, or a drawn point. -/
def fbWrite (i : Instr) (g : Geometry) (fb fb' : Memory) : Prop :=
  fb' = fb ∨ i = .clear ∧ fb' = [] ∨ ∃ p : DrawPoint, i = p.instr ∧ fb' = p.paint g fb

theorem fbWrite_pixel (p : DrawPoint) (t : State) :
    fbWrite p.instr t.cfg.geom t.fb (t.paint p.on p.x p.y).fb :=
  .inr (.inr ⟨p, rfl, State.paint_fb_eq p t⟩)

/-- A body runs the operation's events, or there are none and it writes at most the framebuffer and
the response. -/
theorem hostBody_cases (c : Config) (i : Instr) :
    hostBody c i = run (operationEvents c i) ∨
    operationEvents c i = [] ∧ ∀ t, ∃ fb pl, fbWrite i t.cfg.geom t.fb fb ∧
      hostBody c i t = { t with fb := fb, resp := ⟨statusOk, pl⟩, seq := .idle } := by
  cases i
  case clear => exact .inr ⟨rfl, fun t => ⟨[], 0, .inr (.inl ⟨rfl, rfl⟩), rfl⟩⟩
  case getDimensions => exact .inr ⟨rfl, fun t => ⟨t.fb, _, .inl rfl, rfl⟩⟩
  case setPixelOff x y =>
    exact .inr ⟨rfl, fun t => ⟨_, 0, fbWrite_pixel ⟨x, y, false⟩ t, by
      rw [hostBody, paint_eq]; rfl⟩⟩
  case setPixelOn x y =>
    exact .inr ⟨rfl, fun t => ⟨_, 0, fbWrite_pixel ⟨x, y, true⟩ t, by
      rw [hostBody, paint_eq]; rfl⟩⟩
  all_goals exact .inl rfl

/-- Everything a host operation that answers a next state does. -/
theorem exec_host_next {i : Instr} {s t : State} (hi : (encodeRequest i).isSome = true)
    (h : exec i s = .next t) :
    s.cfg.wf = true ∧ s.seq = .idle ∧ ∃ op a b, decodeFields op a b = some i ∧
      t = hostBody s.cfg i (s.accept op a b) := by
  obtain ⟨op, a, b, hdecode, hexec⟩ := exec_eq_hostOp hi
  rw [hexec s] at h
  rcases hostOp_cases op a b (hostBody s.cfg i) s with ⟨hw, hs, hop⟩ | ⟨k, -, hop⟩ | ⟨-, hop⟩
  · rw [hop] at h
    cases h
    exact ⟨hw, hs, op, a, b, hdecode, rfl⟩
  · rw [hop] at h
    cases h
  · rw [hop] at h
    cases h

/-! ## Everything a step can do -/

theorem accept_latched (op : Byte) (a b : Word) (s : State) :
    (s.accept op a b).latched = decodeFields op a b := rfl

/-- `u` is where a step of `s` begins to run the operation `i` from position `k`: `s` itself, or the
state in which an idle `s` has accepted its oldest request. -/
def State.entersRun (s u : State) (i : Instr) (k : Nat) : Prop :=
  u.seq = .busy k ∧ u.latched = some i ∧
    (u = s ∨ k = 0 ∧ s.seq = .idle ∧ ∃ ws op a b, u = ({ s with requests := ws }).accept op a b)

/-- Everything a step that answers a next state does: a command of the panel's input, nothing, a run
of the events still to come, or an operation without events. -/
theorem step_next_cases {s t : State} (h : step s = .next t) :
    (∃ i rest, encodeRequest i = none ∧
      t = { s with panelIn := rest, panel := s.panel.command i }) ∨
    t = s ∨
    (∃ u i k, s.entersRun u i k ∧ t = run u.pendingEvents u) ∨
    ∃ (i : Instr) (ws : List Request) (op : Byte) (a b : Word) (fb : Memory) (pl : Word),
      s.seq = .idle ∧ fbWrite i s.cfg.geom s.fb fb ∧
      t = { s with
        requests := ws, opc := op, A := a, B := b, fb := fb, resp := ⟨statusOk, pl⟩ } := by
  obtain ⟨-, hpanel | ⟨-, -, -, rfl⟩ | ⟨k, -, hs, hpend, rfl⟩ |
    ⟨i, w, ws, -, hs, -, -, hi, hexec⟩⟩ := step_cases s t h
  · exact .inl hpanel
  · exact .inr (.inl rfl)
  · cases hl : s.latched with
    | none => simp [State.pendingEvents, hl] at hpend
    | some i => exact .inr (.inr (.inl ⟨s, i, k, ⟨hs, hl, .inl rfl⟩, rfl⟩))
  · obtain ⟨-, -, op, a, b, hdecode, rfl⟩ := exec_host_next hi hexec
    rcases hostBody_cases s.cfg i with hrun | ⟨-, hwrite⟩
    · have hlatched := (accept_latched op a b { s with requests := ws }).trans hdecode
      refine .inr (.inr (.inl ⟨({ s with requests := ws }).accept op a b, i, 0,
        ⟨rfl, hlatched, .inr ⟨rfl, hs, ws, op, a, b, rfl⟩⟩, ?_⟩))
      rw [pendingEvents_eq (accept_seq ..) hlatched]
      exact congrFun hrun _
    · obtain ⟨fb, pl, hfb, hbody⟩ := hwrite (({ s with requests := ws }).accept op a b)
      refine .inr (.inr (.inr ⟨i, ws, op, a, b, fb, pl, hs, hfb, hbody.trans ?_⟩))
      simp [State.accept, hs]

/-! ## The statements -/

theorem exec_ne_fault (i : Instr) (s : State) (f : Fault) : exec i s ≠ .fault f := by
  cases hi : encodeRequest i with
  | none => simp [exec_command i s hi]
  | some w =>
    obtain ⟨op, a, b, -, hexec⟩ := exec_eq_hostOp (i := i) (by rw [hi]; rfl)
    rw [hexec s]
    rcases hostOp_cases op a b (hostBody s.cfg i) s with ⟨-, -, hop⟩ | ⟨k, -, hop⟩ | ⟨-, hop⟩ <;>
      simp [hop]

/-- The one fault: a busy sequencer whose latches hold no event at its position (U10). -/
theorem pendingEvents_of_step_fault {s : State} {f : Fault} (h : step s = .fault f) :
    (∃ k, s.seq = .busy k) ∧ s.pendingEvents = [] := by
  by_cases hw : s.cfg.wf = true
  swap
  · simp [step_illFormed (by simpa using hw)] at h
  by_cases hp : s.panelIn = []
  swap
  · cases hd : decodeCommand s.cfg.ops s.panelIn with
    | none => simp [step_unknownCommand hw hp hd] at h
    | some q => exact absurd ((step_panelCommand hw hp hd).symm.trans h) (exec_ne_fault _ _ _)
  cases hs : s.seq with
  | busy k =>
    refine ⟨⟨k, rfl⟩, ?_⟩
    by_contra hpend
    simp [step_busy_run hw hp hs hpend] at h
  | idle =>
    cases hr : s.requests with
    | nil => simp [step_idle_nil hw hp hs hr] at h
    | cons w ws =>
      cases hd : decodeRequest w with
      | none => simp [step_reservedRequest hw hp hs hr hd] at h
      | some i => exact absurd ((step_request hw hp hs hr hd).symm.trans h) (exec_ne_fault _ _ _)

/-- Settles O7: the one fault needs a busy sequencer without an event to come, which the invariant
excludes. -/
theorem noStepFaultsUnderInvariant : Obligations.NoStepFaultsUnderInvariant := by
  refine ⟨exec_ne_fault, fun s f hinv h => ?_⟩
  obtain ⟨⟨k, hs⟩, hpend⟩ := pendingEvents_of_step_fault h
  exact hinv.inProgress k hs hpend

/-- Settles O35: the request branch of a step. -/
theorem stepRunsDecodedRequest : Obligations.StepRunsDecodedRequest :=
  fun _ _ _ _ hw hp hs hr hd => step_request hw hp hs hr hd

/-- Settles O36: the panel-input branch of a step. -/
theorem stepRunsPanelCommand : Obligations.StepRunsPanelCommand :=
  fun _ _ _ hw hp hd => step_panelCommand hw hp hd

/-- Settles O37: the placed request is the oldest of an idle block; the placed bytes decode as they
did in the word, whatever bytes follow them. -/
theorem placedInstructionRunsNext : Obligations.PlacedInstructionRunsNext := by
  refine fun s n w i hw => ⟨fun hn hd => ?_, fun hn rest hd => ?_⟩
  · rw [State.withFetchWord, if_pos hn]
    exact step_request hw rfl rfl rfl hd
  · obtain ⟨hne, hdecode⟩ := decodeCommand_firstCommandBytes hd s.panelIn
    rw [State.withFetchWord, if_neg (by omega)]
    exact step_panelCommand hw (by simp [hne]) hdecode

/-- Settles O39: R74 on the three fields of a word, and the refusing branch of a step. -/
theorem reservedRequestsAreRefused : Obligations.ReservedRequestsAreRefused :=
  ⟨decodeRequest_eq_none_iff, fun _ _ _ hw hp hs hr hd => step_reservedRequest hw hp hs hr hd⟩

/-- Settles O40: a busy block refuses every host operation, and its step runs events only, which
never touches the latches or the requests. -/
theorem busyHoldsRequests : Obligations.BusyHoldsRequests := by
  refine fun s k hw hs => ⟨fun i hi => ?_, fun hp t h => ?_⟩
  · obtain ⟨op, a, b, -, hexec⟩ := exec_eq_hostOp hi
    simp [hexec s, hostOp, hw, hs]
  · by_cases hpend : s.pendingEvents = []
    · simp [step_busy hw hp hs, resume_nil hw hpend] at h
    · rw [step_busy_run hw hp hs hpend] at h
      cases h
      simp

/-- Settles O41: the pending entry is taken off and the event is not passed. -/
theorem unansweredEventWaits : Obligations.UnansweredEventWaits := by
  intro s k rest hinv hp hs henv
  have hpend := hinv.inProgress k hs
  rw [step_busy_run hinv.cfgWf hp hs hpend]
  cases hev : s.pendingEvents with
  | nil => exact absurd hev hpend
  | cons m ms =>
    rw [run_cons_waiting m ms s _ (emit_waiting _ _ (nextAnswer_cons s _ _ henv)),
      useAnswer_env_cons s _ _ henv]

/-- Settles O43: the branch of a step with nothing presented. -/
theorem idleBlockDoesNothing : Obligations.IdleBlockDoesNothing :=
  fun _ hw hp hs hr => step_idle_nil hw hp hs hr

/-- Settles O44: a step and every host operation look at the configuration first. -/
theorem illFormedConfigIsRefused : Obligations.IllFormedConfigIsRefused := by
  refine fun s hw => ⟨step_illFormed hw, fun i hi => ?_⟩
  obtain ⟨op, a, b, -, hexec⟩ := exec_eq_hostOp hi
  simp [hexec s, hostOp, hw]

end Sys2Proof.Machine
end

section
/-! PROOFS. The invariants of a step (10_state.md R21, R24; 60_exceptions.md R146; 00_scope.md R14):
the data of a state, the position of its sequencer and its trace, each carried through a run by
`run_induction`. -/

namespace Sys2Proof.Machine

/-! ## The data of a state -/

/-- The structural invariant without the sequencer: what a state's configuration, framebuffer, panel
and response obey wherever an operation stands. -/
structure State.DataInv (s : State) : Prop where
  cfgWf : s.cfg.wf = true
  fbWf : s.fb.wf = true
  fbBound : ∀ c ∈ s.fb, c.1 < s.cfg.geom.bufferSize
  ramWf : s.panel.ramWf
  status : s.resp.status = 0x00 ∨ s.resp.status = 0x01 ∨ s.resp.status = 0x02

theorem inv_iff {s : State} :
    s.Inv ↔ s.DataInv ∧ ∀ k, s.seq = .busy k → s.pendingEvents ≠ [] :=
  ⟨fun h => ⟨⟨h.cfgWf, h.fbWf, h.fbBound, ⟨h.ramRising, h.ramBound⟩, h.status⟩, h.inProgress⟩,
   fun ⟨h, hp⟩ => ⟨h.cfgWf, h.fbWf, h.fbBound, h.ramWf.1, h.ramWf.2, hp, h.status⟩⟩

theorem inv_of_idle {s : State} (h : s.DataInv) (hs : s.seq = .idle) : s.Inv :=
  inv_iff.mpr ⟨h, fun k hk => by simp [hs] at hk⟩

/-- The panel's RAM keeps its form through every event, whatever its answer. -/
theorem onPanel_ramWf (act : Action) (ev : Event) (ans : Answer) (pin : Bool) {p : Panel}
    (h : p.ramWf) : (act.onPanel ev ans pin p).ramWf := by
  have hrelease : p.releaseReset.ramWf := by
    unfold Panel.releaseReset
    split <;> exact h
  have hpin (q : Panel) (hq : q.ramWf) : (if pin then q else p).ramWf := by
    split
    · exact hq
    · exact h
  cases act with
  | command i =>
    cases ans with
    | ok => exact command_ramWf i p h
    | fail => exact failedCommand_ramWf p h
    | failPin e => exact failedCommand_ramWf p h
  | pageData pg =>
    cases ev with
    | busData bs =>
      cases ans with
      | ok => exact data_ramWf bs p h
      | fail => exact failedData_ramWf _ p h
      | failPin e => exact failedData_ramWf _ p h
    | _ => cases ans <;> exact h
  | pinHigh =>
    cases ans with
    | ok => exact hpin _ hrelease
    | fail => exact hpin _ (ramWf_nil _ rfl)
    | failPin e => exact hpin _ (ramWf_nil _ rfl)
  | pinLow => cases ans <;> exact hpin _ (ramWf_nil _ rfl)
  | delayMs n => exact h
  | delayUs n => exact h

namespace State.DataInv

variable {s t : State} (h : s.DataInv)
include h

theorem of_eq (hc : t.cfg = s.cfg) (hf : t.fb = s.fb) (hp : t.panel = s.panel)
    (hr : t.resp = s.resp) : t.DataInv :=
  ⟨hc ▸ h.cfgWf, hf ▸ h.fbWf, hc ▸ hf ▸ h.fbBound, hp ▸ h.ramWf, hr ▸ h.status⟩

theorem useAnswer : s.useAnswer.DataInv :=
  h.of_eq (useAnswer_cfg s) (useAnswer_fb s) (useAnswer_panel s) (useAnswer_resp s)

theorem answered (act : Action) (ans : Answer) : (s.answered act ans).DataInv :=
  ⟨h.cfgWf, h.fbWf, h.fbBound, onPanel_ramWf _ _ _ _ h.ramWf, h.status⟩

theorem after (p : Post) : (s.after p).DataInv := by
  cases p with
  | clear => exact ⟨h.cfgWf, wf_nil, by simp [State.after], h.ramWf, h.status⟩
  | _ => exact h.of_eq rfl rfl rfl rfl

theorem okStep (m : Micro) : (s.okStep m).DataInv :=
  ((h.answered m.act .ok).of_eq (advance_cfg _) (advance_fb _) (advance_panel _)
    (advance_resp _)).after m.post

theorem respond (pl : Word) : (s.respond pl).DataInv :=
  ⟨h.cfgWf, h.fbWf, h.fbBound, h.ramWf, .inl rfl⟩

theorem raise (e : OpError) : (s.raise e).DataInv :=
  ⟨h.cfgWf, h.fbWf, h.fbBound, h.ramWf, by cases e <;> simp [OpError.response, OpError.status]⟩

/-- What an operation without events makes of the framebuffer keeps its form and its bound. -/
theorem fbWrite {i : Instr} {fb : Memory} (hfb : fbWrite i s.cfg.geom s.fb fb) :
    fb.wf = true ∧ ∀ c ∈ fb, c.1 < s.cfg.geom.bufferSize := by
  obtain rfl | ⟨-, rfl⟩ | ⟨p, -, rfl⟩ := hfb
  · exact ⟨h.fbWf, h.fbBound⟩
  · exact ⟨wf_nil, by simp⟩
  · refine ⟨p.paint_wf h.fbWf, fun c hc => ?_⟩
    rw [DrawPoint.paint] at hc
    split at hc
    · rename_i hcanvas
      obtain hc | hc := mem_write _ _ _ c hc
      · rw [hc]
        exact byteIndex_lt_bufferSize (Config.wf_parts h.cfgWf).1 hcanvas
      · exact h.fbBound c hc
    · exact h.fbBound c hc

end State.DataInv

/-! ## The position of the sequencer -/

/-- A busy sequencer with the events `ms` still to come. -/
def State.awaits (s : State) (ms : List Micro) : Prop :=
  ∃ i k, s.seq = .busy k ∧ s.latched = some i ∧ (operationEvents s.cfg i).drop k = ms

theorem State.awaits.pendingEvents {s : State} {ms : List Micro} (h : s.awaits ms) :
    s.pendingEvents = ms := by
  obtain ⟨i, k, hs, hi, rfl⟩ := h
  exact pendingEvents_eq hs hi

theorem State.awaits.useAnswer {s : State} {ms : List Micro} (h : s.awaits ms) :
    s.useAnswer.awaits ms := by
  obtain ⟨i, k, hs, hi, hms⟩ := h
  exact ⟨i, k, (useAnswer_seq s).trans hs,
    (latched_congr _ _ (useAnswer_opc s) (useAnswer_A s) (useAnswer_B s)).trans hi,
    (useAnswer_cfg s).symm ▸ hms⟩

/-- An event answered `ok` moves the sequencer past it. -/
theorem State.awaits.okStep {s : State} {m : Micro} {ms : List Micro} (h : s.awaits (m :: ms)) :
    (s.okStep m).awaits ms := by
  obtain ⟨i, k, hs, hi, hms⟩ := h
  refine ⟨i, k + 1, by simp [State.okStep, State.advance, hs],
    (latched_congr _ _ (by simp [State.okStep]) (by simp [State.okStep])
      (by simp [State.okStep])).trans hi, ?_⟩
  rw [okStep_cfg, ← List.drop_drop, hms, List.drop_one, List.tail_cons]

theorem State.entersRun.awaits {s u : State} {i : Instr} {k : Nat} (h : s.entersRun u i k) :
    u.awaits u.pendingEvents :=
  ⟨i, k, h.1, h.2.1, (pendingEvents_eq h.1 h.2.1).symm⟩

/-! ## The structural invariant -/

theorem run_inv {u : State} (h : u.DataInv) (hu : u.awaits u.pendingEvents) :
    (run u.pendingEvents u).Inv := by
  refine run_induction (P := fun ms t => t.DataInv ∧ t.awaits ms) (Q := State.Inv)
    ?finish ?go ?error ?wait _ _ ⟨h, hu⟩
  case finish => exact fun t ⟨ht, _⟩ => inv_of_idle (ht.respond 0) rfl
  case go => exact fun m ms t ⟨ht, hms⟩ _ => ⟨ht.useAnswer.okStep m, hms.useAnswer.okStep⟩
  case error =>
    exact fun m ms t ans e ⟨ht, _⟩ _ _ =>
      inv_of_idle ((ht.useAnswer.answered m.act ans).raise e) rfl
  case wait =>
    exact fun m ms t ⟨ht, hms⟩ _ =>
      inv_iff.mpr ⟨ht.useAnswer, fun _ _ => by simp [hms.useAnswer.pendingEvents]⟩

/-- Acceptance of a request changes none of the data. -/
theorem State.entersRun.data {s u : State} {i : Instr} {k : Nat} (h : s.entersRun u i k) :
    u.cfg = s.cfg ∧ u.fb = s.fb ∧ u.panel = s.panel ∧ u.resp = s.resp ∧ u.trace = s.trace ∧
      u.dstate = s.dstate ∧ u.rst = s.rst := by
  obtain ⟨-, -, rfl | ⟨-, -, ws, op, a, b, rfl⟩⟩ := h <;> exact ⟨rfl, rfl, rfl, rfl, rfl, rfl, rfl⟩

/-- Settles O3: a run carries the data and the position of the sequencer from event to event; the
other steps write the panel, or the framebuffer and the response of an idle block. -/
theorem stepKeepsStructuralInvariant : Obligations.StepKeepsStructuralInvariant := by
  intro s t hinv h
  obtain ⟨hdata, hpend⟩ := inv_iff.mp hinv
  obtain ⟨i, rest, -, rfl⟩ | rfl | ⟨u, i, k, hu, rfl⟩ | ⟨i, ws, op, a, b, fb, pl, hs, hfb, rfl⟩ :=
    step_next_cases h
  · exact inv_iff.mpr ⟨⟨hdata.cfgWf, hdata.fbWf, hdata.fbBound, command_ramWf i _ hdata.ramWf,
      hdata.status⟩, hpend⟩
  · exact hinv
  · obtain ⟨hc, hf, hp, hr, -⟩ := hu.data
    exact run_inv (hdata.of_eq hc hf hp hr) hu.awaits
  · obtain ⟨hwf, hbound⟩ := hdata.fbWrite hfb
    exact inv_of_idle ⟨hdata.cfgWf, hwf, hbound, hdata.ramWf, .inl rfl⟩ hs

/-! ## The trace -/

theorem run_trace_prefix (ms : List Micro) (s : State) : s.trace <+: (run ms s).trace := by
  refine run_induction (P := fun _ t => s.trace <+: t.trace) (Q := fun t => s.trace <+: t.trace)
    ?finish ?go ?error ?wait ms s List.prefix_rfl
  case finish => exact fun t ht => ht
  case go => exact fun m ms t ht _ => by simpa using ht.trans (List.prefix_append _ _)
  case error => exact fun m ms t ans e ht _ _ => by simpa using ht.trans (List.prefix_append _ _)
  case wait => exact fun m ms t ht _ => by simpa using ht

/-- Settles O6: only a run touches the trace, and it appends. -/
theorem traceGrowsAndConfigStays : Obligations.TraceGrowsAndConfigStays := by
  intro s t h
  obtain ⟨i, rest, -, rfl⟩ | rfl | ⟨u, i, k, hu, rfl⟩ | ⟨i, ws, op, a, b, fb, pl, -, -, rfl⟩ :=
    step_next_cases h
  · exact ⟨List.prefix_rfl, rfl⟩
  · exact ⟨List.prefix_rfl, rfl⟩
  · obtain ⟨hc, -, -, -, htrace, -⟩ := hu.data
    exact ⟨htrace ▸ run_trace_prefix _ u, (run_cfg _ u).trans hc⟩
  · exact ⟨List.prefix_rfl, rfl⟩

/-- A pin error fits its width (R73). -/
theorem pinError_lt (c : Config) (e : Word) : (pinError c e).toNat < 2 ^ c.pinErrW := by
  rw [pinError, BitVec.toNat_ofNat]
  exact (Nat.mod_le _ _).trans_lt (Nat.mod_lt _ (Nat.two_pow_pos _))

/-- Every answer is `ok`, a bus event's failure, or a wired pin event's with its value cut to size
(R14). -/
theorem answer_cases {c : Config} {ev : Event} {x : EnvAnswer} {ans : Answer}
    (h : ev.answer c x = some ans) :
    ans = .ok ∨ (ans = .fail ∧ ((∃ bs, ev = .busCmd bs) ∨ ∃ bs, ev = .busData bs)) ∨
      (c.pinPresent = true ∧ (ev = .pinHigh ∨ ev = .pinLow) ∧
        ∃ v, ans = .failPin (pinError c v)) := by
  cases x with
  | pending => cases h
  | ok => exact .inl (Option.some.inj h).symm
  | fail v =>
    have hpin (h : (if c.pinPresent then some (Answer.failPin (pinError c v)) else some .ok) =
        some ans) : ans = .ok ∨ c.pinPresent = true ∧ ∃ v, ans = .failPin (pinError c v) := by
      split at h <;> cases h
      · exact .inr ⟨‹_›, v, rfl⟩
      · exact .inl rfl
    cases ev with
    | busCmd bs => exact .inr (.inl ⟨(Option.some.inj h).symm, .inl ⟨bs, rfl⟩⟩)
    | busData bs => exact .inr (.inl ⟨(Option.some.inj h).symm, .inr ⟨bs, rfl⟩⟩)
    | pinHigh => exact (hpin h).imp_right fun ⟨hp, hv⟩ => .inr ⟨hp, .inl rfl, hv⟩
    | pinLow => exact (hpin h).imp_right fun ⟨hp, hv⟩ => .inr ⟨hp, .inr rfl, hv⟩
    | delayMs n => exact .inl (Option.some.inj h).symm
    | delayUs n => exact .inl (Option.some.inj h).symm

/-- An event that an operation emits, with the answer it gets, is lawful (R14, R77, R83, R84). -/
theorem lawfulEntry_of_answer {i : Instr} {m : Micro} {s : State} {x : EnvAnswer} {ans : Answer}
    (hw : s.cfg.wf = true) (hm : m ∈ operationEvents s.cfg i)
    (ha : (m.act.event s).answer s.cfg x = some ans) :
    lawfulEntry s.cfg (m.act.event s, ans) := by
  have hans := answer_cases ha
  cases hact : m.act with
  | command j =>
    obtain ⟨hfit, hcmd⟩ := operationEvents_wfIn s.cfg hw i m hm j hact
    refine ⟨⟨j, hfit, rfl⟩, encodeCommand_length _ _ hcmd, ?_⟩
    simpa [hact, Action.event] using hans
  | pageData pg =>
    refine ⟨slice_length _ _ _, ?_⟩
    simpa [hact, Action.event] using hans
  | pinHigh =>
    obtain rfl | ⟨-, hev⟩ | ⟨hp, -, v, rfl⟩ := hans
    · exact .inl rfl
    · simp [hact, Action.event] at hev
    · exact .inr ⟨hp, _, rfl, pinError_lt _ _⟩
  | pinLow =>
    obtain rfl | ⟨-, hev⟩ | ⟨hp, -, v, rfl⟩ := hans
    · exact .inl rfl
    · simp [hact, Action.event] at hev
    · exact .inr ⟨hp, _, rfl, pinError_lt _ _⟩
  | delayMs n =>
    show ans = .ok
    simpa [hact, Action.event] using hans
  | delayUs n =>
    show ans = .ok
    simpa [hact, Action.event] using hans

theorem traceLaw_append {s t : State} {e : Event × Answer} (h : s.TraceLaw) (hc : t.cfg = s.cfg)
    (ht : t.trace = s.trace ++ [e]) (he : lawfulEntry s.cfg e) : t.TraceLaw := by
  intro e' he'
  rw [ht, List.mem_append, List.mem_singleton] at he'
  rw [hc]
  obtain he' | rfl := he'
  · exact h e' he'
  · exact he

theorem run_traceLaw {i : Instr} {ms : List Micro} {u : State} (hw : u.cfg.wf = true)
    (hms : ∀ m ∈ ms, m ∈ operationEvents u.cfg i) (h : u.TraceLaw) : (run ms u).TraceLaw := by
  have hnext (t : State) (m : Micro) (ans : Answer) (hc : t.cfg = u.cfg) (ht : t.TraceLaw)
      (hm : m ∈ operationEvents u.cfg i)
      (ha : (m.act.event t).answer t.cfg t.nextAnswer = some ans) :
      (t.useAnswer.answered m.act ans).TraceLaw :=
    traceLaw_append ht (by simp) (by simp) (lawfulEntry_of_answer (hc ▸ hw) (hc ▸ hm) ha)
  refine run_induction
    (P := fun ns t => t.cfg = u.cfg ∧ t.TraceLaw ∧ ∀ m ∈ ns, m ∈ operationEvents u.cfg i)
    (Q := State.TraceLaw) ?finish ?go ?error ?wait _ _ ⟨rfl, h, hms⟩
  case finish => exact fun t ⟨_, ht, _⟩ => ht
  case go =>
    intro m ns t ⟨hc, ht, hns⟩ ha
    have hok := hnext t m .ok hc ht (hns m List.mem_cons_self) ha
    refine ⟨by simpa using hc, ?_, fun n hn => hns n (List.mem_cons_of_mem m hn)⟩
    simpa [State.TraceLaw] using hok
  case error =>
    exact fun m ns t ans e ⟨hc, ht, hns⟩ ha _ => hnext t m ans hc ht (hns m List.mem_cons_self) ha
  case wait => exact fun m ns t ⟨_, ht, _⟩ _ => by simpa [State.TraceLaw] using ht

/-- Settles O5: only a run appends to the trace, and each entry it appends is an event of an
operation with an answer that R14 allows. -/
theorem stepKeepsTraceLawful : Obligations.StepKeepsTraceLawful := by
  intro s t hinv hlaw h
  obtain ⟨i, rest, -, rfl⟩ | rfl | ⟨u, i, k, hu, rfl⟩ | ⟨i, ws, op, a, b, fb, pl, -, -, rfl⟩ :=
    step_next_cases h
  · exact hlaw
  · exact hlaw
  · obtain ⟨hc, -, -, -, htrace, -⟩ := hu.data
    refine run_traceLaw (i := i) (hc ▸ hinv.cfgWf) (fun m hm => ?_) ?_
    · rw [pendingEvents_eq hu.1 hu.2.1] at hm
      exact List.mem_of_mem_drop hm
    · rwa [State.TraceLaw, hc, htrace]
  · exact hlaw

/-! ## The driver-state invariant -/

theorem dstateAfter_append (ms ns : List Micro) (d : DriverState) :
    dstateAfter (ms ++ ns) d = dstateAfter ns (dstateAfter ms d) := List.foldl_append

theorem lineAfter_append (ms ns : List Micro) (l : ResetLine) :
    lineAfter (ms ++ ns) l = lineAfter ns (lineAfter ms l) := List.foldl_append

theorem foldl_okStep_registers (ms : List Micro) (s : State) :
    (ms.foldl State.okStep s).dstate = dstateAfter ms s.dstate ∧
    (ms.foldl State.okStep s).rst = lineAfter ms s.rst ∧
    (ms.foldl State.okStep s).seq = s.seq.plus ms.length := by
  obtain ⟨p, hp⟩ := foldl_okStep_eq ms s
  rw [hp]
  exact ⟨rfl, rfl, rfl⟩

/-- `dstate` and `rst` at position `k` of an operation, as what its events up to there made of
lawful registers. -/
def State.phaseReached (s : State) (i : Instr) (k : Nat) : Prop :=
  ∃ d l, d ≠ .off ∧ d ≠ .initializing ∧ (d ≠ .unpowered → l = .high) ∧
    s.dstate = dstateAfter ((operationEvents s.cfg i).take k) d ∧
    s.rst = lineAfter ((operationEvents s.cfg i).take k) l

/-- The registers along HARD_RESET and INIT: HARD_RESET's events are INIT's first six (R120 to
R123). -/
theorem pulse_registers {c : Config} {i : Instr} {k : Nat} (hi : i = .hardReset ∨ i = .init)
    (hk : k ≤ (operationEvents c i).length) (d : DriverState) (l : ResetLine) :
    (dstateAfter ((operationEvents c i).take k) d =
      if k ≤ 5 then d else if k = 6 then .reset
      else if k < (initEvents c).length then .initializing else .displaying) ∧
    (lineAfter ((operationEvents c i).take k) l =
      if k = 0 then l else if k ≤ 2 then .high else if k ≤ 4 then .low else .high) := by
  have htake : (operationEvents c i).take k = (initEvents c).take k := by
    obtain rfl | rfl := hi
    · have hk : k ≤ 6 := hk
      rw [show operationEvents c .hardReset = (initEvents c).take 6 from rfl, List.take_take,
        Nat.min_eq_left hk]
    · rfl
  obtain ⟨hd, hl, -⟩ := initEvents_after c k l d []
  rw [htake]
  exact ⟨hd, hl⟩

/-- The registers along every other operation. -/
theorem plain_registers {c : Config} {i : Instr} (hi : ¬(i = .hardReset ∨ i = .init)) (k : Nat)
    (d : DriverState) (l : ResetLine) :
    dstateAfter ((operationEvents c i).take k) d = d ∧
    lineAfter ((operationEvents c i).take k) l = l := by
  obtain ⟨hreset, hinit⟩ := not_or.mp hi
  obtain ⟨hl, hd, -⟩ := plainBus_after ((operationEvents c i).take k)
    (fun m hm => operationEvents_plainBus c i hreset hinit m (List.mem_of_mem_take hm)) l d []
  exact ⟨hd, hl⟩

theorem seven_lt_initEvents_length (c : Config) : 7 < (initEvents c).length := by
  have hlen : (initEvents c).length = 19 + ((flushEvents c).length + 3) := by
    simp [initEvents, hardResetEvents, initConfigEvents, initShowEvents]
    omega
  omega

theorem phaseReached_of_phaseLaw {s : State} {i : Instr} {k : Nat}
    (hpos : k = 0 ∨ k < (operationEvents s.cfg i).length) (hoff : s.dstate ≠ .off)
    (h : s.phaseLaw i k) :
    s.phaseReached i k := by
  have hk : k ≤ (operationEvents s.cfg i).length := by omega
  unfold State.phaseLaw at h
  split at h
  case isTrue hi =>
    obtain ⟨hzero, hhigh, hlow, hrelease, hinit, hreset, hconfig⟩ := h
    obtain hfirst | hpulse | hlater : k = 0 ∨ (1 ≤ k ∧ k ≤ 5) ∨ 6 ≤ k := by omega
    · obtain ⟨hd, hl⟩ := hzero hfirst
      refine ⟨s.dstate, s.rst, hoff, hd, hl, ?_, ?_⟩
      · rw [(pulse_registers hi hk _ s.rst).1, if_pos (by omega)]
      · rw [(pulse_registers hi hk s.dstate _).2, if_pos hfirst]
    · refine ⟨s.dstate, .high, hoff, hinit hpulse.2, fun _ => rfl, ?_, ?_⟩
      · rw [(pulse_registers hi hk _ s.rst).1, if_pos hpulse.2]
      · rw [(pulse_registers hi hk s.dstate _).2, if_neg (by omega)]
        split_ifs with h2 h4
        · exact hhigh hpulse.1 h2
        · exact hlow (by omega) h4
        · exact hrelease (by omega)
    · have hlen : k < (initEvents s.cfg).length := by
        obtain rfl | rfl := hi
        · have := seven_lt_initEvents_length s.cfg
          have : k ≤ 6 := hk
          omega
        · exact hpos.resolve_left (by omega)
      refine ⟨.unpowered, .high, by decide, by decide, fun _ => rfl, ?_, ?_⟩
      · rw [(pulse_registers hi hk _ s.rst).1, if_neg (by omega), if_pos hlen]
        split_ifs with h6
        · exact hreset h6
        · exact hconfig (by omega)
      · rw [(pulse_registers hi hk s.dstate _).2, if_neg (by omega), if_neg (by omega),
          if_neg (by omega)]
        exact hrelease (by omega)
  case isFalse hi =>
    obtain ⟨hd, hl⟩ := plain_registers (c := s.cfg) hi k s.dstate s.rst
    exact ⟨s.dstate, s.rst, hoff, h.1, h.2, hd.symm, hl.symm⟩

theorem phaseLaw_of_phaseReached {s : State} {i : Instr} {k : Nat}
    (hk : k < (operationEvents s.cfg i).length) (h : s.phaseReached i k) :
    s.phaseLaw i k ∧ s.dstate ≠ .off := by
  obtain ⟨d, l, hoff, hinit, hline, hd, hl⟩ := h
  unfold State.phaseLaw
  split
  case isTrue hi =>
    have hlen : 7 ≤ k → k < (initEvents s.cfg).length := fun h7 => by
      obtain rfl | rfl := hi
      · have : k < 6 := hk
        omega
      · exact hk
    rw [(pulse_registers hi hk.le d l).1] at hd
    rw [(pulse_registers hi hk.le d l).2] at hl
    refine ⟨⟨fun h0 => ?_, fun h1 h2 => ?_, fun h3 h4 => ?_, fun h5 => ?_, fun h5 => ?_,
      fun h6 => ?_, fun h7 => ?_⟩, ?_⟩
    · subst h0
      exact ⟨hd ▸ hinit, hd ▸ hl ▸ hline⟩
    · rw [hl, if_neg (by omega), if_pos h2]
    · rw [hl, if_neg (by omega), if_neg (by omega), if_pos h4]
    · rw [hl, if_neg (by omega), if_neg (by omega), if_neg (by omega)]
    · rwa [hd, if_pos h5]
    · rw [hd, if_neg (by omega), if_pos h6]
    · rw [hd, if_neg (by omega), if_neg (by omega), if_pos (hlen h7)]
    · rw [hd]
      split_ifs
      exacts [hoff, by decide, by decide, by decide]
  case isFalse hi =>
    rw [(plain_registers hi k d l).1] at hd
    rw [(plain_registers hi k d l).2] at hl
    exact ⟨⟨hd ▸ hinit, hd ▸ hl ▸ hline⟩, hd ▸ hoff⟩

/-- Where an operation's events end the block may stand idle: HARD_RESET ends at `Reset`, INIT at
`Displaying`, both with the line high. -/
theorem lineLaw_of_phaseReached_end {s : State} {i : Instr} {k : Nat}
    (hk : k = (operationEvents s.cfg i).length) (h : s.phaseReached i k) :
    s.lineLaw ∧ s.dstate ≠ .off := by
  subst hk
  obtain ⟨d, l, hoff, hinit, hline, hd, hl⟩ := h
  by_cases hi : i = .hardReset ∨ i = .init
  · rw [(pulse_registers hi le_rfl d l).1] at hd
    rw [(pulse_registers hi le_rfl d l).2] at hl
    have hlen := seven_lt_initEvents_length s.cfg
    obtain rfl | rfl := hi
    · have hd : s.dstate = .reset := hd
      have hl : s.rst = .high := hl
      simp [State.lineLaw, hd, hl]
    · rw [show operationEvents s.cfg .init = initEvents s.cfg from rfl, if_neg (by omega),
        if_neg (by omega), if_neg (by omega)] at hd hl
      simp [State.lineLaw, hd, hl]
  · rw [(plain_registers hi _ d l).1] at hd
    rw [(plain_registers hi _ d l).2] at hl
    exact ⟨⟨hd ▸ hinit, hd ▸ hl ▸ hline⟩, hd ▸ hoff⟩

/-- Events answered `ok` move the phase on by their number. -/
theorem phaseReached_foldl {u t : State} {i : Instr} {k j : Nat} (h : u.phaseReached i k)
    (hc : t.cfg = u.cfg)
    (hd : t.dstate = dstateAfter (((operationEvents u.cfg i).drop k).take j) u.dstate)
    (hl : t.rst = lineAfter (((operationEvents u.cfg i).drop k).take j) u.rst) :
    t.phaseReached i (k + j) := by
  obtain ⟨d, l, hoff, hinit, hline, hd₀, hl₀⟩ := h
  refine ⟨d, l, hoff, hinit, hline, ?_, ?_⟩
  · rw [hd, hd₀, ← dstateAfter_append, ← List.take_add, hc]
  · rw [hl, hl₀, ← lineAfter_append, ← List.take_add, hc]

theorem driverInv_of_idle {s : State} (hs : s.seq = .idle) (hl : s.lineLaw)
    (hoff : s.dstate ≠ .off) :
    s.DriverInv :=
  ⟨hoff, fun _ => hl, fun k i hk => by simp [hs] at hk⟩

/-- A run keeps the driver-state invariant: it ends, fails or waits at a later phase. -/
theorem run_driverInv {u : State} {i : Instr} {k : Nat} (hs : u.seq = .busy k)
    (hi : u.latched = some i) (hk : k ≤ (operationEvents u.cfg i).length)
    (h : u.phaseReached i k) : (run u.pendingEvents u).DriverInv := by
  rw [pendingEvents_eq hs hi]
  have hcfg := run_cfg ((operationEvents u.cfg i).drop k) u
  obtain ⟨j, r, d, ⟨hj, hrun⟩ | ⟨m, x, ans, err, -, -, -, hrun⟩ | ⟨hj, hrun⟩⟩ :=
    run_cases ((operationEvents u.cfg i).drop k) u
  · obtain ⟨hd, hl, -⟩ := foldl_okStep_registers ((operationEvents u.cfg i).drop k) u
    have hall := List.take_of_length_le hj.ge
    have hend : (run ((operationEvents u.cfg i).drop k) u).phaseReached i (k + j) :=
      phaseReached_foldl h hcfg (by rw [hall, hrun]; exact hd) (by rw [hall, hrun]; exact hl)
    have hlen : k + j = (operationEvents u.cfg i).length := by
      rw [hj, List.length_drop]
      omega
    obtain ⟨hline, hoff⟩ := lineLaw_of_phaseReached_end (hlen.trans (by rw [hcfg])) hend
    exact driverInv_of_idle (by rw [hrun]; rfl) hline hoff
  · rw [hrun]
    exact driverInv_of_idle rfl ⟨by simp, by simp⟩ (by simp)
  · obtain ⟨hd, hl, hseq⟩ := foldl_okStep_registers (((operationEvents u.cfg i).drop k).take j) u
    have hwait : (run ((operationEvents u.cfg i).drop k) u).phaseReached i (k + j) :=
      phaseReached_foldl h hcfg (by rw [hrun]; exact hd) (by rw [hrun]; exact hl)
    have hlt : k + j < (operationEvents u.cfg i).length := by
      rw [List.length_drop] at hj
      omega
    rw [← hcfg] at hlt
    obtain ⟨hlaw, hoff⟩ := phaseLaw_of_phaseReached hlt hwait
    have hpos : (run ((operationEvents u.cfg i).drop k) u).seq = .busy (k + j) := by
      rw [hrun]
      refine hseq.trans ?_
      rw [hs, List.length_take, Nat.min_eq_left hj.le]
      rfl
    have hlatched : (run ((operationEvents u.cfg i).drop k) u).latched = some i :=
      (latched_congr _ _ (run_opc _ u) (run_A _ u) (run_B _ u)).trans hi
    refine ⟨hoff, fun hidle => by simp [hpos] at hidle, fun k' i' hk' hi' => ?_⟩
    obtain rfl : k + j = k' := SeqPos.busy.inj (hpos.symm.trans hk')
    obtain rfl : i = i' := Option.some.inj (hlatched.symm.trans hi')
    exact hlaw

/-- Lawful registers of an idle block are the phase before an operation's first event. -/
theorem phaseLaw_zero {s : State} (h : s.lineLaw) (i : Instr) : s.phaseLaw i 0 := by
  unfold State.phaseLaw
  split
  · exact ⟨fun _ => h, by omega, by omega, by omega, fun _ => h.1, by omega, by omega⟩
  · exact h

theorem phaseLaw_congr {s u : State} (hd : u.dstate = s.dstate) (hl : u.rst = s.rst) (i : Instr)
    (k : Nat) : u.phaseLaw i k ↔ s.phaseLaw i k := by
  simp [State.phaseLaw, State.lineLaw, hd, hl]

/-- Settles O4: `dstate` and `rst` at a position are what the events up to there made of the
registers at acceptance, and INIT's closed forms say what that is. -/
theorem stepKeepsDriverStateInvariant : Obligations.StepKeepsDriverStateInvariant := by
  intro s t hinv hdrv h
  obtain ⟨i, rest, -, rfl⟩ | rfl | ⟨u, i, k, hu, rfl⟩ | ⟨i, ws, op, a, b, fb, pl, hs, -, rfl⟩ :=
    step_next_cases h
  · exact ⟨hdrv.notOff, hdrv.idle, hdrv.busy⟩
  · exact hdrv
  · obtain ⟨-, -, -, -, -, hd, hl⟩ := hu.data
    have hstart : u.phaseLaw i k ∧ (k = 0 ∨ k < (operationEvents u.cfg i).length) := by
      obtain ⟨hseq, hi, rfl | ⟨rfl, hs, -⟩⟩ := hu
      · have hpend := hinv.inProgress k hseq
        rw [pendingEvents_eq hseq hi, ne_eq, List.drop_eq_nil_iff, not_le] at hpend
        exact ⟨hdrv.busy k i hseq hi, .inr hpend⟩
      · rw [phaseLaw_congr hd hl]
        exact ⟨phaseLaw_zero (hdrv.idle hs) i, .inl rfl⟩
    exact run_driverInv hu.1 hu.2.1 (by omega)
      (phaseReached_of_phaseLaw hstart.2 (hd ▸ hdrv.notOff) hstart.1)
  · exact driverInv_of_idle hs (hdrv.idle hs) hdrv.notOff

/-! ## Construction -/

theorem construct_inv {c : Config} (hw : c.wf = true) : (State.construct c).Inv :=
  inv_of_idle ⟨hw, wf_nil, by simp [State.construct], ramWf_nil _ rfl, .inl rfl⟩ rfl

theorem construct_driverInv (c : Config) : (State.construct c).DriverInv :=
  driverInv_of_idle rfl ⟨by simp [State.construct], by simp [State.construct]⟩
    (by simp [State.construct])

theorem construct_traceLaw (c : Config) : (State.construct c).TraceLaw := by
  simp [State.TraceLaw, State.construct]

/-- Settles O1: the fields of a constructed state, whose two memories list nothing. -/
theorem constructionLeavesResetValues : Obligations.ConstructionLeavesResetValues :=
  fun _ => ⟨rfl, rfl, rfl, rfl, rfl, fun _ => rfl, fun _ _ => rfl⟩

/-- Settles O2: both memories and the trace of a constructed state are empty and its sequencer is
idle; `State.reset` is one. -/
theorem constructionMeetsInvariants : Obligations.ConstructionMeetsInvariants := by
  have hdefault : Config.default.wf = true := by decide
  exact ⟨fun c hw => ⟨construct_inv hw, construct_driverInv c, construct_traceLaw c⟩,
    construct_inv hdefault, construct_driverInv _, construct_traceLaw _⟩

end Sys2Proof.Machine
end

section
/-! PROOFS. Noninterference (10_state.md R22, R23, R30; 00_scope.md R14): a relation between states
that agree on everything a step reads, and that every shared operation keeps, is kept by the step.
-/

namespace Sys2Proof.Machine

/-- `t` is `s` but for the panel. -/
def State.sameButPanel (s t : State) : Prop := ∃ p, t = { s with panel := p }

/-- `t` is `s` but for `dstate` and `rst`. -/
def State.sameButDriver (s t : State) : Prop := ∃ d l, t = { s with dstate := d, rst := l }

/-- A relation between states that agree on all that a step reads, kept by each shared operation of
the block and the panel (Machine/Ops.lean). -/
structure Unread (R : State → State → Prop) : Prop where
  reads : ∀ {s t}, R s t → t.cfg = s.cfg ∧ t.fb = s.fb ∧ t.seq = s.seq ∧ t.opc = s.opc ∧ t.A = s.A ∧
    t.B = s.B ∧ t.requests = s.requests ∧ t.env = s.env ∧ t.draws = s.draws ∧ t.panelIn = s.panelIn
  accept : ∀ {s t} op a b, R s t → R (s.accept op a b) (t.accept op a b)
  respond : ∀ {s t} pl, R s t → R (s.respond pl) (t.respond pl)
  raise : ∀ {s t} e, R s t → R (s.raise e) (t.raise e)
  setFb : ∀ {s t} fb, R s t → R { s with fb := fb } { t with fb := fb }
  useAnswer : ∀ {s t}, R s t → R s.useAnswer t.useAnswer
  answered : ∀ {s t} act ans, R s t → R (s.answered act ans) (t.answered act ans)
  advance : ∀ {s t}, R s t → R s.advance t.advance
  after : ∀ {s t} p, R s t → R (s.after p) (t.after p)
  takeRequest : ∀ {s t} ws, R s t → R { s with requests := ws } { t with requests := ws }
  takeBytes : ∀ {s t} bs, R s t → R { s with panelIn := bs } { t with panelIn := bs }
  panelCommand : ∀ {s t} i, R s t →
    R { s with panel := s.panel.command i } { t with panel := t.panel.command i }

theorem unread_sameButPanel : Unread State.sameButPanel where
  reads := by rintro s t ⟨p, rfl⟩; simp
  accept := by rintro s t op a b ⟨p, rfl⟩; exact ⟨_, rfl⟩
  respond := by rintro s t pl ⟨p, rfl⟩; exact ⟨_, rfl⟩
  raise := by rintro s t e ⟨p, rfl⟩; exact ⟨_, rfl⟩
  setFb := by rintro s t fb ⟨p, rfl⟩; exact ⟨_, rfl⟩
  useAnswer := by
    rintro s t ⟨p, rfl⟩
    cases henv : s.env <;> exact ⟨p, by simp [State.useAnswer, henv]⟩
  answered := by
    rintro s t act ans ⟨p, rfl⟩
    refine ⟨act.onPanel (act.event s) ans s.cfg.pinPresent p, ?_⟩
    rw [State.answered, event_congr act _ s rfl rfl]
    rfl
  advance := by
    rintro s t ⟨p, rfl⟩
    cases hseq : s.seq <;> exact ⟨p, by simp [State.advance, hseq]⟩
  after := by rintro s t p ⟨q, rfl⟩; cases p <;> exact ⟨q, rfl⟩
  takeRequest := by rintro s t ws ⟨p, rfl⟩; exact ⟨_, rfl⟩
  takeBytes := by rintro s t bs ⟨p, rfl⟩; exact ⟨_, rfl⟩
  panelCommand := by rintro s t i ⟨p, rfl⟩; exact ⟨_, rfl⟩

theorem unread_sameButDriver : Unread State.sameButDriver where
  reads := by rintro s t ⟨d, l, rfl⟩; simp
  accept := by rintro s t op a b ⟨d, l, rfl⟩; exact ⟨_, _, rfl⟩
  respond := by rintro s t pl ⟨d, l, rfl⟩; exact ⟨_, _, rfl⟩
  raise := by rintro s t e ⟨d, l, rfl⟩; exact ⟨_, _, rfl⟩
  setFb := by rintro s t fb ⟨d, l, rfl⟩; exact ⟨_, _, rfl⟩
  useAnswer := by
    rintro s t ⟨d, l, rfl⟩
    cases henv : s.env <;> exact ⟨d, l, by simp [State.useAnswer, henv]⟩
  answered := by
    rintro s t act ans ⟨d, l, rfl⟩
    refine ⟨d, (act.event s).drivenLine ans l, ?_⟩
    rw [State.answered, event_congr act _ s rfl rfl]
    rfl
  advance := by
    rintro s t ⟨d, l, rfl⟩
    cases hseq : s.seq <;> exact ⟨d, l, by simp [State.advance, hseq]⟩
  after := by rintro s t p ⟨d, l, rfl⟩; cases p <;> exact ⟨_, _, rfl⟩
  takeRequest := by rintro s t ws ⟨d, l, rfl⟩; exact ⟨_, _, rfl⟩
  takeBytes := by rintro s t bs ⟨d, l, rfl⟩; exact ⟨_, _, rfl⟩
  panelCommand := by rintro s t i ⟨d, l, rfl⟩; exact ⟨_, _, rfl⟩

/-- Two outcomes of one kind: the same stop, or next states in the relation. -/
inductive SameOutcome (R : State → State → Prop) :
    Host.Outcome State Fault Refusal → Host.Outcome State Fault Refusal → Prop where
  | next {s t : State} (h : R s t) : SameOutcome R (.next s) (.next t)
  | fault (f : Fault) : SameOutcome R (.fault f) (.fault f)
  | refused (r : Refusal) : SameOutcome R (.refused r) (.refused r)

theorem SameOutcome.of_next {R : State → State → Prop} {o o' : Host.Outcome State Fault Refusal}
    {s : State} (h : SameOutcome R o o') (ho : o = .next s) : ∃ t, R s t ∧ o' = .next t := by
  cases h with
  | next h => cases ho; exact ⟨_, h, rfl⟩
  | fault f => cases ho
  | refused r => cases ho

theorem SameOutcome.of_refused {R : State → State → Prop} {o o' : Host.Outcome State Fault Refusal}
    {r : Refusal} (h : SameOutcome R o o') (ho : o = .refused r) : o' = .refused r := by
  cases h with
  | next h => cases ho
  | fault f => cases ho
  | refused r' => exact ho

theorem SameOutcome.of_fault {R : State → State → Prop} {o o' : Host.Outcome State Fault Refusal}
    {f : Fault} (h : SameOutcome R o o') (ho : o = .fault f) : o' = .fault f := by
  cases h with
  | next h => cases ho
  | fault f' => exact ho
  | refused r => cases ho

namespace Unread

variable {R : State → State → Prop} (hR : Unread R) {s t : State}
include hR

/-- Related states get one answer to one event. -/
theorem answer_eq (h : R s t) (act : Action) :
    (act.event t).answer t.cfg t.nextAnswer = (act.event s).answer s.cfg s.nextAnswer := by
  obtain ⟨hcfg, hfb, -, -, -, -, -, henv, hdraws, -⟩ := hR.reads h
  rw [event_congr act t s hcfg hfb, hcfg, State.nextAnswer, State.nextAnswer, henv, hdraws]

theorem rel_run (ms : List Micro) (h : R s t) : R (run ms s) (run ms t) := by
  induction ms generalizing s t with
  | nil => exact hR.respond 0 h
  | cons m ms ih =>
    have hanswer := hR.answer_eq h m.act
    rcases emit_cases m.act s with ⟨hpend, hs⟩ | ⟨hok, hs⟩ | ⟨ans, e, hfail, he, hs⟩
    · rw [(answer_eq_none_iff ..).mpr hpend, answer_eq_none_iff] at hanswer
      rw [run_cons_waiting _ _ _ _ hs, run_cons_waiting _ _ _ _ (emit_waiting _ _ hanswer)]
      exact hR.useAnswer h
    · rw [run_cons_done _ _ _ _ hs, run_cons_done _ _ _ _ (emit_done _ _ (hanswer.trans hok))]
      exact ih (hR.after _ (hR.advance (hR.answered _ _ (hR.useAnswer h))))
    · rw [run_cons_raised _ _ _ _ e hs,
        run_cons_raised _ _ _ _ e (emit_raised _ _ ans e (hanswer.trans hfail) he)]
      exact hR.raise e (hR.answered _ _ (hR.useAnswer h))

theorem rel_paint (p : DrawPoint) (h : R s t) :
    R (s.paint p.on p.x p.y) (t.paint p.on p.x p.y) := by
  obtain ⟨hcfg, hfb, -⟩ := hR.reads h
  have hpaint : (t.paint p.on p.x p.y).fb = (s.paint p.on p.x p.y).fb := by
    rw [State.paint_fb_eq, State.paint_fb_eq, hcfg, hfb]
  rw [paint_eq p.on p.x p.y s, paint_eq p.on p.x p.y t, hpaint]
  exact hR.setFb _ h

theorem rel_hostBody (c : Config) (i : Instr) (h : R s t) :
    R (hostBody c i s) (hostBody c i t) := by
  have hcfg := (hR.reads h).1
  cases i
  case clear => exact hR.respond 0 (hR.setFb [] h)
  case getDimensions =>
    simp only [hostBody, hcfg]
    exact hR.respond _ h
  case setPixelOff x y => exact hR.respond 0 (hR.rel_paint ⟨x, y, false⟩ h)
  case setPixelOn x y => exact hR.respond 0 (hR.rel_paint ⟨x, y, true⟩ h)
  all_goals exact hR.rel_run _ h

theorem rel_exec (i : Instr) (h : R s t) : SameOutcome R (exec i s) (exec i t) := by
  cases hi : encodeRequest i with
  | none =>
    rw [exec_command i s hi, exec_command i t hi]
    exact .next (hR.panelCommand i h)
  | some w =>
    obtain ⟨op, a, b, -, hexec⟩ := exec_eq_hostOp (i := i) (by rw [hi]; rfl)
    obtain ⟨hcfg, -, hseq, -⟩ := hR.reads h
    rw [hexec s, hexec t, hostOp, hostOp, hcfg, hseq]
    split
    · split
      · exact .next (hR.rel_hostBody _ _ (hR.accept op a b h))
      · exact .refused _
    · exact .refused _

/-- A step of related states ends the same way, in related states. -/
theorem rel_step (h : R s t) : SameOutcome R (step s) (step t) := by
  obtain ⟨hcfg, -, hseq, hopc, hA, hB, hreq, -, -, hin⟩ := hR.reads h
  by_cases hw : s.cfg.wf = true
  swap
  · have hw : s.cfg.wf = false := by simpa using hw
    rw [step_illFormed hw, step_illFormed (hcfg ▸ hw)]
    exact .refused _
  by_cases hp : s.panelIn = []
  swap
  · cases hd : decodeCommand s.cfg.ops s.panelIn with
    | none =>
      rw [step_unknownCommand hw hp hd,
        step_unknownCommand (hcfg ▸ hw) (hin ▸ hp) (by rw [hcfg, hin, hd]), hin]
      exact .refused _
    | some q =>
      rw [step_panelCommand hw hp hd,
        step_panelCommand (hcfg ▸ hw) (hin ▸ hp) (by rw [hcfg, hin, hd])]
      exact hR.rel_exec _ (hR.takeBytes _ h)
  cases hs : s.seq with
  | busy k =>
    rw [step_busy hw hp hs, step_busy (hcfg ▸ hw) (hin ▸ hp) (hseq ▸ hs)]
    have hpend : t.pendingEvents = s.pendingEvents := by
      rw [State.pendingEvents, State.pendingEvents, latched_congr t s hopc hA hB, hseq, hcfg]
    by_cases hnil : s.pendingEvents = []
    · rw [resume_nil hw hnil, resume_nil (hcfg ▸ hw) (hpend.trans hnil)]
      exact .fault _
    · rw [resume_eq_run hw hnil, resume_eq_run (hcfg ▸ hw) (hpend ▸ hnil), hpend]
      exact .next (hR.rel_run _ h)
  | idle =>
    cases hr : s.requests with
    | nil =>
      rw [step_idle_nil hw hp hs hr, step_idle_nil (hcfg ▸ hw) (hin ▸ hp) (hseq ▸ hs) (hreq ▸ hr)]
      exact .next h
    | cons w ws =>
      cases hd : decodeRequest w with
      | none =>
        rw [step_reservedRequest hw hp hs hr hd,
          step_reservedRequest (hcfg ▸ hw) (hin ▸ hp) (hseq ▸ hs) (hreq ▸ hr) hd]
        exact .refused _
      | some i =>
        rw [step_request hw hp hs hr hd,
          step_request (hcfg ▸ hw) (hin ▸ hp) (hseq ▸ hs) (hreq ▸ hr) hd]
        exact hR.rel_exec i (hR.takeRequest ws h)

end Unread

/-- Settles O46: states that differ in the panel alone agree on all that a step reads. -/
theorem panelNeverReachesBlock : Obligations.PanelNeverReachesBlock := by
  intro s p
  have hstep := unread_sameButPanel.rel_step (s := s) ⟨p, rfl⟩
  refine ⟨fun t ht => ?_, fun r => hstep.of_refused, fun f => hstep.of_fault⟩
  obtain ⟨_, ⟨p', rfl⟩, ht'⟩ := hstep.of_next ht
  exact ⟨p', ht'⟩

/-- Settles O45: states that differ in `dstate` and `rst` alone agree on all that a step reads. -/
theorem driverStateGatesNothing : Obligations.DriverStateGatesNothing := by
  intro s d l
  have hstep := unread_sameButDriver.rel_step (s := s) ⟨d, l, rfl⟩
  refine ⟨fun t ht => ?_, fun r => hstep.of_refused, fun f => hstep.of_fault⟩
  obtain ⟨_, ⟨d', l', rfl⟩, ht'⟩ := hstep.of_next ht
  exact ⟨d', l', ht'⟩

end Sys2Proof.Machine
end

section
/-! PROOFS. Host operations as a whole (10_state.md R24, R25; 60_exceptions.md R141 to R147;
40_pixel_ops.md R103, R105): what a run leaves alone, how one that ended came to its end, one that
waited goes on, and a batch of drawn points. -/

namespace Sys2Proof.Machine

/-! ## What a run leaves alone -/

section
variable {ms : List Micro} {u : State}

theorem run_fb_of_no_clear (hms : ∀ m ∈ ms, m.post ≠ .clear) : (run ms u).fb = u.fb := by
  refine run_induction (P := fun ns t => (∀ m ∈ ns, m.post ≠ .clear) ∧ t.fb = u.fb)
    (Q := fun t => t.fb = u.fb) ?finish ?go ?error ?wait ms u ⟨hms, rfl⟩
  case finish => exact fun t ⟨_, ht⟩ => ht
  case go =>
    intro m ns t ⟨hns, ht⟩ _
    obtain ⟨hm, hns⟩ := List.forall_mem_cons.mp hns
    exact ⟨hns, by simp [after_fb, hm, ht]⟩
  case error => exact fun m ns t ans e ⟨_, ht⟩ _ _ => by simpa using ht
  case wait => exact fun m ns t ⟨_, ht⟩ _ => by simpa using ht

theorem Micro.plainBus.event_bus {m : Micro} (h : m.plainBus) (s : State) :
    (∃ bs, m.act.event s = .busCmd bs) ∨ ∃ bs, m.act.event s = .busData bs := by
  obtain ⟨-, ⟨i, ha⟩ | ⟨pg, ha⟩⟩ := h
  · exact .inl ⟨_, by rw [ha]; rfl⟩
  · exact .inr ⟨_, by rw [ha]; rfl⟩

theorem Micro.plainBus.drivenLine {m : Micro} (h : m.plainBus) (s : State) (ans : Answer)
    (l : ResetLine) : (m.act.event s).drivenLine ans l = l := by
  obtain ⟨bs, he⟩ | ⟨bs, he⟩ := h.event_bus s <;> rw [he] <;> rfl

/-- A plain bus event can only fail with `DisplayTransportError` (R15). -/
theorem Micro.plainBus.error_eq {m : Micro} (h : m.plainBus) {s : State} {c : Config}
    {x : EnvAnswer} {ans : Answer} {err : OpError} (ha : (m.act.event s).answer c x = some ans)
    (he : ans.error? = some err) : err = .displayTransport := by
  obtain ⟨-, rfl, -⟩ | ⟨e, -, -, -, hpin⟩ := answer_error _ _ _ _ _ ha he
  · rfl
  · obtain ⟨bs, hev⟩ | ⟨bs, hev⟩ := h.event_bus s <;> simp [hev] at hpin

/-- Plain bus events move neither the line nor, but for a transport error, `dstate`. -/
theorem run_plainBus_registers (hms : ∀ m ∈ ms, m.plainBus) :
    (run ms u).rst = u.rst ∧ ((run ms u).dstate = u.dstate ∨
      (run ms u).dstate = .unpowered ∧ (run ms u).resp.status = 0x01) := by
  refine run_induction
    (P := fun ns t => (∀ m ∈ ns, m.plainBus) ∧ t.rst = u.rst ∧ t.dstate = u.dstate)
    (Q := fun t => t.rst = u.rst ∧
      (t.dstate = u.dstate ∨ t.dstate = .unpowered ∧ t.resp.status = 0x01))
    ?finish ?go ?error ?wait ms u ⟨hms, rfl, rfl⟩
  case finish => exact fun t ⟨_, hl, hd⟩ => ⟨hl, .inl hd⟩
  case go =>
    intro m ns t ⟨hns, hl, hd⟩ _
    obtain ⟨hm, hns⟩ := List.forall_mem_cons.mp hns
    exact ⟨hns, by simp [hm.drivenLine t, hl], by simp [after_dstate, hm.1, Post.dstate, hd]⟩
  case error =>
    intro m ns t ans e ⟨hns, hl, hd⟩ ha he
    obtain ⟨hm, -⟩ := List.forall_mem_cons.mp hns
    obtain rfl := hm.error_eq ha he
    exact ⟨by simp [hm.drivenLine t, hl], .inr ⟨rfl, rfl⟩⟩
  case wait => exact fun m ns t ⟨_, hl, hd⟩ _ => ⟨by simpa using hl, .inl (by simpa using hd)⟩

/-- A run ends, or waits at one of its events with the response register as it was. -/
theorem run_ends_or_waits (hu : u.seq = .busy 0) : (run ms u).seq = .idle ∨
    ∃ k, (run ms u).seq = .busy k ∧ k < ms.length ∧ (run ms u).resp = u.resp := by
  obtain ⟨k, r, d, ⟨-, hrun⟩ | ⟨m, x, ans, err, -, -, -, hrun⟩ | ⟨hk, hrun⟩⟩ := run_cases ms u
  · exact .inl (by rw [hrun]; rfl)
  · exact .inl (by rw [hrun]; rfl)
  · obtain ⟨-, -, hseq⟩ := foldl_okStep_registers (ms.take k) u
    obtain ⟨-, -, -, hresp, -⟩ := foldl_okStep_frame (ms.take k) u
    refine .inr ⟨k, ?_, hk, by rw [hrun]; exact hresp⟩
    rw [hrun]
    refine hseq.trans ?_
    rw [hu, List.length_take, Nat.min_eq_left hk.le, SeqPos.plus, Nat.zero_add]

end

/-- CLEAR stands in INIT's list only (R122). -/
theorem operationEvents_no_clear {c : Config} {i : Instr} (hi : i ≠ .init) :
    ∀ m ∈ operationEvents c i, m.post ≠ .clear := by
  intro m hm
  by_cases hreset : i = .hardReset
  · subst hreset
    simp only [operationEvents, hardResetEvents, List.mem_cons, List.not_mem_nil, or_false] at hm
    obtain rfl | rfl | rfl | rfl | rfl | rfl := hm <;> simp [Action.only]
  · rw [(operationEvents_plainBus c i hreset hi m hm).1]
    simp

/-- Settles O38: a host operation's body is a run of its events, whose frame is the events' own, or
writes the framebuffer and the response alone. -/
theorem hostOperationFrame : Obligations.HostOperationFrame := by
  intro i s hi hw hs
  obtain ⟨op, a, b, hdecode, hexec⟩ := exec_eq_hostOp hi
  refine ⟨hostBody s.cfg i (s.accept op a b),
    (hexec s).trans (hostOp_next op a b (hostBody s.cfg i) s hw hs), ?_⟩
  obtain hrun | ⟨hnil, hwrite⟩ := hostBody_cases s.cfg i
  · rw [hrun]
    refine ⟨(latched_congr _ _ (run_opc ..) (run_A ..) (run_B ..)).trans hdecode, run_cfg _ _,
      run_requests _ _, run_panelIn _ _, run_trace_prefix _ (s.accept op a b),
      run_ends_or_waits rfl, fun hinit _ _ _ => run_fb_of_no_clear (operationEvents_no_clear hinit),
      fun hreset hinit => run_plainBus_registers (operationEvents_plainBus s.cfg i hreset hinit),
      fun hnil => ?_⟩
    rw [hnil]
    exact ⟨rfl, rfl, rfl, rfl, rfl, rfl⟩
  · obtain ⟨fb, pl, hfb, hbody⟩ := hwrite (s.accept op a b)
    rw [hbody]
    refine ⟨hdecode, rfl, rfl, rfl, List.prefix_rfl, .inl rfl, fun _ hclear hon hoff => ?_,
      fun _ _ => ⟨rfl, .inl rfl⟩, fun _ => ⟨rfl, rfl, rfl, rfl, rfl, rfl⟩⟩
    obtain rfl | ⟨rfl, -⟩ | ⟨⟨x, y, on⟩, rfl, -⟩ := hfb
    · rfl
    · exact absurd rfl hclear
    · cases on with
      | true => exact absurd rfl (hon x y)
      | false => exact absurd rfl (hoff x y)

/-! ## How an operation that ended came to its end -/

/-- A host operation that ended responded `OK` after events all answered `ok`, or one of its events
failed, in a state `u` that the events before it, all answered `ok`, have led to. -/
theorem exec_ended {i : Instr} {s t : State} (hi : (encodeRequest i).isSome = true)
    (h : exec i s = .next t) (hidle : t.seq = .idle) :
    (t.resp.status = 0x00 ∧ ∃ es, t.trace = s.trace ++ allOk es) ∨
    ∃ (k : Nat) (m : Micro) (u : State) (x : EnvAnswer) (ans : Answer) (err : OpError),
      (operationEvents s.cfg i)[k]? = some m ∧
      u.cfg = s.cfg ∧ u.requests = s.requests ∧ u.panelIn = s.panelIn ∧
      u.fb = fbAfter ((operationEvents s.cfg i).take k) s.fb ∧
      (∃ es, u.trace = s.trace ++ allOk es) ∧
      (m.act.event u).answer s.cfg x = some ans ∧ ans.error? = some err ∧
      t = (u.answered m.act ans).raise err := by
  obtain ⟨hw, hs, op, a, b, -, rfl⟩ := exec_host_next hi h
  obtain hbody | ⟨-, hwrite⟩ := hostBody_cases s.cfg i
  swap
  · obtain ⟨fb, pl, -, hbody⟩ := hwrite (s.accept op a b)
    rw [hbody]
    exact .inl ⟨rfl, [], by simp [allOk]⟩
  rw [hbody] at hidle ⊢
  obtain ⟨k, r, d, ⟨-, hrun⟩ | ⟨m, x, ans, err, hm, ha, he, hrun⟩ | ⟨hk, hrun⟩⟩ :=
    run_cases (operationEvents s.cfg i) (s.accept op a b)
  · refine .inl ⟨by rw [hrun]; rfl, okEvents (operationEvents s.cfg i) (s.accept op a b), ?_⟩
    rw [hrun]
    exact foldl_okStep_trace _ _
  · obtain ⟨p, hp⟩ := foldl_okStep_eq ((operationEvents s.cfg i).take k) (s.accept op a b)
    refine .inr ⟨k, m, _, x, ans, err, hm, ?_, ?_, ?_, ?_,
      ⟨okEvents ((operationEvents s.cfg i).take k) (s.accept op a b), ?_⟩, ?_, he, hrun⟩
    case refine_6 =>
      rw [event_congr m.act _ _ rfl rfl]
      exact ha
    all_goals rw [hp]; rfl
  · obtain ⟨-, -, hseq⟩ :=
      foldl_okStep_registers ((operationEvents s.cfg i).take k) (s.accept op a b)
    rw [hrun] at hidle
    cases hseq.symm.trans hidle

theorem hardResetEvents_not_bus {c : Config} {m : Micro} (hm : m ∈ hardResetEvents c) (s : State) :
    ¬((∃ bs, m.act.event s = .busCmd bs) ∨ ∃ bs, m.act.event s = .busData bs) := by
  simp only [hardResetEvents, List.mem_cons, List.not_mem_nil, or_false] at hm
  obtain rfl | rfl | rfl | rfl | rfl | rfl := hm <;> simp [Action.only, Action.event]

/-- The operations that emit events (R71). -/
theorem operation_of_event {c : Config} {i : Instr} {m : Micro} (hm : m ∈ operationEvents c i) :
    i = .hardReset ∨ i = .init ∨ i = .flush ∨ (∃ col, i = .setColumnAddress col) ∨
      (∃ p, i = .setPage p) ∨ ∃ on sel frames, i = .setBreathingEffect on sel frames := by
  cases i <;> simp only [operationEvents, List.not_mem_nil] at hm <;> simp

theorem bus_operation {c : Config} {i : Instr} {m : Micro} {s : State}
    (hm : m ∈ operationEvents c i)
    (hbus : (∃ bs, m.act.event s = .busCmd bs) ∨ ∃ bs, m.act.event s = .busData bs) :
    i = .init ∨ i = .flush ∨ (∃ col, i = .setColumnAddress col) ∨
      (∃ p, i = .setPage p) ∨ ∃ on sel frames, i = .setBreathingEffect on sel frames := by
  obtain rfl | hi := operation_of_event hm
  · exact absurd hbus (hardResetEvents_not_bus hm s)
  · exact hi

theorem pin_operation {c : Config} {i : Instr} {m : Micro} {s : State}
    (hm : m ∈ operationEvents c i)
    (hpin : m.act.event s = .pinHigh ∨ m.act.event s = .pinLow) : i = .hardReset ∨ i = .init := by
  by_contra hi
  obtain ⟨hreset, hinit⟩ := not_or.mp hi
  obtain ⟨bs, hev⟩ | ⟨bs, hev⟩ := (operationEvents_plainBus c i hreset hinit m hm).event_bus s <;>
    simp [hev] at hpin

/-- Settles O26: the error is the failed event's, a bus event of an operation other than HARD_RESET
or a wired pin event of HARD_RESET or INIT. -/
theorem errorsByOperation : Obligations.ErrorsByOperation := by
  intro i s t hi h hidle
  obtain ⟨hok, -⟩ | ⟨k, m, u, x, ans, err, hm, -, -, -, -, -, ha, he, rfl⟩ := exec_ended hi h hidle
  · simp [hok]
  · have hm := List.mem_of_getElem? hm
    obtain ⟨-, rfl, hbus⟩ | ⟨e, -, rfl, hwired, hpin⟩ := answer_error _ _ _ _ _ ha he
    · exact ⟨.inr (.inl rfl), fun _ => bus_operation hm hbus, fun h => by
        simp [OpError.response, OpError.status] at h⟩
    · exact ⟨.inr (.inr rfl), fun h => by simp [OpError.response, OpError.status] at h,
        fun _ => ⟨pin_operation hm hpin, hwired⟩⟩

/-- Settles O27: the events before the failed one were answered `ok`, and the response is the failed
one's error. -/
theorem abortIsPrecise : Obligations.AbortIsPrecise := by
  intro i s t hi h hidle
  obtain ⟨hok, htrace⟩ | ⟨k, m, u, x, ans, err, -, -, -, -, -, ⟨es, htrace⟩, ha, he, rfl⟩ :=
    exec_ended hi h hidle
  · exact ⟨fun _ => htrace, fun hne => absurd hok hne⟩
  · refine ⟨fun hok => absurd hok err.response_status_ne_ok, fun _ =>
      ⟨es, m.act.event u, ans, by rw [raise_trace, answered_trace, htrace], ?_⟩⟩
    obtain ⟨rfl, rfl, -⟩ | ⟨e, rfl, rfl, -, -⟩ := answer_error _ _ _ _ _ ha he
    · exact .inl ⟨rfl, rfl⟩
    · exact .inr ⟨e, rfl, rfl⟩

theorem failedData_lost (n : Nat) (p : Panel) : (p.failedData n).lost = true := by
  unfold Panel.failedData
  split <;> rfl

/-- A failed event leaves the panel in an unknown state (R146). -/
theorem onPanel_lost_of_error {act : Action} {s : State} {c : Config} {x : EnvAnswer} {ans : Answer}
    {err : OpError} (ha : (act.event s).answer c x = some ans) (he : ans.error? = some err)
    (p : Panel) : (act.onPanel (act.event s) ans c.pinPresent p).lost = true := by
  obtain ⟨rfl, -, hbus⟩ | ⟨e, rfl, -, hwired, hpin⟩ := answer_error _ _ _ _ _ ha he
  · cases act with
    | command i => rfl
    | pageData pg => exact failedData_lost _ p
    | _ => simp [Action.event] at hbus
  · cases act with
    | pinHigh => simp [Action.onPanel, hwired, Panel.failedPin]
    | pinLow => simp [Action.onPanel, hwired, Panel.failedPin]
    | _ => simp [Action.event] at hpin

theorem fbAfter_of_no_clear {ms : List Micro} (hms : ∀ m ∈ ms, m.post ≠ .clear) (fb : Memory) :
    fbAfter ms fb = fb := by
  induction ms with
  | nil => rfl
  | cons m ms ih =>
    obtain ⟨hm, hms⟩ := List.forall_mem_cons.mp hms
    rw [fbAfter, List.foldl_cons, if_neg hm]
    exact ih hms

/-- The framebuffer at a position of an operation: as it was, or cleared within INIT. -/
theorem fbAfter_operation (c : Config) (i : Instr) (k : Nat) (fb : Memory) :
    fbAfter ((operationEvents c i).take k) fb = fb ∨
      i = .init ∧ fbAfter ((operationEvents c i).take k) fb = [] := by
  by_cases hi : i = .init
  · subst hi
    rw [show operationEvents c .init = initEvents c from rfl,
      (initEvents_after c k .undriven .unpowered fb).2.2]
    split_ifs <;> simp
  · exact .inl (fbAfter_of_no_clear
      (fun m hm => operationEvents_no_clear hi m (List.mem_of_mem_take hm)) fb)

/-- Settles O28: raising the failed event's error writes `dstate`, and the panel has taken the
failed event. -/
theorem errorLeavesUnpowered : Obligations.ErrorLeavesUnpowered := by
  intro i s t hi h hidle hne
  obtain ⟨hok, -⟩ | ⟨k, m, u, x, ans, err, -, hc, hreq, hin, hfb, -, ha, he, rfl⟩ :=
    exec_ended hi h hidle
  · exact absurd hok hne
  · refine ⟨rfl, ?_, ?_, hc, hreq, hin⟩
    · rw [raise_fb, answered_fb, hfb]
      exact (fbAfter_operation s.cfg i k s.fb).imp_right fun ⟨hinit, hnil⟩ =>
        ⟨hinit, fun a => by rw [hnil, read_nil]⟩
    · rw [raise_panel, answered_panel, hc]
      exact onPanel_lost_of_error ha he u.panel

section
variable {ms : List Micro} {u : State} {k : Nat} (hk : k < ms.length)
include hk

/-- A run that waits at event `k` does so in the state that the events before it lead to. -/
theorem run_waits_after (later : List EnvAnswer) :
    run ms { u with env := List.replicate k .ok ++ .pending :: later } =
      { (ms.take k).foldl State.okStep u with env := later } := by
  rw [run_waits_at ms _ k later hk rfl, foldl_okStep_env]

/-- A run over `k` answers `ok` is a run of the remaining events from that state. -/
theorem run_drop_after (answers : List EnvAnswer) :
    run ms { u with env := List.replicate k .ok ++ answers } =
      run (ms.drop k) { (ms.take k).foldl State.okStep u with env := answers } := by
  conv_lhs => rw [← List.take_append_drop k ms]
  rw [run_append_ok _ _ _ answers (by rw [List.length_take, Nat.min_eq_left hk.le]),
    foldl_okStep_env]

end

/-- Settles O42: waiting at event `k` leaves the state that `k` events answered `ok` lead to, and a
resumed operation runs the same remaining events from it. -/
theorem suspendedOperationResumes : Obligations.SuspendedOperationResumes := by
  intro i s k later hw hs hp hk
  obtain ⟨op, a, b, hdecode, hexec⟩ := exec_events i s.cfg (List.ne_nil_of_length_pos (by omega))
  have hstart (env : List EnvAnswer) : exec i { s with env := env } =
      .next (run (operationEvents s.cfg i) { s.accept op a b with env := env }) :=
    (hexec { s with env := env } rfl).trans (hostOp_next op a b _ { s with env := env } hw hs)
  obtain ⟨p, hv⟩ := foldl_okStep_eq ((operationEvents s.cfg i).take k) (s.accept op a b)
  have hlen : ((operationEvents s.cfg i).take k).length = k := by
    rw [List.length_take, Nat.min_eq_left hk.le]
  have hseq : (((operationEvents s.cfg i).take k).foldl State.okStep (s.accept op a b)).seq =
      .busy k := by
    rw [hv, hlen, accept_seq, SeqPos.plus, Nat.zero_add]
  refine ⟨_, (hstart _).trans (congrArg _ (run_waits_after hk later)), hseq, fun answers => ?_⟩
  rw [hstart, run_drop_after hk]
  generalize hu : ((operationEvents s.cfg i).take k).foldl State.okStep (s.accept op a b) = u at *
  have hcfg : u.cfg = s.cfg := by rw [hv]; rfl
  have hlatched : u.latched = some i := by rw [hv]; exact hdecode
  have hpend : ({ u with env := answers } : State).pendingEvents =
      (operationEvents s.cfg i).drop k := by
    rw [← hcfg]
    exact pendingEvents_eq hseq hlatched
  have hne : (operationEvents s.cfg i).drop k ≠ [] := by simpa using hk
  rw [← hpend] at hne ⊢
  exact step_busy_run (hcfg ▸ hw) (by rw [hv]; exact hp) hseq hne

end Sys2Proof.Machine
end

section
/-! PROOFS. GET_DIMENSIONS (40_pixel_ops.md R103) and DRAW (R105): the payload as a number, and a
batch as the fold of its drawn points. -/

namespace Sys2Proof.Machine

theorem dimensionsPayload_eq_ofNat (g : Geometry) :
    dimensionsPayload g = BitVec.ofNat 32 (g.width.toNat * 256 + g.height.toNat) := by
  have hw := g.width.isLt
  have hh := g.height.isLt
  apply BitVec.eq_of_toNat_eq
  rw [dimensionsPayload, BitVec.toNat_append, BitVec.toNat_append, Nat.shiftLeft_eq,
    Nat.shiftLeft_eq, mul_two_pow_or_of_lt hh, mul_two_pow_or_of_lt hw, BitVec.toNat_ofNat,
    BitVec.toNat_ofNat]
  omega

/-- Settles O11: acceptance and the response are all GET_DIMENSIONS does. -/
theorem getDimensionsResult : Obligations.GetDimensionsResult := by
  refine ⟨fun s hw hs => ?_, ?_⟩
  · rw [exec, execGetDimensions, hostOp_next _ _ _ _ _ hw hs, ← dimensionsPayload_eq_ofNat]
    simp [State.respond, State.accept, hs, statusOk, Opcode.getDimensions]
  · rw [decodeRequest_requestOf]
    exact decodeFields_getDimensions

/-! ## A batch -/

/-- The state after a batch of points whose requests were the oldest, `ws` being left. -/
def State.drawnAll (ps : List DrawPoint) (ws : List Request) (s : State) : State :=
  ps.foldl (fun t p => t.drawn p) { s with requests := ws }

/-- A point's request decodes to its operation (R86). -/
theorem decodeRequest_drawPoint (p : DrawPoint) : decodeRequest p.request = some p.instr := by
  obtain ⟨x, y, on⟩ := p
  cases on with
  | false => exact (decodeRequest_requestOf ..).trans (decodeFields_setPixelOff x y)
  | true => exact (decodeRequest_requestOf ..).trans (decodeFields_setPixelOn x y)

/-- As many steps as the batch has points take exactly its requests. -/
theorem core_run_draw (ps : List DrawPoint) (ws : List Request) {s : State} (hw : s.cfg.wf = true)
    (hs : s.seq = .idle) (hp : s.panelIn = []) (hr : s.requests = drawRequests ps ++ ws) :
    Sys2Proof.core.run ps.length s = .next (s.drawnAll ps ws) := by
  induction ps generalizing s with
  | nil =>
    have hr : s.requests = ws := hr
    subst hr
    rfl
  | cons p ps ih =>
    have hstep : step s =
        .next (({ s with requests := drawRequests ps ++ ws } : State).drawn p) := by
      rw [step_request hw hp hs hr (decodeRequest_drawPoint p)]
      exact exec_drawPoint (s := { s with requests := drawRequests ps ++ ws }) hw hs p
    exact (core_run_succ ps.length s _ hstep).trans
      (ih (s := ({ s with requests := drawRequests ps ++ ws } : State).drawn p) hw hs hp rfl)

theorem drawnAll_frame (ps : List DrawPoint) (ws : List Request) (s : State) :
    (s.drawnAll ps ws).requests = ws ∧ (s.drawnAll ps ws).trace = s.trace ∧
    (s.drawnAll ps ws).seq = s.seq ∧ (ps ≠ [] → (s.drawnAll ps ws).resp = ⟨0x00, 0⟩) ∧
    (s.drawnAll ps ws).dstate = s.dstate ∧ (s.drawnAll ps ws).rst = s.rst ∧
    (s.drawnAll ps ws).panel = s.panel ∧ (s.drawnAll ps ws).cfg = s.cfg := by
  induction ps using List.reverseRecOn with
  | nil => simp [State.drawnAll]
  | append_singleton ps p ih =>
    have hlast : s.drawnAll (ps ++ [p]) ws = (s.drawnAll ps ws).drawn p := by
      simp [State.drawnAll]
    obtain ⟨hreq, htrace, hseq, -, hd, hl, hpanel, hcfg⟩ := ih
    rw [hlast]
    exact ⟨hreq, htrace, hseq, fun _ => rfl, hd, hl, hpanel, hcfg⟩

/-- Every pixel of the canvas has the colour of its last point in the batch, or its old one. -/
theorem pixelAt_drawnAll (ps : List DrawPoint) (ws : List Request) (s : State) {u v : Nat}
    (hu : u < s.cfg.geom.width.toNat) (hv : v < s.cfg.geom.height.toNat) :
    pixelAt (s.drawnAll ps ws).fb s.cfg.geom.width.toNat u v =
      ((ps.filter fun p => p.x.toNat == u && p.y.toNat == v).getLast?.map DrawPoint.on).getD
        (pixelAt s.fb s.cfg.geom.width.toNat u v) := by
  induction ps using List.reverseRecOn with
  | nil => simp [State.drawnAll]
  | append_singleton ps p ih =>
    have hlast : (s.drawnAll (ps ++ [p]) ws).fb = p.paint s.cfg.geom (s.drawnAll ps ws).fb := by
      obtain ⟨-, -, -, -, -, -, -, hcfg⟩ := drawnAll_frame ps ws s
      rw [← hcfg, ← drawn_fb]
      simp [State.drawnAll]
    rw [hlast, p.pixelAt_paint hu hv, ih, List.filter_append]
    by_cases hcov : p.x.toNat = u ∧ p.y.toNat = v
    · simp [hcov]
    · have hfilter : [p].filter (fun p => p.x.toNat == u && p.y.toNat == v) = [] := by
        simpa using hcov
      rw [if_neg hcov, hfilter, List.append_nil]

/-- Settles O14: the batch runs one request per step, and the later of two points at a pixel paints
over the earlier. -/
theorem drawBatchAppliesEveryPixel : Obligations.DrawBatchAppliesEveryPixel := by
  intro ps ws s hw hs hp hr
  obtain ⟨hreq, htrace, hseq, hresp, hd, hl, hpanel, -⟩ := drawnAll_frame ps ws s
  exact ⟨s.drawnAll ps ws, core_run_draw ps ws hw hs hp hr, hreq, htrace, hseq.trans hs, hresp, hd,
    hl, hpanel, fun u v hu hv => pixelAt_drawnAll ps ws s hu hv⟩

end Sys2Proof.Machine
end

section
/-! PROOFS. HARD_RESET and INIT (42_reset_init_ops.md R120 to R124): a host operation whose answers
are laid down, in the closed forms of its events. -/

namespace Sys2Proof.Machine

/-! ## Host operations over laid-down answers -/

/-- A failed event drives no line (R23). -/
theorem drivenLine_of_error {ans : Answer} {err : OpError} (he : ans.error? = some err) (ev : Event)
    (l : ResetLine) : ev.drivenLine ans l = l := by
  cases ans with
  | ok => cases he
  | fail => exact drivenLine_fail ev l
  | failPin e => cases ev <;> rfl

/-- Answers that each event in turn takes as `ok`, whatever they are. -/
theorem run_granted {ms : List Micro} {s : State} {answers rest : List EnvAnswer}
    (hgrant : ∀ m ∈ ms, ∀ x ∈ answers, ∀ t : State, (m.act.event t).answer s.cfg x = some .ok)
    (hlen : answers.length = ms.length) (henv : s.env = answers ++ rest) :
    run ms s = ({ ms.foldl State.okStep s with env := rest } : State).respond 0 := by
  induction ms generalizing s answers with
  | nil =>
    obtain rfl := List.length_eq_zero_iff.mp hlen
    have henv : s.env = rest := henv
    subst henv
    rfl
  | cons m ms ih =>
    obtain ⟨x, answers, rfl⟩ := List.exists_cons_of_length_eq_add_one hlen
    have hanswer : (m.act.event s).answer s.cfg s.nextAnswer = some .ok := by
      rw [nextAnswer_cons s x _ henv]
      exact hgrant m List.mem_cons_self x List.mem_cons_self s
    rw [run_cons_done _ _ _ _ (emit_done _ _ hanswer), useAnswer_env_cons s x _ henv]
    change run ms (({ s with env := answers ++ rest } : State).okStep m) = _
    rw [ih (s := ({ s with env := answers ++ rest } : State).okStep m) (answers := answers) ?_
      (by simpa using hlen) (by simp [State.okStep]), okStep_env, foldl_okStep_env, List.foldl_cons]
    intro n hn y hy t
    rw [okStep_cfg]
    exact hgrant n (List.mem_cons_of_mem m hn) y (List.mem_cons_of_mem x hy) t

section
variable (op : Byte) (a b : Word) {ms : List Micro} {es : List Event} {s : State}
  {rest : List EnvAnswer}
  (hw : s.cfg.wf = true) (hs : s.seq = .idle) (hes : okEvents ms (s.accept op a b) = es)
include hw hs hes

/-- With every event taken as answered `ok` the operation emits exactly its events and responds
`OK`. -/
theorem hostOp_run_granted {answers : List EnvAnswer}
    (hgrant : ∀ m ∈ ms, ∀ x ∈ answers, ∀ t : State, (m.act.event t).answer s.cfg x = some .ok)
    (hlen : answers.length = ms.length) (henv : s.env = answers ++ rest) :
    ∃ p, hostOp op a b (run ms) s = .next { s with
      opc := op, A := a, B := b, resp := ⟨statusOk, 0⟩, env := rest, fb := fbAfter ms s.fb
      dstate := dstateAfter ms s.dstate, rst := lineAfter ms s.rst, trace := s.trace ++ allOk es
      panel := p } := by
  obtain ⟨p, hp⟩ := foldl_okStep_eq ms (s.accept op a b)
  refine ⟨p, ?_⟩
  rw [hostOp_next _ _ _ _ _ hw hs, run_granted (s := s.accept op a b) hgrant hlen henv, hp, hes]
  simp [State.respond, State.accept, hs, allOk]

theorem hostOp_run_ok (henv : s.env = List.replicate es.length .ok ++ rest) :
    ∃ p, hostOp op a b (run ms) s = .next { s with
      opc := op, A := a, B := b, resp := ⟨statusOk, 0⟩, env := rest, fb := fbAfter ms s.fb
      dstate := dstateAfter ms s.dstate, rst := lineAfter ms s.rst, trace := s.trace ++ allOk es
      panel := p } := by
  refine hostOp_run_granted op a b hw hs hes (fun m _ x hx t => ?_) ?_ henv
  · rw [List.eq_of_mem_replicate hx, answer_ok]
  · rw [List.length_replicate, ← hes, okEvents_length]

/-- The first failure, at position `k`, ends the operation there with its error (R15, R147). -/
theorem hostOp_run_fails_at {k : Nat} {ev : Event} {x : EnvAnswer} {ans : Answer} {err : OpError}
    (hk : es[k]? = some ev) (henv : s.env = List.replicate k .ok ++ x :: rest)
    (ha : ev.answer s.cfg x = some ans) (he : ans.error? = some err) :
    ∃ p, hostOp op a b (run ms) s = .next { s with
      opc := op, A := a, B := b, resp := err.response, dstate := .unpowered, env := rest
      fb := fbAfter (ms.take k) s.fb, rst := lineAfter (ms.take k) s.rst
      trace := s.trace ++ (allOk (es.take k) ++ [(ev, ans)]), panel := p } := by
  rw [← hes, okEvents_getElem?, Option.map_eq_some_iff] at hk
  obtain ⟨m, hm, rfl⟩ := hk
  have hrun := run_fails_at ms (s.accept op a b) k m x rest ans err hm henv (fun _ h => h ▸ ha) he
  obtain ⟨p, hp⟩ := foldl_okStep_eq (ms.take k) (s.accept op a b)
  rw [hostOp_next _ _ _ _ _ hw hs, hrun, ← hes, ← okEvents_take, State.answered,
    event_congr m.act _ ((ms.take k).foldl State.okStep (s.accept op a b)) rfl rfl,
    drivenLine_of_error he]
  rw [hp, State.raise, ← hs, ← List.append_assoc]
  exact ⟨_, rfl⟩

/-- The first event not answered, at position `k`, leaves the operation waiting there (R183). -/
theorem hostOp_run_waits_at {k : Nat} (hk : k < es.length)
    (henv : s.env = List.replicate k .ok ++ .pending :: rest) :
    ∃ p, hostOp op a b (run ms) s = .next { s with
      opc := op, A := a, B := b, seq := .busy k, dstate := dstateAfter (ms.take k) s.dstate
      env := rest, fb := fbAfter (ms.take k) s.fb, rst := lineAfter (ms.take k) s.rst
      trace := s.trace ++ allOk (es.take k), panel := p } := by
  rw [← hes, okEvents_length] at hk
  obtain ⟨p, hp⟩ := foldl_okStep_eq (ms.take k) (s.accept op a b)
  refine ⟨p, ?_⟩
  rw [hostOp_next _ _ _ _ _ hw hs, run_waits_at ms (s.accept op a b) k rest hk henv, hp, ← hes,
    ← okEvents_take, List.length_take, Nat.min_eq_left hk.le, accept_seq, SeqPos.plus, Nat.zero_add]
  rfl

end

/-! ## HARD_RESET -/

/-- R120's six events, with R7's two fixed waits. -/
theorem hardResetEvents_okEvents {s : State} (hw : s.cfg.wf = true) (op : Byte) (a b : Word) :
    okEvents (hardResetEvents s.cfg) (s.accept op a b) =
      [.pinHigh, .delayMs 1, .pinLow, .delayUs s.cfg.tRstLowUs, .pinHigh, .delayMs 2] := by
  obtain ⟨-, -, hpre, -, hpost, -⟩ := Config.wf_parts hw
  rw [← hpre, ← hpost]
  rfl

/-- Settles O18: the registers along HARD_RESET's six events. -/
theorem hardResetPulsesTheLine : Obligations.HardResetPulsesTheLine :=
  fun _ hw hs _ henv => hostOp_run_ok _ 0 0 hw hs (hardResetEvents_okEvents hw _ 0 0) henv

theorem answer_pin_fail {c : Config} (hp : c.pinPresent = true) {ev : Event}
    (hev : ev = .pinHigh ∨ ev = .pinLow) (v : Word) :
    ev.answer c (.fail v) = some (.failPin (pinError c v)) := by
  obtain rfl | rfl := hev <;> simp [Event.answer, hp]

/-- Settles O19: the pin events stand at positions 0, 2 and 4, and the line is as the events before
the failed one left it. -/
theorem hardResetPinFailure : Obligations.HardResetPinFailure := by
  intro s v rest hw hs hp
  have hes := hardResetEvents_okEvents hw Opcode.hardReset 0 0
  have hhigh := answer_pin_fail hp (.inl rfl) v
  have hlow := answer_pin_fail hp (.inr rfl) v
  exact ⟨fun henv => hostOp_run_fails_at _ 0 0 hw hs hes (k := 0) rfl henv hhigh rfl,
    fun henv => hostOp_run_fails_at _ 0 0 hw hs hes (k := 2) rfl henv hlow rfl,
    fun henv => hostOp_run_fails_at _ 0 0 hw hs hes (k := 4) rfl henv hhigh rfl⟩

/-- Without a wired line no event of HARD_RESET fails (R11, R14). -/
theorem hardResetEvents_granted {c : Config} (hp : c.pinPresent = false) {m : Micro}
    (hm : m ∈ hardResetEvents c) {x : EnvAnswer} (hx : x ≠ .pending) (t : State) :
    (m.act.event t).answer c x = some .ok := by
  cases hans : (m.act.event t).answer c x with
  | none => exact absurd ((answer_eq_none_iff ..).mp hans) hx
  | some ans =>
    obtain rfl | ⟨-, hbus⟩ | ⟨hwired, -⟩ := answer_cases hans
    · rfl
    · exact absurd hbus (hardResetEvents_not_bus hm t)
    · simp [hp] at hwired

/-- Settles O20: every answer that is not pending is taken as `ok`. -/
theorem hardResetWithoutPinSucceeds : Obligations.HardResetWithoutPinSucceeds := by
  intro s answers rest hw hs hp hlen hpending henv
  refine hostOp_run_granted _ 0 0 hw hs (ms := hardResetEvents s.cfg) rfl (fun m hm x hx t => ?_)
    hlen henv
  exact hardResetEvents_granted hp hm (fun h => hpending (h ▸ hx)) t

/-! ## INIT -/

theorem initEvents_accept_okEvents {s : State} (hw : s.cfg.wf = true) (op : Byte) (a b : Word) :
    okEvents (initEvents s.cfg) (s.accept op a b) = initEventList s.cfg :=
  initEvents_okEvents (s.accept op a b) s.cfg rfl hw

/-- The registers and the framebuffer at the end of INIT (R123). -/
theorem initEvents_after_all (c : Config) (l : ResetLine) (d : DriverState) (fb : Memory) :
    dstateAfter (initEvents c) d = .displaying ∧ lineAfter (initEvents c) l = .high ∧
      fbAfter (initEvents c) fb = [] := by
  obtain ⟨hd, hl, hfb⟩ := initEvents_after c (initEvents c).length l d fb
  have hlen : 18 < (initEvents c).length := by
    simp [initEvents, hardResetEvents, initConfigEvents, initShowEvents]
  rw [List.take_length] at hd hl hfb
  rw [hd, hl, hfb]
  refine ⟨?_, ?_, ?_⟩
  · rw [if_neg (by omega), if_neg (by omega), if_neg (by omega)]
  · rw [if_neg (by omega), if_neg (by omega), if_neg (by omega)]
  · rw [if_neg (by omega)]

/-- Settles O21: INIT's events in closed form, and the registers at their end. -/
theorem initEmitsItsEventList : Obligations.InitEmitsItsEventList := by
  refine fun s hw hs => ⟨initEventList_length _, fun rest henv => ?_⟩
  obtain ⟨p, hp⟩ := hostOp_run_ok _ 0 0 hw hs (initEvents_accept_okEvents hw Opcode.init 0 0) henv
  obtain ⟨hd, hl, hfb⟩ := initEvents_after_all s.cfg s.rst s.dstate s.fb
  rw [hd, hl, hfb] at hp
  exact ⟨[], p, hp, read_nil⟩

/-- R124's list from position 6 on: bus events. -/
theorem initEventList_bus {c : Config} (hw : c.wf = true) {k : Nat} {ev : Event}
    (hk : (initEventList c)[k]? = some ev) (h6 : 6 ≤ k) :
    (∃ bs, ev = .busCmd bs) ∨ ∃ bs, ev = .busData bs := by
  rw [← initEvents_okEvents (State.construct c) c rfl hw, okEvents_getElem?,
    Option.map_eq_some_iff] at hk
  obtain ⟨m, hm, rfl⟩ := hk
  obtain ⟨i, hact⟩ | ⟨pg, hact⟩ := initEvents_bus c k m hm h6
  · exact .inl ⟨_, by rw [hact]; rfl⟩
  · exact .inr ⟨_, by rw [hact]; rfl⟩

theorem initEventList_pin {c : Config} {k : Nat} {ev : Event} (hk : (initEventList c)[k]? = some ev)
    (hpos : k = 0 ∨ k = 2 ∨ k = 4) : ev = .pinHigh ∨ ev = .pinLow := by
  obtain rfl | rfl | rfl := hpos <;> cases hk
  · exact .inl rfl
  · exact .inr rfl
  · exact .inl rfl

theorem answer_bus_fail {ev : Event} (hev : (∃ bs, ev = .busCmd bs) ∨ ∃ bs, ev = .busData bs)
    (c : Config) (v : Word) : ev.answer c (.fail v) = some .fail := by
  obtain ⟨bs, rfl⟩ | ⟨bs, rfl⟩ := hev <;> rfl

/-- The framebuffer at position `k` of INIT: CLEAR follows event 18 (R122). -/
theorem fbAfter_initEvents (c : Config) (k : Nat) (fb : Memory) :
    (k ≤ 18 → fbAfter ((initEvents c).take k) fb = fb) ∧
      (19 ≤ k → ∀ a, (fbAfter ((initEvents c).take k) fb).read a = 0x00) := by
  obtain ⟨-, -, hfb⟩ := initEvents_after c k .undriven .unpowered fb
  rw [hfb]
  exact ⟨fun h => if_pos h, fun h a => by rw [if_neg (by omega), read_nil]⟩

/-- Settles O22: the failed event is a bus event from position 6 on and a wired pin event before it;
the line and the framebuffer are as the events before it left them. -/
theorem initFirstFailure : Obligations.InitFirstFailure := by
  intro s k ev v rest hw hs hk hpos henv
  have hes := initEvents_accept_okEvents hw Opcode.init 0 0
  obtain ⟨-, hline, -⟩ := initEvents_after s.cfg k s.rst s.dstate s.fb
  simp only [List.append_assoc]
  obtain h6 | ⟨hpin, hwired⟩ := hpos
  · obtain ⟨p, hp⟩ := hostOp_run_fails_at _ 0 0 hw hs hes hk henv
      (answer_bus_fail (initEventList_bus hw hk h6) s.cfg v) rfl
    refine ⟨_, p, ?_, fbAfter_initEvents s.cfg k s.fb⟩
    rw [if_pos h6, if_pos h6, if_neg (by omega), if_neg (by omega)]
    rw [hline, if_neg (by omega), if_neg (by omega), if_neg (by omega)] at hp
    exact hp
  · obtain ⟨p, hp⟩ := hostOp_run_fails_at _ 0 0 hw hs hes hk henv
      (answer_pin_fail hwired (initEventList_pin hk hpin) v) rfl
    have hpulse :
        (if k = 0 then s.rst else if k ≤ 2 then .high else if k ≤ 4 then .low else .high) =
        if k = 0 then s.rst else if k = 4 then .low else .high := by
      obtain rfl | rfl | rfl := hpin <;> rfl
    refine ⟨_, p, ?_, fbAfter_initEvents s.cfg k s.fb⟩
    have h6 : ¬6 ≤ k := by omega
    rw [if_neg h6, if_neg h6]
    rw [hline, hpulse] at hp
    exact hp

/-- Settles O23: the registers where the events before position `k` left them; a waiting INIT has
not reached its last event, so `dstate` is not yet `Displaying`. -/
theorem initWaitsAtEachEvent : Obligations.InitWaitsAtEachEvent := by
  intro s k rest hw hs hk henv
  have hes := initEvents_accept_okEvents hw Opcode.init 0 0
  obtain ⟨p, hp⟩ := hostOp_run_waits_at _ 0 0 hw hs hes hk henv
  obtain ⟨hd, -, -⟩ := initEvents_after s.cfg k s.rst s.dstate s.fb
  have hlen : k < (initEvents s.cfg).length := by
    rw [← okEvents_length (initEvents s.cfg) (s.accept Opcode.init 0 0), hes]
    exact hk
  rw [if_pos hlen] at hd
  exact ⟨_, hp, rfl, rfl, rfl, rfl, hd, fbAfter_initEvents s.cfg k s.fb⟩

end Sys2Proof.Machine
end

section
/-! PROOFS. The panel controller as a device model (20_memory.md R58; 10_state.md R30;
60_exceptions.md R148): its commands, what a host operation answered `ok` throughout leaves in it,
and the window a flush writes. -/

namespace Sys2Proof.Machine

/-! ## Single commands -/

/-- The column pointer's two parts (R58). -/
theorem columnPointer_toNat (high : BitVec 3) (low : BitVec 4) :
    (high ++ low : BitVec 7).toNat = high.toNat * 16 + low.toNat := by
  rw [BitVec.toNat_append, Nat.shiftLeft_eq]
  exact mul_two_pow_or_of_lt low.isLt

/-- Settles O29: the three pointer commands, and their pointers as numbers. -/
theorem panelPointerCommands : Obligations.PanelPointerCommands := by
  intro v s hlost
  have hpage := exec_command (.opSetPageAddress v) s rfl
  have hlower := exec_command (.opSetLowerColumn v) s rfl
  have hhigher := exec_command (.opSetHigherColumn v) s rfl
  rw [Panel.command, Panel.opSetPageAddress, onCommand_known _ _ hlost] at hpage
  rw [Panel.command, Panel.opSetLowerColumn, onCommand_known _ _ hlost] at hlower
  rw [Panel.command, Panel.opSetHigherColumn, onCommand_known _ _ hlost] at hhigher
  refine ⟨⟨_, hpage, ?_, rfl⟩, ⟨_, hlower, ?_, rfl⟩, ⟨_, hhigher, ?_, rfl⟩⟩
  · exact BitVec.toNat_setWidth ..
  · have hcp := s.panel.regs.cp.isLt
    rw [columnPointer_toNat, BitVec.extractLsb'_toNat, BitVec.toNat_setWidth,
      Nat.shiftRight_eq_div_pow]
    omega
  · rw [columnPointer_toNat, BitVec.extractLsb'_toNat, BitVec.toNat_setWidth, Nat.shiftRight_zero]

/-- Settles O30: each setting command is its change of the registers. -/
theorem panelSettingCommands : Obligations.PanelSettingCommands := by
  intro v s hlost set r
  have hset (i : Instr) (f : PanelRegs → PanelRegs) (hi : encodeRequest i = none)
      (hf : s.panel.command i = s.panel.onCommand f) : exec i s = set (f r) := by
    rw [exec_command i s hi, hf, onCommand_known f _ hlost]
  exact ⟨hset .opDisplayOff (fun r => { r with displayOn := false }) rfl rfl,
    hset .opDisplayOn (fun r => { r with displayOn := true }) rfl rfl,
    hset (.opSetClockDiv v) (fun r => { r with clockDiv := v }) rfl rfl,
    hset (.opSetMultiplex v) (fun r => { r with multiplex := v }) rfl rfl,
    hset (.opSetDisplayOffset v) (fun r => { r with displayOffset := v }) rfl rfl,
    hset (.opSetStartLine v) (fun r => { r with startLine := v }) rfl rfl,
    hset (.opSetDcdc v) (fun r => { r with dcdc := v }) rfl rfl,
    hset (.opSetPumpVoltage v) (fun r => { r with pumpVoltage := v }) rfl rfl,
    hset .opSegRemapReversed (fun r => { r with segRemapReversed := true }) rfl rfl,
    hset .opComScanReversed (fun r => { r with comScanReversed := true }) rfl rfl,
    hset (.opSegPadsConfig v) (fun r => { r with segPads := v }) rfl rfl,
    hset (.opSetContrast v) (fun r => { r with contrast := v }) rfl rfl,
    hset (.opSetPrecharge v) (fun r => { r with precharge := v }) rfl rfl,
    hset (.opSetVcomDeselect v) (fun r => { r with vcom := v }) rfl rfl,
    hset .opResumeFromRam (fun r => { r with fromRam := true }) rfl rfl,
    hset .opNormalDisplay (fun r => { r with normal := true }) rfl rfl,
    hset (.opSetBreathingLight v) (fun r => { r with breathing := v }) rfl rfl⟩

/-- Settles O31: every command is a change of the registers, which an unknown state turns into
forgetting. -/
theorem panelCommandInUnknownState : Obligations.PanelCommandInUnknownState := by
  intro i s hi
  obtain ⟨f, hf⟩ := command_onCommand i s.panel hi
  refine ⟨s.panel.command i, exec_command i s hi, ?_⟩
  cases hlost : s.panel.lost with
  | true =>
    rw [hf, onCommand_lost f _ hlost]
    exact ⟨hlost, fun _ => ⟨rfl, fun _ _ => rfl⟩, nofun⟩
  | false =>
    rw [hf, onCommand_known f _ hlost]
    exact ⟨hlost, nofun, fun _ => rfl⟩

/-! ## Host operations answered `ok` throughout -/

@[simp] theorem okStep_panel (s : State) (m : Micro) : (s.okStep m).panel =
    m.act.onPanel (m.act.event s) .ok s.cfg.pinPresent s.panel := by
  simp [State.okStep]

/-- A host operation whose events are all answered `ok` ends with `OK` in the state its events lead
to. -/
theorem exec_ok {i : Instr} {s : State} {rest : List EnvAnswer} (hw : s.cfg.wf = true)
    (hs : s.seq = .idle) (hne : operationEvents s.cfg i ≠ [])
    (henv : s.env = List.replicate (operationEvents s.cfg i).length .ok ++ rest) :
    ∃ op a b, exec i s = .next
      (({ (operationEvents s.cfg i).foldl State.okStep (s.accept op a b) with env := rest } :
        State).respond 0) := by
  obtain ⟨op, a, b, -, hexec⟩ := exec_events i s.cfg hne
  exact ⟨op, a, b, by
    rw [hexec s rfl, hostOp_next _ _ _ _ _ hw hs, run_ok _ (s.accept op a b) rest henv]⟩

/-- Commands answered `ok` reach the panel in turn. -/
theorem foldl_okStep_commands_panel (cmds : List Instr) (s : State) :
    ((cmds.map fun j => (Action.command j).only).foldl State.okStep s).panel =
      cmds.foldl (fun p j => p.command j) s.panel := by
  induction cmds generalizing s with
  | nil => rfl
  | cons j cmds ih => rw [List.map_cons, List.foldl_cons, ih, List.foldl_cons, okStep_panel]; rfl

theorem exec_commands_ok {i : Instr} {s : State} {rest : List EnvAnswer} (cmds : List Instr)
    (hw : s.cfg.wf = true) (hs : s.seq = .idle) (hne : cmds ≠ [])
    (hev : operationEvents s.cfg i = cmds.map fun j => (Action.command j).only)
    (henv : s.env = List.replicate cmds.length .ok ++ rest) :
    ∃ t, exec i s = .next t ∧ t.resp = ⟨0x00, 0⟩ ∧
      t.panel = cmds.foldl (fun p j => p.command j) s.panel := by
  obtain ⟨op, a, b, hexec⟩ := exec_ok (i := i) (rest := rest) hw hs (by simpa [hev] using hne)
    (by rw [hev, List.length_map, henv])
  refine ⟨_, hexec, rfl, ?_⟩
  rw [hev]
  exact foldl_okStep_commands_panel cmds (s.accept op a b)

/-- The page command's argument as the page pointer (R79). -/
theorem pageArg_setWidth (p : Nat) : (pageArg p).setWidth 3 = BitVec.ofNat 3 p := by
  apply BitVec.eq_of_toNat_eq
  rw [pageArg, BitVec.toNat_setWidth, BitVec.toNat_ofNat, BitVec.toNat_ofNat]
  omega

theorem opSetPageAddress_pageArg (p : Nat) {q : Panel} (hlost : q.lost = false) :
    q.opSetPageAddress (pageArg p) = { q with regs := { q.regs with pp := BitVec.ofNat 3 p } } := by
  rw [Panel.opSetPageAddress, onCommand_known _ _ hlost, pageArg_setWidth]

/-- Settles O32: the panel takes the operation's commands in turn. -/
theorem commandsReachThePanel : Obligations.CommandsReachThePanel := by
  refine fun s rest hw hs hlost => ⟨fun c hc henv => ?_, fun p hp henv => ?_,
    fun on sel frames hpos hle henv => ?_⟩
  · obtain ⟨t, hexec, hresp, hpanel⟩ := exec_commands_ok (i := .setColumnAddress c)
      [.opSetLowerColumn (columnLow c.toNat), .opSetHigherColumn (columnHigh c.toNat)] hw hs
      (by simp) (if_neg (Nat.not_lt.mpr hc)) henv
    exact ⟨t, hexec, hresp, hpanel.trans (column_commands c.toNat s.panel hlost (by omega))⟩
  · obtain ⟨t, hexec, hresp, hpanel⟩ := exec_commands_ok (i := .setPage p)
      [.opSetPageAddress (pageArg p.toNat)] hw hs (by simp) (if_neg (Nat.not_lt.mpr hp)) henv
    exact ⟨t, hexec, hresp, hpanel.trans (opSetPageAddress_pageArg p.toNat hlost)⟩
  · obtain ⟨t, hexec, hresp, hpanel⟩ := exec_commands_ok (i := .setBreathingEffect on sel frames)
      [.opSetBreathingLight (breathingParam on sel frames)] hw hs (by simp) (if_neg (by omega)) henv
    refine ⟨t, hexec, hresp, hpanel.trans ?_⟩
    rw [← breathingParam_eq_ofNat on sel hpos hle]
    exact onCommand_known (fun r => { r with breathing := _ }) _ hlost

/-! ## FLUSH to a known panel -/

/-- The body of FLUSH's loop sends all four events, since page and column are on the panel (R112).
-/
theorem flushPageEvents_eq {c : Config} (hw : c.wf = true) {pg : Nat} (hpg : pg < c.geom.pages) :
    flushPageEvents c pg = ([.opSetPageAddress (pageArg pg),
        .opSetLowerColumn (columnLow c.geom.offsetX.toNat),
        .opSetHigherColumn (columnHigh c.geom.offsetX.toNat)] : List Instr).map
      (fun j => (Action.command j).only) ++ [(Action.pageData pg).only] := by
  obtain ⟨hg, -⟩ := Config.wf_parts hw
  obtain ⟨-, -, hheight, hwidth, hpanel, -⟩ := Geometry.wf_parts hg
  rw [Geometry.pages] at hpg
  rw [flushPageEvents, setPageEvents, setColumnEvents, if_neg (by omega), if_neg (by omega)]
  rfl

/-- The panel with its pointers at a cell. -/
def Panel.pointedAt (p : Panel) (page col : Nat) : Panel :=
  { p with regs := { p.regs with
    pp := BitVec.ofNat 3 page, cp := BitVec.ofNat 7 col, cpPast := false } }

theorem pointedAt_cell (p : Panel) {page col : Nat} (hpage : page < 8) (hcol : col < 128) :
    (p.pointedAt page col).regs.cell = page * 128 + col := by
  simp only [Panel.pointedAt, PanelRegs.cell, BitVec.toNat_ofNat]
  omega

/-- The page command and the two column commands point a known panel at a cell (R58). -/
theorem pointing_commands {p : Panel} (hlost : p.lost = false) (page : Nat) {col : Nat}
    (hcol : col < 128) :
    ((p.opSetPageAddress (pageArg page)).opSetLowerColumn (columnLow col)).opSetHigherColumn
      (columnHigh col) = p.pointedAt page col := by
  rw [opSetPageAddress_pageArg page hlost]
  exact column_commands col _ hlost hcol

/-- A burst that stays within a page writes that part of the page and no other cell (R45, R58). -/
theorem data_pointedAt_known {p : Panel} {bs : List Byte} {page col₀ : Nat} (hlost : p.lost = false)
    (hpage : page < 8) (hcol₀ : col₀ < 128) (hlen : col₀ + bs.length ≤ 128) (pg col : Nat)
    (hcol : col < 128) :
    ((p.pointedAt page col₀).data bs).known pg col =
      if pg = page ∧ col₀ ≤ col ∧ col < col₀ + bs.length then bs[col - col₀]?
      else p.known pg col := by
  have hcp : (p.pointedAt page col₀).regs.cp.toNat = col₀ := by
    simp only [Panel.pointedAt, BitVec.toNat_ofNat]
    omega
  have hdata : (p.pointedAt page col₀).data bs = bs.foldl Panel.dataByte (p.pointedAt page col₀) :=
    if_neg (by simp [Panel.pointedAt, hlost])
  rw [Panel.known, hdata, foldl_dataByte_cellAt bs _ rfl (by rw [hcp]; exact hlen),
    pointedAt_cell p hpage hcol₀]
  by_cases hin : pg = page ∧ col₀ ≤ col ∧ col < col₀ + bs.length
  · obtain ⟨rfl, hin⟩ := hin
    rw [if_pos (by omega), if_pos ⟨rfl, hin⟩]
    congr 1
    omega
  · rw [if_neg (by omega), if_neg hin]
    rfl

theorem data_keeps_lost (bs : List Byte) (p : Panel) : (p.data bs).lost = p.lost := by
  unfold Panel.data
  split
  · rfl
  · exact (foldl_dataByte_lost bs p).1

/-- One page of a flush writes its slice into the window's row of that page and nothing else. -/
theorem flushPage_panel {s : State} (hw : s.cfg.wf = true) {pg : Nat} (hpg : pg < s.cfg.geom.pages)
    (hlost : s.panel.lost = false) :
    ((flushPageEvents s.cfg pg).foldl State.okStep s).panel =
      (s.panel.pointedAt pg s.cfg.geom.offsetX.toNat).data (s.pageSlice pg) := by
  obtain ⟨hg, -⟩ := Config.wf_parts hw
  obtain ⟨-, -, -, hwidth, hpanel, -⟩ := Geometry.wf_parts hg
  rw [flushPageEvents_eq hw hpg, List.foldl_append, List.foldl_cons, List.foldl_nil, okStep_panel,
    foldl_okStep_commands_panel, event_congr _ _ s (foldl_okStep_cfg _ s) (foldl_okStep_fb _ s ?_),
    ← pointing_commands hlost pg (by omega)]
  · rfl
  · simp [Action.only]

theorem flushPage_known {s : State} (hw : s.cfg.wf = true) {pg : Nat} (hpg : pg < s.cfg.geom.pages)
    (hlost : s.panel.lost = false) (page col : Nat) (hcol : col < 128) :
    ((flushPageEvents s.cfg pg).foldl State.okStep s).panel.known page col =
      if page = pg ∧ s.cfg.geom.offsetX.toNat ≤ col ∧
          col < s.cfg.geom.offsetX.toNat + s.cfg.geom.width.toNat then
        some (s.fb.read (page * s.cfg.geom.width.toNat + (col - s.cfg.geom.offsetX.toNat)))
      else s.panel.known page col := by
  obtain ⟨hg, -⟩ := Config.wf_parts hw
  obtain ⟨-, -, hheight, hwidth, hpanel, -⟩ := Geometry.wf_parts hg
  have hlen : (s.pageSlice pg).length = s.cfg.geom.width.toNat := slice_length _ _ _
  have hpage : pg < 8 := by
    rw [Geometry.pages] at hpg
    omega
  rw [flushPage_panel hw hpg hlost, data_pointedAt_known hlost hpage (by omega) (by omega) _ _ hcol,
    hlen]
  by_cases hin : page = pg ∧ s.cfg.geom.offsetX.toNat ≤ col ∧
      col < s.cfg.geom.offsetX.toNat + s.cfg.geom.width.toNat
  · obtain ⟨rfl, hlow, hhigh⟩ := hin
    rw [if_pos ⟨rfl, hlow, hhigh⟩, if_pos ⟨rfl, hlow, hhigh⟩, List.getElem?_eq_getElem (by omega)]
    exact congrArg some (slice_getElem _ _ _ _ (by omega))
  · rw [if_neg hin, if_neg hin]

/-- The first `n` pages of a flush write those rows of the window, each from the framebuffer as it
stood, and nothing else (R57). -/
theorem flushPages_known {s : State} (hw : s.cfg.wf = true) (hlost : s.panel.lost = false) {n : Nat}
    (hn : n ≤ s.cfg.geom.pages) :
    (((List.range n).flatMap (flushPageEvents s.cfg)).foldl State.okStep s).panel.lost = false ∧
    ∀ page col, col < 128 →
      (((List.range n).flatMap (flushPageEvents s.cfg)).foldl State.okStep s).panel.known page col =
        if page < n ∧ s.cfg.geom.offsetX.toNat ≤ col ∧
            col < s.cfg.geom.offsetX.toNat + s.cfg.geom.width.toNat then
          some (s.fb.read (page * s.cfg.geom.width.toNat + (col - s.cfg.geom.offsetX.toNat)))
        else s.panel.known page col := by
  induction n with
  | zero => simp [hlost]
  | succ n ih =>
    obtain ⟨ihlost, ihknown⟩ := ih (by omega)
    have hsub : ∀ m ∈ (List.range n).flatMap (flushPageEvents s.cfg), m.post ≠ .clear := by
      intro m hm
      obtain ⟨pg, hpg, hm⟩ := List.mem_flatMap.mp hm
      have hmem : m ∈ flushEvents s.cfg := List.mem_flatMap.mpr
        ⟨pg, List.mem_range.mpr (by have := List.mem_range.mp hpg; omega), hm⟩
      rw [(flushEvents_plainBus s.cfg m hmem).1]
      simp
    have hfb := foldl_okStep_fb _ s hsub
    have hcfg := foldl_okStep_cfg ((List.range n).flatMap (flushPageEvents s.cfg)) s
    rw [List.range_succ, List.flatMap_append, List.flatMap_singleton, List.foldl_append]
    generalize ((List.range n).flatMap (flushPageEvents s.cfg)).foldl State.okStep s = t at *
    rw [← hcfg] at hw hn ⊢
    refine ⟨?_, fun page col hcol => ?_⟩
    · rw [flushPage_panel hw (by omega) ihlost, data_keeps_lost]
      exact ihlost
    · rw [flushPage_known hw (by omega) ihlost page col hcol, ihknown page col hcol, hcfg, hfb]
      by_cases hin : s.cfg.geom.offsetX.toNat ≤ col ∧
          col < s.cfg.geom.offsetX.toNat + s.cfg.geom.width.toNat
      · obtain hlt | heq | hgt := Nat.lt_trichotomy page n
        · rw [if_neg (by omega), if_pos ⟨hlt, hin⟩, if_pos ⟨by omega, hin⟩]
        · rw [if_pos ⟨heq, hin⟩, if_pos ⟨by omega, hin⟩]
        · rw [if_neg (by omega), if_neg (by omega), if_neg (by omega)]
      · rw [if_neg (fun h => hin h.2), if_neg (fun h => hin h.2), if_neg (fun h => hin h.2)]

/-- After a flush to a known panel the window holds the framebuffer, and the rest is as it was
(R57). -/
theorem flush_window {s : State} (hw : s.cfg.wf = true) (hlost : s.panel.lost = false) :
    ((flushEvents s.cfg).foldl State.okStep s).panel.lost = false ∧
    (∀ pg c, pg < s.cfg.geom.pages → c < s.cfg.geom.width.toNat →
      ((flushEvents s.cfg).foldl State.okStep s).panel.known pg (s.cfg.geom.offsetX.toNat + c) =
        some (s.fb.read (pg * s.cfg.geom.width.toNat + c))) ∧
    ∀ pg col, col < 128 →
      ¬(pg < s.cfg.geom.pages ∧ s.cfg.geom.offsetX.toNat ≤ col ∧
        col < s.cfg.geom.offsetX.toNat + s.cfg.geom.width.toNat) →
      ((flushEvents s.cfg).foldl State.okStep s).panel.known pg col = s.panel.known pg col := by
  obtain ⟨hg, -⟩ := Config.wf_parts hw
  obtain ⟨-, -, -, -, hpanel, -⟩ := Geometry.wf_parts hg
  obtain ⟨hlost', hknown⟩ := flushPages_known hw hlost le_rfl
  refine ⟨hlost', fun pg c hpg hc => ?_, fun pg col hcol hout =>
    (hknown pg col hcol).trans (if_neg hout)⟩
  refine (hknown pg _ (by omega)).trans ?_
  rw [if_pos ⟨hpg, Nat.le_add_right _ _, Nat.add_lt_add_left hc _⟩, Nat.add_sub_cancel_left]

/-! ## FLUSH to a panel in an unknown state -/

/-- An event of a flush answered `ok` makes a panel in an unknown state forget everything (R148). -/
theorem okStep_panel_lost {m : Micro} {s : State} (hm : m.plainBus)
    (hcmd : ∀ j, m.act = .command j → encodeRequest j = none) (hlost : s.panel.lost = true) :
    (s.okStep m).panel = s.panel.forget := by
  rw [okStep_panel]
  obtain ⟨-, ⟨j, hact⟩ | ⟨pg, hact⟩⟩ := hm
  · rw [hact]
    exact command_lost j s.panel (hcmd j hact) hlost
  · rw [hact]
    exact data_lost _ s.panel hlost

theorem foldl_okStep_panel_lost {ms : List Micro} {s : State} (hms : ∀ m ∈ ms, m.plainBus)
    (hcmd : ∀ m ∈ ms, ∀ j, m.act = .command j → encodeRequest j = none)
    (hlost : s.panel.lost = true) :
    (ms.foldl State.okStep s).panel.lost = true ∧
      (ms ≠ [] ∨ s.panel.ram = [] → (ms.foldl State.okStep s).panel.ram = []) := by
  induction ms generalizing s with
  | nil => exact ⟨hlost, fun h => h.resolve_left (by simp)⟩
  | cons m ms ih =>
    obtain ⟨hm, hms⟩ := List.forall_mem_cons.mp hms
    obtain ⟨hmcmd, hcmd⟩ := List.forall_mem_cons.mp hcmd
    have hpanel := okStep_panel_lost hm hmcmd hlost
    obtain ⟨hlost', hram⟩ := ih (s := s.okStep m) hms hcmd (by rw [hpanel]; exact hlost)
    exact ⟨hlost', fun _ => hram (.inr (by rw [hpanel]; rfl))⟩

theorem flushEvents_ne_nil {c : Config} (hw : c.wf = true) : flushEvents c ≠ [] := by
  obtain ⟨hg, -⟩ := Config.wf_parts hw
  obtain ⟨-, hheight, -⟩ := Geometry.wf_parts hg
  refine List.ne_nil_of_length_pos ?_
  rw [flushEvents_length c hw, Geometry.pages]
  omega

/-- Settles O33: a known panel takes the pages one after the other; a panel in an unknown state
forgets everything at the first event. -/
theorem flushMirrorsFramebuffer : Obligations.FlushMirrorsFramebuffer := by
  intro s rest hw hs henv
  obtain ⟨op, a, b, hexec⟩ := exec_ok (i := .flush) (rest := rest) hw hs (flushEvents_ne_nil hw)
    (by rw [henv, ← flushEvents_length s.cfg hw]; rfl)
  have hbus := flushEvents_plainBus s.cfg
  have hfb := foldl_okStep_fb (flushEvents s.cfg) (s.accept op a b)
    (operationEvents_no_clear (c := s.cfg) (i := .flush) (by simp))
  refine ⟨_, hexec, rfl, hfb, ?_⟩
  cases hlost : s.panel.lost with
  | false =>
    obtain ⟨hlost', hwindow, hrest⟩ := flush_window (s := s.accept op a b) hw hlost
    exact ⟨hlost', fun _ => ⟨hwindow, fun pg col _ => hrest pg col⟩, nofun⟩
  | true =>
    have hcmd : ∀ m ∈ flushEvents s.cfg, ∀ j, m.act = .command j → encodeRequest j = none :=
      fun m hm j hj => (operationEvents_wfIn s.cfg hw .flush m hm j hj).2
    obtain ⟨hlost', hram⟩ := foldl_okStep_panel_lost (s := s.accept op a b) hbus hcmd hlost
    have hnil := hram (.inl (flushEvents_ne_nil hw))
    exact ⟨hlost', nofun, fun _ pg col => congrArg (Memory.cellAt · (pg * 128 + col)) hnil⟩

/-! ## INIT -/

/-- Commands to a known panel keep its RAM. -/
theorem foldl_okStep_commands_known {ms : List Micro} {s : State}
    (hms : ∀ m ∈ ms, ∃ j, m.act = .command j) (hlost : s.panel.lost = false) :
    (ms.foldl State.okStep s).panel.lost = false ∧
      (ms.foldl State.okStep s).panel.ram = s.panel.ram := by
  induction ms generalizing s with
  | nil => exact ⟨hlost, rfl⟩
  | cons m ms ih =>
    obtain ⟨⟨j, hj⟩, hms⟩ := List.forall_mem_cons.mp hms
    have hpanel : (s.okStep m).panel = s.panel.command j := by
      rw [okStep_panel, hj]
      rfl
    obtain ⟨hram, hlost', -⟩ := command_known j s.panel hlost
    obtain ⟨ihlost, ihram⟩ := ih (s := s.okStep m) hms (by rw [hpanel, hlost'])
    exact ⟨ihlost, by rw [List.foldl_cons, ihram, hpanel, hram]⟩

/-- HARD_RESET answered `ok`: a wired pulse ends the unknown state and forgets the RAM; without a
line the panel sees nothing (R58, R11). -/
theorem hardReset_panel (s : State) (h : s.cfg.pinPresent = true ∨ s.panel.lost = false) :
    ((hardResetEvents s.cfg).foldl State.okStep s).panel.lost = false ∧
      ((hardResetEvents s.cfg).foldl State.okStep s).panel.ram =
        if s.cfg.pinPresent then [] else s.panel.ram := by
  simp only [hardResetEvents, List.foldl_cons, List.foldl_nil, okStep_panel, okStep_cfg]
  cases hwired : s.cfg.pinPresent with
  | true => exact ⟨rfl, rfl⟩
  | false => exact ⟨h.resolve_left (by simp [hwired]), rfl⟩

theorem initConfigEvents_command {c : Config} :
    ∀ m ∈ initConfigEvents c, ∃ j, m.act = .command j := by
  intro m hm
  simp only [initConfigEvents, Action.only, List.mem_cons, List.not_mem_nil, or_false] at hm
  obtain rfl | rfl | rfl | rfl | rfl | rfl | rfl | rfl | rfl | rfl | rfl | rfl | rfl := hm <;>
    exact ⟨_, rfl⟩

/-- INIT's last three commands show the RAM on a known panel (R122). -/
theorem initShowEvents_panel {s : State} (hlost : s.panel.lost = false) :
    (initShowEvents.foldl State.okStep s).panel = { s.panel with
      regs := { s.panel.regs with fromRam := true, normal := true, displayOn := true } } := by
  simp only [initShowEvents, Action.only, List.foldl_cons, List.foldl_nil, okStep_panel,
    Action.onPanel, Panel.command, Panel.opResumeFromRam, Panel.opNormalDisplay, Panel.opDisplayOn]
  simp [onCommand_known, hlost]

/-- The state before INIT's flush: a known panel, its RAM forgotten by a wired pulse, and a cleared
framebuffer. -/
theorem panel_before_initFlush (s : State) (h : s.cfg.pinPresent = true ∨ s.panel.lost = false) :
    ((hardResetEvents s.cfg ++ initConfigEvents s.cfg).foldl State.okStep s).panel.lost = false ∧
    ((hardResetEvents s.cfg ++ initConfigEvents s.cfg).foldl State.okStep s).panel.ram =
      (if s.cfg.pinPresent then [] else s.panel.ram) ∧
    ((hardResetEvents s.cfg ++ initConfigEvents s.cfg).foldl State.okStep s).fb = [] := by
  obtain ⟨hlost, hram⟩ := hardReset_panel s h
  obtain ⟨hlost', hram'⟩ := foldl_okStep_commands_known initConfigEvents_command hlost
  obtain ⟨p, hp⟩ := foldl_okStep_eq (hardResetEvents s.cfg ++ initConfigEvents s.cfg) s
  refine ⟨?_, ?_, by rw [hp]; rfl⟩
  · rw [List.foldl_append]
    exact hlost'
  · rw [List.foldl_append]
    exact hram'.trans hram

/-- What all of INIT's events, answered `ok`, leave in the panel (R123, R149). -/
theorem initEvents_panel {s : State} (hw : s.cfg.wf = true)
    (h : s.cfg.pinPresent = true ∨ s.panel.lost = false) :
    ∃ p, ((initEvents s.cfg).foldl State.okStep s).panel = p ∧ p.lost = false ∧
      p.regs.displayOn = true ∧ p.regs.normal = true ∧ p.regs.fromRam = true ∧
      (∀ pg c, pg < s.cfg.geom.pages → c < s.cfg.geom.width.toNat →
        p.known pg (s.cfg.geom.offsetX.toNat + c) = some 0x00) ∧
      ∀ pg col, col < 128 →
        ¬(pg < s.cfg.geom.pages ∧ s.cfg.geom.offsetX.toNat ≤ col ∧
          col < s.cfg.geom.offsetX.toNat + s.cfg.geom.width.toNat) →
        p.known pg col = if s.cfg.pinPresent = true then none else s.panel.known pg col := by
  obtain ⟨hlost, hram, hfb⟩ := panel_before_initFlush s h
  have hcfg := foldl_okStep_cfg (hardResetEvents s.cfg ++ initConfigEvents s.cfg) s
  rw [initEvents, List.foldl_append, List.foldl_append]
  generalize (hardResetEvents s.cfg ++ initConfigEvents s.cfg).foldl State.okStep s = u at *
  obtain ⟨hflush, hwindow, hrest⟩ := flush_window (hcfg ▸ hw) hlost
  rw [hcfg] at hflush hwindow hrest
  refine ⟨_, initShowEvents_panel hflush, hflush, rfl, rfl, rfl, fun pg c hpg hc => ?_,
    fun pg col hcol hout => ?_⟩
  · refine (hwindow pg c hpg hc).trans ?_
    rw [hfb, read_nil]
  · refine (hrest pg col hcol hout).trans ?_
    rw [Panel.known, hram]
    split <;> rfl

/-- Settles O34: the pulse and the configuration leave a known panel and a cleared framebuffer,
which the flush mirrors, and the last three commands show it. -/
theorem initBlanksThePanel : Obligations.InitBlanksThePanel := by
  intro s rest hw hs h henv
  have hlen := initEvents_length s.cfg hw
  have hne : initEvents s.cfg ≠ [] := List.ne_nil_of_length_pos (by omega)
  obtain ⟨op, a, b, hexec⟩ := exec_ok (i := .init) (rest := rest) hw hs hne
    (henv.trans (by rw [← hlen, operationEvents]))
  rw [operationEvents] at hexec
  obtain ⟨hd, -⟩ := foldl_okStep_registers (initEvents s.cfg) (s.accept op a b)
  obtain ⟨hdisplaying, -⟩ := initEvents_after_all s.cfg s.rst s.dstate s.fb
  obtain ⟨p, hp, hpanel⟩ := initEvents_panel (s := s.accept op a b) hw h
  rw [accept_dstate, hdisplaying] at hd
  rw [accept_cfg] at hp hpanel
  generalize (initEvents s.cfg).foldl State.okStep (s.accept op a b) = v at *
  subst hp
  obtain ⟨hlost, hon, hnormal, hram, hwindow, hrest⟩ := hpanel
  exact ⟨_, hexec, rfl, hd, hlost, hon, hnormal, hram, hwindow, fun pg col _ => hrest pg col⟩

end Sys2Proof.Machine
end
